-- ==== Sys2Proof/Word.lean ====
section
/-! DEFINITION. The widths of the engine's data (spec/00_scope.md R5, R8). Everything is unsigned. -/

namespace Sys2Proof

/-- A command word, a register value or a window word: 32 bits (R5, R8). -/
abbrev Word := BitVec 32

/-- A byte of BUF (R8). -/
abbrev Byte := BitVec 8

/-- A coefficient: 12 bits (R5, R13). -/
abbrev Coeff := BitVec 12

/-- An XOF chunk: 24 bits (R5, R117). -/
abbrev Chunk := BitVec 24

/-- A byte offset of the host port: 13 bits (R47, R48). -/
abbrev Offset := BitVec 13

/-- A byte address of BUF: 12 bits (R47, R78). -/
abbrev BufAddr := BitVec 12

/-- The 256 coefficients of one polynomial (R13). -/
abbrev Coeffs := Vector Coeff 256

end Sys2Proof
end

