-- ==== Sys2Proof/Syntax.lean ====
section
/-! DEFINITION. The command set as syntax: one constructor per row of spec/opcode_table.json, with the fields of
its format (spec/30_encoding.md R73, R80) and no others. -/

namespace Sys2Proof

/-- A domain tag (spec/10_state.md R14). -/
inductive Tag where
  | empty
  | coef
  | ntt
  | cmpr
deriving DecidableEq, Repr

/-- A polynomial register number, P0 to P15 (R13, R74): every value is valid. -/
abbrev Reg := Fin 16

/-- A command (R81). The fields d and eta are the raw 4-bit field of the word (R76); which values are legal is
said in WellFormed.lean. -/
inductive Instr where
  /-- `NOP`, format N (R93). -/
  | nop
  /-- `ADD Prd, Pra, Prb`, format R (R94). -/
  | add (rd ra rb : Reg)
  /-- `SUB Prd, Pra, Prb`, format R (R95). -/
  | sub (rd ra rb : Reg)
  /-- `SMUL Prd, Pra, imm`, format S (R96). -/
  | smul (rd ra : Reg) (imm : BitVec 12)
  /-- `PMUL Prd, Pra, Prb`, format R (R97). -/
  | pmul (rd ra rb : Reg)
  /-- `NTT Prd, Pra`, format U (R106). -/
  | ntt (rd ra : Reg)
  /-- `INTT Prd, Pra`, format U (R108). -/
  | intt (rd ra : Reg)
  /-- `SAMPU Prd`, format Z (R116). -/
  | sampu (rd : Reg)
  /-- `SAMPC Pp, eta, addr`, format M (R122). -/
  | sampc (p : Reg) (eta : BitVec 4) (addr : BufAddr)
  /-- `CMPR Prd, Pra, d`, format C (R129). -/
  | cmpr (rd ra : Reg) (d : BitVec 4)
  /-- `DCMP Prd, Pra, d`, format C (R131). -/
  | dcmp (rd ra : Reg) (d : BitVec 4)
  /-- `ENC Pp, d, addr`, format M (R137). -/
  | enc (p : Reg) (d : BitVec 4) (addr : BufAddr)
  /-- `DEC Pp, d, tag, addr`, format M (R139). -/
  | dec (p : Reg) (d : BitVec 4) (t : Tag) (addr : BufAddr)
deriving DecidableEq, Repr

end Sys2Proof
end

