-- ==== Sys2Proof/WellFormed.lean ====
section
/-! DEFINITION. Which commands have legal field values (spec/30_encoding.md R76, R77, R84). -/

namespace Sys2Proof

/-- The D/T pairs DEC allows (R77): D = 12 gives a COEF or an NTT register, D in 1..11 a CMPR register. -/
def decTagLegal (d : Nat) (t : Tag) : Bool :=
  if d = 12 then decide (t = .coef ∨ t = .ntt) else decide (t = .cmpr)

/-- The legal field values of every command (R76, R77, R84). -/
def Instr.wellFormed : Instr → Bool
  | .nop => true
  | .add _ _ _ => true
  | .sub _ _ _ => true
  | .smul _ _ _ => true
  | .pmul _ _ _ => true
  | .ntt _ _ => true
  | .intt _ _ => true
  | .sampu _ => true
  | .sampc _ eta _ => decide (eta.toNat = 2 ∨ eta.toNat = 3)
  | .cmpr _ _ d => decide (1 ≤ d.toNat ∧ d.toNat ≤ 11)
  | .dcmp _ _ d => decide (1 ≤ d.toNat ∧ d.toNat ≤ 11)
  | .enc _ d _ => decide (1 ≤ d.toNat ∧ d.toNat ≤ 12)
  | .dec _ d t _ => decide (1 ≤ d.toNat ∧ d.toNat ≤ 12) && decTagLegal d.toNat t

end Sys2Proof
end

