-- ==== Sys2Proof/Decode.lean ====
section
/-! DEFINITION. The command decoder of spec/30_encoding.md R86, total on all 2^32 words, and after it the encoder,
written from the format tables of R73. -/

namespace Sys2Proof

/-- The `len` bits of `w` from bit `lo` up (R8). -/
def field (w : Word) (lo len : Nat) : BitVec len := w.extractLsb' lo len

/-- A 4-bit register field from bit `lo` up (R74). -/
def regField (w : Word) (lo : Nat) : Reg := (field w lo 4).toFin

/-- The 2-bit code of a tag (spec/10_state.md R14). -/
def Tag.code : Tag → BitVec 2
  | .empty => 0
  | .coef => 1
  | .ntt => 2
  | .cmpr => 3

/-- The tag of a 2-bit code (spec/10_state.md R14). -/
def Tag.ofCode (b : BitVec 2) : Tag :=
  match b.toNat with
  | 0 => .empty
  | 1 => .coef
  | 2 => .ntt
  | _ => .cmpr

/-- Why a word is not a command: the two errors decoding can raise (R82 to R84). -/
inductive DecodeError where
  /-- OP in 13..31 (R82). -/
  | illegalOpcode
  /-- A reserved bit set (R83) or an illegal field value (R84). -/
  | illegalField
deriving DecidableEq, Repr

/-- The reserved-zero mask of each defined opcode (R83). -/
def rzmask (op : Nat) : Word :=
  match op with
  | 0 => 0x07FFFFFF
  | 1 => 0x00007FFF
  | 2 => 0x00007FFF
  | 3 => 0x0007F000
  | 4 => 0x00007FFF
  | 5 => 0x0007FFFF
  | 6 => 0x0007FFFF
  | 7 => 0x007FFFFF
  | 8 => 0x007F0000
  | 9 => 0x00070FFF
  | 10 => 0x00070FFF
  | 11 => 0x007F0000
  | 12 => 0x007C0000
  | _ => 0

/-- The command a word's fields spell, by opcode (R73, R81), before any check; none for a reserved opcode. -/
def readFields (w : Word) : Option Instr :=
  let rd := regField w 23
  let ra := regField w 19
  let rb := regField w 15
  match (field w 27 5).toNat with
  | 0 => some .nop
  | 1 => some (.add rd ra rb)
  | 2 => some (.sub rd ra rb)
  | 3 => some (.smul rd ra (field w 0 12))
  | 4 => some (.pmul rd ra rb)
  | 5 => some (.ntt rd ra)
  | 6 => some (.intt rd ra)
  | 7 => some (.sampu rd)
  | 8 => some (.sampc rd (field w 12 4) (field w 0 12))
  | 9 => some (.cmpr rd ra (field w 12 4))
  | 10 => some (.dcmp rd ra (field w 12 4))
  | 11 => some (.enc rd (field w 12 4) (field w 0 12))
  | 12 => some (.dec rd (field w 12 4) (Tag.ofCode (field w 16 2)) (field w 0 12))
  | _ => none

/-- Decode (R86): the opcode first, then the reserved bits, then the field values. -/
def decode (w : Word) : Except DecodeError Instr :=
  match readFields w with
  | none => .error .illegalOpcode
  | some i =>
    if w &&& rzmask (field w 27 5).toNat ≠ 0 then .error .illegalField
    else if i.wellFormed then .ok i
    else .error .illegalField

/-- The instruction the decoder reads from the low `nbits` bits of `w`, every bit above them 0; a command is
one word (R71), so there is no byte order to lay out. -/
def decodeTableWord (nbits w : Nat) : Option Instr :=
  match decode (BitVec.ofNat 32 (w % 2 ^ nbits)) with
  | .ok i => some i
  | .error _ => none

/-- The OP number of a command (R81). -/
def Instr.opcode : Instr → BitVec 5
  | .nop => 0
  | .add _ _ _ => 1
  | .sub _ _ _ => 2
  | .smul _ _ _ => 3
  | .pmul _ _ _ => 4
  | .ntt _ _ => 5
  | .intt _ _ => 6
  | .sampu _ => 7
  | .sampc _ _ _ => 8
  | .cmpr _ _ _ => 9
  | .dcmp _ _ _ => 10
  | .enc _ _ _ => 11
  | .dec _ _ _ _ => 12

/-- A register number as its 4-bit field (R74). -/
def regBits (r : Reg) : BitVec 4 := BitVec.ofFin r

/-- A field laid from bit `lo` up of an otherwise zero word (R8). -/
def atBit {n : Nat} (v : BitVec n) (lo : Nat) : Word := v.setWidth 32 <<< lo

/-- Format R: OP, RD, RA, RB; bits 14:0 zero (R73). -/
def formatR (op : BitVec 5) (rd ra rb : Reg) : Word :=
  atBit op 27 ||| atBit (regBits rd) 23 ||| atBit (regBits ra) 19 ||| atBit (regBits rb) 15

/-- Format U: OP, RD, RA; bits 18:0 zero (R73). -/
def formatU (op : BitVec 5) (rd ra : Reg) : Word :=
  atBit op 27 ||| atBit (regBits rd) 23 ||| atBit (regBits ra) 19

/-- Format Z: OP, RD; bits 22:0 zero (R73). -/
def formatZ (op : BitVec 5) (rd : Reg) : Word :=
  atBit op 27 ||| atBit (regBits rd) 23

/-- Format S: OP, RD, RA, IMM12; bits 18:12 zero (R73). -/
def formatS (op : BitVec 5) (rd ra : Reg) (imm : BitVec 12) : Word :=
  atBit op 27 ||| atBit (regBits rd) 23 ||| atBit (regBits ra) 19 ||| atBit imm 0

/-- Format C: OP, RD, RA, D; bits 18:16 and 11:0 zero (R73). -/
def formatC (op : BitVec 5) (rd ra : Reg) (d : BitVec 4) : Word :=
  atBit op 27 ||| atBit (regBits rd) 23 ||| atBit (regBits ra) 19 ||| atBit d 12

/-- Format M: OP, P, T, D, ADDR; bits 22:18 zero (R73). -/
def formatM (op : BitVec 5) (p : Reg) (t : BitVec 2) (d : BitVec 4) (addr : BufAddr) : Word :=
  atBit op 27 ||| atBit (regBits p) 23 ||| atBit t 16 ||| atBit d 12 ||| atBit addr 0

/-- The word of a command (R73, R81). ENC and SAMPC have T = 0 (R77). -/
def encode (i : Instr) : Word :=
  match i with
  | .nop => atBit i.opcode 27
  | .add rd ra rb => formatR i.opcode rd ra rb
  | .sub rd ra rb => formatR i.opcode rd ra rb
  | .smul rd ra imm => formatS i.opcode rd ra imm
  | .pmul rd ra rb => formatR i.opcode rd ra rb
  | .ntt rd ra => formatU i.opcode rd ra
  | .intt rd ra => formatU i.opcode rd ra
  | .sampu rd => formatZ i.opcode rd
  | .sampc p eta addr => formatM i.opcode p 0 eta addr
  | .cmpr rd ra d => formatC i.opcode rd ra d
  | .dcmp rd ra d => formatC i.opcode rd ra d
  | .enc p d addr => formatM i.opcode p 0 d addr
  | .dec p d t addr => formatM i.opcode p t.code d addr

end Sys2Proof
end

