-- ==== Sys2Proof/Config.lean ====
section
/-! DEFINITION. What is fixed for the machine: the parameters of spec/00_scope.md R5, and the one open value
a program can see, ID_VALUE (R6), as a constant with no body. -/

namespace Sys2Proof.Config

/-- Q, the modulus (R5). -/
abbrev modulus : Nat := 3329

/-- ZETA, the primitive 256th root of unity modulo Q (R5, R114). -/
abbrev zeta : Nat := 17

/-- INV128, the inverse of 128 modulo Q (R5, R110). -/
abbrev inv128 : Nat := 3303

/-- BUFSIZE, the bytes of BUF (R5, R20). -/
abbrev bufSize : Nat := 4096

/-- CQ_DEPTH, the command words the queue can hold (R5, R22). -/
abbrev queueDepth : Nat := 16

/-- ID_VALUE, the open 32-bit value of the ID register (R6, R27; log 8). Nothing can be proved about which
value it is. -/
opaque idValue : Word

end Sys2Proof.Config
end

