-- ==== Sys2Proof/Machine/State.lean ====
section
/-! DEFINITION. The machine's state as plain data, the reasons a step can stop, and the state after power-on
reset (spec/10_state.md, spec/70_reset_and_hazards.md R171). INVENTORY.md lists every piece with its rule. -/

namespace Sys2Proof.Machine

/-- The content of one polynomial register (spec/10_state.md R13 to R16): tag, cw and coefficients as one tagged
sum. An EMPTY register holds no coefficients ("A model must not give an EMPTY register any value", R18; log 6);
cw exists only under the tag CMPR, and is 0 otherwise (R15). -/
inductive Poly where
  /-- EMPTY, 0b00. -/
  | empty
  /-- COEF, 0b01: coefficient domain. -/
  | coef (c : Coeffs)
  /-- NTT, 0b10: NTT domain. -/
  | ntt (c : Coeffs)
  /-- CMPR, 0b11: compressed to `cw` bits. -/
  | cmpr (cw : BitVec 4) (c : Coeffs)
deriving DecidableEq, Repr

/-- The engine's execution state (R24). -/
inductive Eng where
  /-- No command is executing. -/
  | idle
  /-- Command word `w` has passed Start and awaits its Complete. -/
  | exec (w : Word)
  /-- A SAMPU command `w` is executing: destination `rd`, accepted values `acc` in slot order. The count j of
  R24 is the length of `acc` (log 12). -/
  | sampling (rd : Reg) (acc : List Coeff) (w : Word)
deriving DecidableEq, Repr

/-- The recoverable errors (spec/60_exceptions.md R153, R156). -/
inductive ErrCode where
  /-- ERRCODE 1: OP in 13..31. -/
  | illegalOpcode
  /-- ERRCODE 2: a reserved bit set or an illegal field value. -/
  | illegalField
  /-- ERRCODE 3: a BUF range that passes 0xFFF. -/
  | malformedInput
  /-- ERRCODE 4: a CMD write to a full queue. -/
  | cqOverflow
deriving DecidableEq, Repr

/-- The fatal faults the engine reports (spec/60_exceptions.md R153, R159). -/
inductive FaultCause where
  /-- FCAUSE 1: a source register is EMPTY. -/
  | emptyOperand
  /-- FCAUSE 2: a source tag the command does not allow. -/
  | domainMismatch
  /-- FCAUSE 3: a CMPR source whose cw differs from the command's D. -/
  | widthMismatch
deriving DecidableEq, Repr

/-- One turn of one agent (spec/00_scope.md R11; log 1). -/
inductive Turn where
  /-- The engine's turn: its enabled Start or Complete step, if it has one. -/
  | engine
  /-- A host read of the register port (spec/20_memory.md R48). -/
  | hostRead (off : Offset)
  /-- A host write of the register port (R48). -/
  | hostWrite (off : Offset) (v : Word)
  /-- The external XOF core answers with a chunk (R59). -/
  | xof (chunk : Chunk)
  /-- The reset input `rst`, or power-up (spec/70_reset_and_hazards.md R170). -/
  | powerOn
deriving DecidableEq, Repr

/-- Why a step stops. The errors and faults the engine reports are next states, not these. -/
inductive Fault where
  /-- The model fault UNINIT_READ (spec/60_exceptions.md R165): raised by the Complete of DEC and SAMPC and by a
  host window read that reach a BUF byte nothing has written since power-on. Safe: the hardware returns some
  byte and goes on (log 7). -/
  | uninitRead
  /-- The model fault BUF_RACE (R165): raised by a host window access that conflicts with the footprint of a
  queued or executing command. Safe: the hardware gives one of the two values (log 5). -/
  | bufRace
  /-- Raised by the Complete of a command whose source register is EMPTY, in a state no run reaches: Start has
  refused the command with EMPTY_OPERAND, and an EMPTY register has no value (spec/10_state.md R18). Safe
  (log 6). -/
  | emptyRead
  /-- Raised by the Complete of an ENC whose range passes 0xFFF, in a state no run reaches: Start has refused the
  command with MALFORMED_INPUT. BUF has no such byte. Safe (log 14). -/
  | noSuchByte
  /-- Raised by an engine turn with `eng = EXEC(w)` for a word `w` that is no command, in a state no run
  reaches: only a word that passed decoding enters EXEC. Safe (log 14). -/
  | notACommand
deriving DecidableEq, Repr

/-- Refusals. No meaning of this model refuses. -/
inductive Refusal where
  /-- An arm of exec that has no meaning yet; raised by no arm now. Safe. -/
  | notModelled (mnemonic : String)
deriving DecidableEq, Repr

/-- The machine's state. -/
structure State where
  /-- P0 to P15 (spec/10_state.md R13). -/
  p : Vector Poly 16
  /-- BUF (R20) as (address, byte) cells, addresses strictly rising. A byte is written (R21) exactly when it is
  listed; an unlisted byte has no value (log 7). -/
  buf : List Host.Cell
  /-- The command queue (R22), head first; the executing command is its head. QCOUNT is its length (R23). -/
  queue : List Word
  /-- The engine execution state (R24); BUSY and xreq are views of it (R25, R32). -/
  eng : Eng
  /-- CTRL.IE_DONE (R28). -/
  ieDone : Bool
  /-- CTRL.IE_ERR (R28). -/
  ieErr : Bool
  /-- STATUS.DONE (R29). -/
  done : Bool
  /-- STATUS.ERR with ERRCODE (R29, R156): none is ERR = 0 with ERRCODE = 0. -/
  err : Option ErrCode
  /-- STATUS.FAULT with FCAUSE (R29, R159): none is FAULT = 0 with FCAUSE = 0. -/
  flt : Option FaultCause
  /-- STATUS.RNG (R29, R140). -/
  rng : Bool
  /-- STATUS.XSPUR (R29, R36). -/
  xspur : Bool
  /-- XCNT (R39). -/
  xcnt : Word
  /-- CMDCNT (R42). -/
  cmdcnt : Word
  /-- ERRINFO (R43). -/
  errinfo : Word
  /-- The XOF port's inputs (spec/20_memory.md R59): `some c` is xof_valid = 1 with xof_data = c (log 9). -/
  xofIn : Option Chunk
  /-- The value the latest host read returned, none before the first: the model's own field (log 3). -/
  answer : Option Word
  /-- The turns the agents take next; an empty schedule gives the engine every turn: the model's own field
  (log 1). -/
  schedule : List Turn
deriving DecidableEq, Repr

/-- The machine right after power-on reset (spec/70_reset_and_hazards.md R171, power-on column). `xofIn`,
`answer` and `schedule` are DESIGN CHOICE (log 1, log 3, log 9). -/
def State.reset : State where
  p := Vector.replicate 16 .empty
  buf := []
  queue := []
  eng := .idle
  ieDone := false
  ieErr := false
  done := false
  err := none
  flt := none
  rng := false
  xspur := false
  xcnt := 0
  cmdcnt := 0
  errinfo := 0
  xofIn := none
  answer := none
  schedule := []

end Sys2Proof.Machine
end

