-- ==== Sys2Proof/Machine/Ops.lean ====
section
/-! DEFINITION. The named operations over the byte buffer, the registers and the queue; taking an exception and
returning from one; the two phases of a command; the two resets. -/

namespace Sys2Proof.Machine

/-! ### The byte buffer -/

/-- The byte at address `a`, none where nothing has written it (spec/10_state.md R21). -/
def Memory.read : List Host.Cell → Nat → Option Byte
  | [], _ => none
  | (b, v) :: m, a => if b = a then some v else Memory.read m a

/-- BUF[a] ← v, keeping the cells in rising order; the byte's written bit is set with it (R21). -/
def Memory.write : List Host.Cell → Nat → Byte → List Host.Cell
  | [], a, v => [(a, v)]
  | (b, u) :: m, a, v =>
    if a < b then (a, v) :: (b, u) :: m
    else if a = b then (a, v) :: m
    else (b, u) :: Memory.write m a v

/-- MemRead(a, n) (spec/00_scope.md R10): the `n` bytes from `a` up, none if some byte is unwritten. -/
def Memory.readBytes (m : List Host.Cell) (a : Nat) : Nat → Option (List Byte)
  | 0 => some []
  | n + 1 =>
    match Memory.read m a with
    | none => none
    | some v =>
      match Memory.readBytes m (a + 1) n with
      | none => none
      | some vs => some (v :: vs)

/-- MemWrite(a, n, s) (R10), n being the length of the sequence. -/
def Memory.writeBytes (m : List Host.Cell) (a : Nat) : List Byte → List Host.Cell
  | [] => m
  | v :: vs => Memory.writeBytes (Memory.write m a v) (a + 1) vs

/-- Every address of the cells is at least `lo`, they rise strictly, and each is an address of BUF. -/
def Memory.risesFrom : Nat → List Host.Cell → Bool
  | _, [] => true
  | lo, (a, _) :: m => decide (lo ≤ a ∧ a < Config.bufSize) && Memory.risesFrom (a + 1) m

/-- The canonical form of BUF: strictly rising addresses below 4096. No entry equals what an unlisted address
reads as, for an unlisted address has no value. -/
def Memory.wf (m : List Host.Cell) : Bool := Memory.risesFrom 0 m

/-! ### Polynomial registers -/

/-- The tag of a register (spec/10_state.md R14). -/
def Poly.tag : Poly → Tag
  | .empty => .empty
  | .coef _ => .coef
  | .ntt _ => .ntt
  | .cmpr _ _ => .cmpr

/-- The compression width of a register: 0 whenever the tag is not CMPR (R15). -/
def Poly.cw : Poly → BitVec 4
  | .cmpr w _ => w
  | _ => 0

/-- The coefficients of a register; an EMPTY register has none (R18). -/
def Poly.coeffs : Poly → Option Coeffs
  | .empty => none
  | .coef c => some c
  | .ntt c => some c
  | .cmpr _ c => some c

/-- The register content (tag, cw, c) of `P[r] <- (tag, cw, c)` (spec/00_scope.md R10). -/
def Poly.make (t : Tag) (cw : BitVec 4) (c : Coeffs) : Poly :=
  match t with
  | .empty => .empty
  | .coef => .coef c
  | .ntt => .ntt c
  | .cmpr => .cmpr cw c

/-- P[r] ← v: tag, cw and coefficients together (R10, R15). -/
def State.setP (s : State) (r : Reg) (v : Poly) : State := { s with p := s.p.set r v }

/-! ### The queue and the engine -/

/-- The head of the command queue: the next command, or the executing one (R22, R37). -/
def State.head (s : State) : Word := s.queue.headD 0

/-- `xreq`: 1 exactly when the engine is SAMPLING (R25). -/
def State.xreq (s : State) : Bool :=
  match s.eng with
  | .sampling _ _ _ => true
  | _ => false

/-- Start of a command other than SAMPU: `eng <- EXEC(w)`, w the head (spec/60_exceptions.md R160). -/
def beginExec (s : State) : State := { s with eng := .exec s.head }

/-- The Complete bookkeeping (R161): eng idle, the head removed, CMDCNT counted modulo 2^32, DONE set if the
queue is now empty. -/
def retire (s : State) : State :=
  { s with
    eng := .idle
    queue := s.queue.tail
    cmdcnt := s.cmdcnt + 1
    done := s.done || s.queue.tail.isEmpty }

/-- A chunk offered at the XOF port: xof_valid = 1 with xof_data = c (spec/20_memory.md R59). -/
def offerChunk (c : Chunk) (s : State) : State := { s with xofIn := some c }

/-- The state with `rest` as the turns still to come (log 1). -/
def withTurns (rest : List Turn) (s : State) : State := { s with schedule := rest }

/-! ### Exceptions -/

/-- An exceptional outcome the engine reports (spec/60_exceptions.md R149). -/
inductive Exc where
  /-- A recoverable error. -/
  | error (c : ErrCode)
  /-- A fatal fault. -/
  | fault (c : FaultCause)
deriving DecidableEq, Repr

/-- Recording an exception: ERR with ERRCODE, or FAULT with FCAUSE, and ERRINFO ← w (R155, R157, R158). -/
def recordExc (e : Exc) (w : Word) (s : State) : State :=
  match e with
  | .error c => { s with err := some c, errinfo := w }
  | .fault c => { s with flt := some c, errinfo := w }

/-- Taking an exception at a Start step (R155, R158): the head command is recorded and removed from the queue;
eng stays IDLE, and nothing else changes. -/
def takeExc (e : Exc) (s : State) : State :=
  { recordExc e s.head s with queue := s.queue.tail }

/-- Returning from an error: the host's clear of ERR (spec/10_state.md R31, R34). ERR and ERRCODE clear, every
command that has not started is discarded, and ERRINFO keeps its value. -/
def clearErr (s : State) : State :=
  { s with
    err := none
    queue := if s.eng = .idle then [] else s.queue.take 1 }

/-- Soft reset (spec/70_reset_and_hazards.md R169), the only host return from a fault: everything but BUF with
its written bits. -/
def softReset (s : State) : State :=
  { s with
    p := Vector.replicate 16 .empty
    queue := []
    eng := .idle
    ieDone := false
    ieErr := false
    done := false
    err := none
    flt := none
    rng := false
    xspur := false
    xcnt := 0
    cmdcnt := 0
    errinfo := 0 }

/-- Power-on reset (R170): every effect of a soft reset, and every BUF byte unwritten. -/
def powerOnReset (s : State) : State := { softReset s with buf := [] }

/-! ### The two phases of a command -/

/-- The exception of the first check that fails (R160); a check is a condition that must hold and the exception
raised where it does not. -/
def firstFailing : List (Bool × Exc) → Option Exc
  | [] => none
  | (ok, e) :: rest => if ok then firstFailing rest else some e

/-- The Start step of a command after decoding: the checks in order, then `begins` (R160). -/
def startStep (checks : List (Bool × Exc)) (begins : State → State) (s : State) :
    Host.Outcome State Fault Refusal :=
  match firstFailing checks with
  | some e => .next (takeExc e s)
  | none => .next (begins s)

/-- A command's own next step: its Start when the engine is idle, its Complete when the engine executes it
(spec/00_scope.md R11). While a SAMPU samples, no other command has a step (log 11). -/
def twoPhase (start complete : State → Host.Outcome State Fault Refusal) (s : State) :
    Host.Outcome State Fault Refusal :=
  match s.eng with
  | .idle => start s
  | .exec _ => complete s
  | .sampling _ _ _ => .next s

/-- Placing a command word at the head of an idle, unhalted engine's queue, so that the engine's very next
step is its Start (R38; log 10). -/
def placeCommand (w : Word) (s : State) : State :=
  { s with
    queue := w :: s.queue.tail
    eng := .idle
    err := none
    flt := none
    schedule := [] }

end Sys2Proof.Machine
end

