-- ==== Sys2Proof/Machine/Operands.lean ====
section
/-! DEFINITION. The operand forms of the commands (spec/30_encoding.md R80): source registers with their Start
checks, the BUF range of format M, and the footprints of the commands of the queue (spec/20_memory.md R65). -/

namespace Sys2Proof.Machine

/-- The bytes ENC and DEC move: 32·D (spec/20_memory.md R58). -/
def packedBytes (d : BitVec 4) : Nat := 32 * d.toNat

/-- The bytes SAMPC reads: 64·ETA (R58). -/
def cbdBytes (eta : BitVec 4) : Nat := 64 * eta.toNat

/-! ### What a Start reads of the registers -/

/-- The tag and the cw of a register: all that a Start reads of it (spec/60_exceptions.md R160). -/
structure RegKind where
  tag : Tag
  cw : BitVec 4
deriving DecidableEq, Repr

/-- The tag and cw of a register content. -/
def Poly.kind (v : Poly) : RegKind := ⟨v.tag, v.cw⟩

/-- The tags and cw values of the sixteen registers. -/
def State.kinds (s : State) : Reg → RegKind := fun r => s.p[r].kind

/-- The kinds after a write that leaves register `r` with the kind `v`. -/
def setKind (r : Reg) (v : RegKind) (k : Reg → RegKind) : Reg → RegKind := fun q => if q = r then v else k q

/-- The kinds after command `i` has completed (the tags written of spec/10_state.md R17; R15 for cw), where `k` holds
the kinds its Start saw. -/
def kindsAfter (i : Instr) (k : Reg → RegKind) : Reg → RegKind :=
  match i with
  | .nop => k
  | .add rd ra _ => setKind rd ⟨(k ra).tag, 0⟩ k
  | .sub rd ra _ => setKind rd ⟨(k ra).tag, 0⟩ k
  | .smul rd ra _ => setKind rd ⟨(k ra).tag, 0⟩ k
  | .pmul rd _ _ => setKind rd ⟨.ntt, 0⟩ k
  | .ntt rd _ => setKind rd ⟨.ntt, 0⟩ k
  | .intt rd _ => setKind rd ⟨.coef, 0⟩ k
  | .sampu rd => setKind rd ⟨.ntt, 0⟩ k
  | .sampc p _ _ => setKind p ⟨.coef, 0⟩ k
  | .cmpr rd _ d => setKind rd ⟨.cmpr, d⟩ k
  | .dcmp rd _ _ => setKind rd ⟨.coef, 0⟩ k
  | .enc _ _ _ => k
  | .dec p d t _ => setKind p ⟨t, if t = .cmpr then d else 0⟩ k

/-! ### Start checks, in the classes of spec/60_exceptions.md R160 -/

/-- The BUF range must not pass 0xFFF, else MALFORMED_INPUT. -/
def rangeCheck (addr : BufAddr) (n : Nat) : Bool × Exc :=
  (decide (addr.toNat + n ≤ Config.bufSize), .error .malformedInput)

/-- A source register must not be EMPTY, else EMPTY_OPERAND. -/
def heldCheck (k : Reg → RegKind) (r : Reg) : Bool × Exc :=
  (decide ((k r).tag ≠ .empty), .fault .emptyOperand)

/-- The source tags must be allowed (R159), else DOMAIN_MISMATCH. -/
def domainCheck (allowed : Bool) : Bool × Exc := (allowed, .fault .domainMismatch)

/-- A CMPR source's width must be the command's D, else WIDTH_MISMATCH. -/
def widthCheck (k : Reg → RegKind) (r : Reg) (d : BitVec 4) : Bool × Exc :=
  (decide ((k r).cw = d), .fault .widthMismatch)

/-- COEF or NTT: an uncompressed tag (R159). -/
def uncompressed (t : Tag) : Bool := decide (t = .coef ∨ t = .ntt)

/-- The Start checks of each command after decoding, in check order (spec/60_exceptions.md R154, R160), with the
source tags of R159; `k` holds the registers' tags and cw values. ENC with D = 12 takes COEF or NTT, with D < 12 CMPR
with cw = D. -/
def startChecks (i : Instr) (k : Reg → RegKind) : List (Bool × Exc) :=
  match i with
  | .nop => []
  | .add _ ra rb | .sub _ ra rb =>
    [heldCheck k ra, heldCheck k rb,
      domainCheck (uncompressed (k ra).tag && decide ((k rb).tag = (k ra).tag))]
  | .smul _ ra _ => [heldCheck k ra, domainCheck (uncompressed (k ra).tag)]
  | .pmul _ ra rb =>
    [heldCheck k ra, heldCheck k rb, domainCheck (decide ((k ra).tag = .ntt ∧ (k rb).tag = .ntt))]
  | .ntt _ ra => [heldCheck k ra, domainCheck (decide ((k ra).tag = .coef))]
  | .intt _ ra => [heldCheck k ra, domainCheck (decide ((k ra).tag = .ntt))]
  | .sampu _ => []
  | .sampc _ eta addr => [rangeCheck addr (cbdBytes eta)]
  | .cmpr _ ra _ => [heldCheck k ra, domainCheck (decide ((k ra).tag = .coef))]
  | .dcmp _ ra d =>
    [heldCheck k ra, domainCheck (decide ((k ra).tag = .cmpr)), widthCheck k ra d]
  | .enc p d addr =>
    if d.toNat = 12 then
      [rangeCheck addr (packedBytes d), heldCheck k p, domainCheck (uncompressed (k p).tag)]
    else
      [rangeCheck addr (packedBytes d), heldCheck k p, domainCheck (decide ((k p).tag = .cmpr)),
        widthCheck k p d]
  | .dec _ d _ addr => [rangeCheck addr (packedBytes d)]

/-- The Start step of a command other than SAMPU: its checks, then EXEC (R160). -/
def startCommand (i : Instr) (s : State) : Host.Outcome State Fault Refusal :=
  startStep (startChecks i s.kinds) beginExec s

/-! ### Reading operands at Complete -/

/-- The Complete of a command with the source register `r`: it gets the coefficients. An EMPTY source has none
(spec/10_state.md R18); no run reaches that (log 6). -/
def withSource (s : State) (r : Reg) (complete : Coeffs → Host.Outcome State Fault Refusal) :
    Host.Outcome State Fault Refusal :=
  match s.p[r].coeffs with
  | some c => complete c
  | none => .fault .emptyRead

/-- The Complete of a command that reads `n` bytes of BUF from `addr`: it gets them in increasing address order;
an unwritten byte is the model fault UNINIT_READ (R21; spec/60_exceptions.md R165). -/
def withBytes (s : State) (addr : BufAddr) (n : Nat)
    (complete : List Byte → Host.Outcome State Fault Refusal) : Host.Outcome State Fault Refusal :=
  match Memory.readBytes s.buf addr.toNat n with
  | some bs => complete bs
  | none => .fault .uninitRead

/-! ### Footprints -/

/-- The byte range an ENC, DEC or SAMPC command reaches, and whether it writes it (spec/20_memory.md R65). -/
structure Footprint where
  lo : Nat
  size : Nat
  writes : Bool
deriving DecidableEq, Repr

/-- The footprint of a command word, unless its Start is refused whatever the registers hold: a word that does not
decode and a range that passes 0xFFF have none (R65). -/
def footprint (w : Word) : Option Footprint :=
  let inBuf (f : Footprint) : Option Footprint :=
    if f.lo + f.size ≤ Config.bufSize then some f else none
  match decode w with
  | .ok (.enc _ d addr) => inBuf ⟨addr.toNat, packedBytes d, true⟩
  | .ok (.dec _ d _ addr) => inBuf ⟨addr.toNat, packedBytes d, false⟩
  | .ok (.sampc _ eta addr) => inBuf ⟨addr.toNat, cbdBytes eta, false⟩
  | _ => none

/-- The footprints of commands that have no Start to come, and so are not refused at one (R65; log 5). -/
def heldFootprints (ws : List Word) : List Footprint := ws.filterMap footprint

/-- The footprints of the commands `ws` that start one after the other on registers of the kinds `k`. The first that
its Start refuses has none, for a Start reads only the word and the kinds (R151, R160) and the commands ahead fix the
kinds; those behind it have no Start (R155, R158). -/
def footprintsAhead (k : Reg → RegKind) : List Word → List Footprint
  | [] => []
  | w :: ws =>
    match decode w with
    | .error _ => heldFootprints ws
    | .ok i =>
      match firstFailing (startChecks i k) with
      | some _ => heldFootprints ws
      | none => (footprint w).toList ++ footprintsAhead (kindsAfter i k) ws

/-- The footprints of the commands `ws` that have not started, on registers of the kinds `k` once the executing command
has completed. Under ERR or FAULT they have no Start (spec/10_state.md R38). -/
def waitingFootprints (s : State) (k : Reg → RegKind) (ws : List Word) : List Footprint :=
  if s.err.isSome || s.flt.isSome then heldFootprints ws else footprintsAhead k ws

/-- The kinds after the command of the word `w` has completed. -/
def kindsAfterWord (w : Word) (k : Reg → RegKind) : Reg → RegKind :=
  match decode w with
  | .ok i => kindsAfter i k
  | .error _ => k

/-- The footprints of the queue's commands: that of the executing command, which is the head and has passed its Start,
and those of the waiting ones (R65; log 5). -/
def footprints (s : State) : List Footprint :=
  if s.eng = .idle then waitingFootprints s s.kinds s.queue
  else
    match s.queue with
    | [] => []
    | w :: ws => (footprint w).toList ++ waitingFootprints s (kindsAfterWord w s.kinds) ws

/-- A host window access to the four bytes from `a` up conflicts with a queued or executing command (R65): it
touches a byte of the footprint, and one of the two writes. -/
def conflicts (s : State) (a : Nat) (hostWrites : Bool) : Bool :=
  (footprints s).any fun f => (hostWrites || f.writes) && decide (a < f.lo + f.size ∧ f.lo < a + 4)

end Sys2Proof.Machine
end

