-- ==== Sys2Proof/Machine/Ring.lean ====
section
/-! DEFINITION. Arithmetic modulo Q on coefficients, and the two constant tables (spec/10_state.md R26). Every
operation is on exact integers and narrows once, at the end, by the floor modulus (spec/40_ring_arith.md R91). -/

namespace Sys2Proof.Machine

/-- A natural number as a 12-bit coefficient. -/
def toCoeff (n : Nat) : Coeff := BitVec.ofNat 12 n

/-- Coefficient i of a polynomial as a natural number; only 0..255 are asked for. -/
def coeffAt (f : Coeffs) (i : Nat) : Nat := (f[i]?.getD 0).toNat

/-- The polynomial whose coefficient i is the natural number `f i`. -/
def coeffsOfFn (f : Nat → Nat) : Coeffs := Vector.ofFn fun i => toCoeff (f i.val)

/-- The 256 coefficients as a sequence of natural numbers, in index order. -/
def coeffNats (c : Coeffs) : List Nat := c.toList.map BitVec.toNat

/-- The polynomial of a sequence of 256 natural numbers, in index order. -/
def coeffsOfNats (l : List Nat) : Coeffs := coeffsOfFn fun i => l.getD i 0

/-- (a + b) mod Q (R94). -/
def addQ (a b : Nat) : Nat := (a + b) % Config.modulus

/-- (a − b) mod Q by the floor modulus, so in [0, Q) also for a < b (spec/00_scope.md R9; R95). -/
def subQ (a b : Nat) : Nat := (((a : Int) - (b : Int)) % (Config.modulus : Int)).toNat

/-- (a · b) mod Q (R96). -/
def mulQ (a b : Nat) : Nat := a * b % Config.modulus

/-- bitrev7(i): the 7-bit value whose bit b is bit 6 − b of i (spec/00_scope.md R9; spec/41_ntt.md R103). -/
def bitrev7 (i : Nat) : Nat :=
  ((List.range 7).map fun b => i / 2 ^ (6 - b) % 2 * 2 ^ b).sum

/-- ZETAS[k] = ZETA^bitrev7(k) mod Q (spec/10_state.md R26; the values are in spec/41_ntt.md R113). -/
def zetas (k : Nat) : Nat := Config.zeta ^ bitrev7 k % Config.modulus

/-- GAMMAS[i] = ZETA^(2·bitrev7(i)+1) mod Q (R26, R113). -/
def gammas (i : Nat) : Nat := Config.zeta ^ (2 * bitrev7 i + 1) % Config.modulus

end Sys2Proof.Machine
end

