-- ==== Sys2Proof/Machine/Arith.lean ====
section
/-! DEFINITION. NOP and the ring arithmetic commands ADD, SUB, SMUL and PMUL (spec/40_ring_arith.md). -/

namespace Sys2Proof.Machine

/-- Element-wise sum modulo Q (R94). -/
def addCoeffs (a b : Coeffs) : Coeffs := coeffsOfFn fun i => addQ (coeffAt a i) (coeffAt b i)

/-- Element-wise difference modulo Q (R95). -/
def subCoeffs (a b : Coeffs) : Coeffs := coeffsOfFn fun i => subQ (coeffAt a i) (coeffAt b i)

/-- Every coefficient times the scalar `n`, modulo Q (R96). -/
def scaleCoeffs (a : Coeffs) (n : Nat) : Coeffs := coeffsOfFn fun i => mulQ (coeffAt a i) n

/-- The NTT-domain product (R97): pair i, the coefficients 2i and 2i+1, is multiplied with GAMMAS[i]. -/
def mulPairs (a b : Coeffs) : Coeffs :=
  coeffsOfFn fun n =>
    let i := n / 2
    let a0 := coeffAt a (2 * i)
    let a1 := coeffAt a (2 * i + 1)
    let b0 := coeffAt b (2 * i)
    let b1 := coeffAt b (2 * i + 1)
    if n % 2 = 0 then (a0 * b0 + gammas i * a1 * b1) % Config.modulus
    else (a0 * b1 + a1 * b0) % Config.modulus

/-- The Complete shared by the commands of two sources: `P[rd] <- (t, 0, f a b)`. -/
def completeBinary (rd ra rb : Reg) (t : Tag) (f : Coeffs → Coeffs → Coeffs) (s : State) :
    Host.Outcome State Fault Refusal :=
  withSource s ra fun a => withSource s rb fun b => .next (retire (s.setP rd (Poly.make t 0 (f a b))))

/-- NOP (R93): nothing but the two steps of every command. -/
def execNop (s : State) : Host.Outcome State Fault Refusal :=
  twoPhase (startCommand .nop) (fun s => .next (retire s)) s

/-- ADD (R94): sum modulo Q of two registers of one uncompressed domain, with the tag of RA. -/
def execAdd (rd ra rb : Reg) (s : State) : Host.Outcome State Fault Refusal :=
  twoPhase (startCommand (.add rd ra rb)) (completeBinary rd ra rb s.p[ra].tag addCoeffs) s

/-- SUB (R95): difference modulo Q, RA the minuend, with the tag of RA. -/
def execSub (rd ra rb : Reg) (s : State) : Host.Outcome State Fault Refusal :=
  twoPhase (startCommand (.sub rd ra rb)) (completeBinary rd ra rb s.p[ra].tag subCoeffs) s

/-- SMUL (R96): every coefficient times the zero-extended immediate, with the tag of RA. -/
def execSmul (rd ra : Reg) (imm : BitVec 12) (s : State) : Host.Outcome State Fault Refusal :=
  twoPhase (startCommand (.smul rd ra imm))
    (fun s => withSource s ra fun a =>
      .next (retire (s.setP rd (Poly.make s.p[ra].tag 0 (scaleCoeffs a imm.toNat))))) s

/-- PMUL (R97): the pointwise product of two NTT-domain registers. -/
def execPmul (rd ra rb : Reg) (s : State) : Host.Outcome State Fault Refusal :=
  twoPhase (startCommand (.pmul rd ra rb)) (completeBinary rd ra rb .ntt mulPairs) s

end Sys2Proof.Machine
end

