-- ==== Sys2Proof/Machine/Compress.lean ====
section
/-! DEFINITION. The compression commands CMPR and DCMP (spec/43_compress.md). -/

namespace Sys2Proof.Machine

/-- compress_D (R129, R130): `(((x << D) + 1664) div 3329) mod 2^D`. -/
def compress (d x : Nat) : Nat := (x * 2 ^ d + Config.modulus / 2) / Config.modulus % 2 ^ d

/-- decompress_D (R131): `(y * 3329 + 2^(D-1)) >> D`. -/
def decompress (d y : Nat) : Nat := (y * Config.modulus + 2 ^ (d - 1)) / 2 ^ d

/-- Every coefficient compressed to `d` bits. -/
def compressCoeffs (d : Nat) (c : Coeffs) : Coeffs := coeffsOfFn fun i => compress d (coeffAt c i)

/-- Every coefficient decompressed from `d` bits. -/
def decompressCoeffs (d : Nat) (c : Coeffs) : Coeffs := coeffsOfFn fun i => decompress d (coeffAt c i)

/-- CMPR (R129): a COEF source to a CMPR result with cw = D. -/
def execCmpr (rd ra : Reg) (d : BitVec 4) (s : State) : Host.Outcome State Fault Refusal :=
  twoPhase (startCommand (.cmpr rd ra d))
    (fun s => withSource s ra fun a => .next (retire (s.setP rd (.cmpr d (compressCoeffs d.toNat a))))) s

/-- DCMP (R131): a CMPR source with cw = D to a COEF result. -/
def execDcmp (rd ra : Reg) (d : BitVec 4) (s : State) : Host.Outcome State Fault Refusal :=
  twoPhase (startCommand (.dcmp rd ra d))
    (fun s => withSource s ra fun a => .next (retire (s.setP rd (.coef (decompressCoeffs d.toNat a))))) s

end Sys2Proof.Machine
end

