-- ==== Sys2Proof/Machine/Ntt.lean ====
section
/-! DEFINITION. The forward and inverse NTT, the commands NTT and INTT (spec/41_ntt.md).

A level of the network is run group by group in increasing start index, the group counter k moving once per
group, as the pseudocode of R106 and R108 does. The butterflies of one group touch disjoint pairs (j, j+len), so
a group is computed on its two halves at once (log 13). -/

namespace Sys2Proof.Machine

/-- The forward butterflies of the groups of one level (R105, R106): `groups` groups remain, the first at the
front of `f`, and group counter k starts at `k` and rises. -/
def forwardLevel (len : Nat) : (groups : Nat) → (k : Nat) → List Nat → List Nat
  | 0, _, f => f
  | groups + 1, k, f =>
    let lo := f.take len
    let hi := (f.drop len).take len
    List.zipWith (fun x y => addQ x (mulQ (zetas k) y)) lo hi
      ++ List.zipWith (fun x y => subQ x (mulQ (zetas k) y)) lo hi
      ++ forwardLevel len groups (k + 1) (f.drop (2 * len))

/-- The levels of the given block lengths in turn (R106): a level of length len has 128 / len groups. -/
def forwardLevels : (lens : List Nat) → (k : Nat) → List Nat → List Nat
  | [], _, f => f
  | len :: lens, k, f => forwardLevels lens (k + 128 / len) (forwardLevel len (128 / len) k f)

/-- The forward transform of 256 values (R106): lengths 128 down to 2, k from 1 (R104). -/
def forwardNtt (f : List Nat) : List Nat := forwardLevels [128, 64, 32, 16, 8, 4, 2] 1 f

/-- The inverse butterflies of the groups of one level (R108, R109): k falls by one after each group. -/
def inverseLevel (len : Nat) : (groups : Nat) → (k : Nat) → List Nat → List Nat
  | 0, _, f => f
  | groups + 1, k, f =>
    let lo := f.take len
    let hi := (f.drop len).take len
    List.zipWith (fun x y => addQ x y) lo hi
      ++ List.zipWith (fun x y => mulQ (zetas k) (subQ y x)) lo hi
      ++ inverseLevel len groups (k - 1) (f.drop (2 * len))

/-- The levels of the given block lengths in turn (R108). -/
def inverseLevels : (lens : List Nat) → (k : Nat) → List Nat → List Nat
  | [], _, f => f
  | len :: lens, k, f => inverseLevels lens (k - 128 / len) (inverseLevel len (128 / len) k f)

/-- The inverse transform of 256 values (R108): lengths 2 up to 128, k from 127 (R107), and the final scaling by
128⁻¹ (R110). -/
def inverseNtt (f : List Nat) : List Nat :=
  (inverseLevels [2, 4, 8, 16, 32, 64, 128] 127 f).map fun x => mulQ x Config.inv128

/-- The forward transform of a polynomial. -/
def nttCoeffs (c : Coeffs) : Coeffs := coeffsOfNats (forwardNtt (coeffNats c))

/-- The inverse transform of a polynomial. -/
def inttCoeffs (c : Coeffs) : Coeffs := coeffsOfNats (inverseNtt (coeffNats c))

/-- NTT (R106): a COEF source to an NTT result. -/
def execNtt (rd ra : Reg) (s : State) : Host.Outcome State Fault Refusal :=
  twoPhase (startCommand (.ntt rd ra))
    (fun s => withSource s ra fun a => .next (retire (s.setP rd (.ntt (nttCoeffs a))))) s

/-- INTT (R108): an NTT source to a COEF result. -/
def execIntt (rd ra : Reg) (s : State) : Host.Outcome State Fault Refusal :=
  twoPhase (startCommand (.intt rd ra))
    (fun s => withSource s ra fun a => .next (retire (s.setP rd (.coef (inttCoeffs a))))) s

end Sys2Proof.Machine
end

