-- ==== Sys2Proof/Machine/Sampling.lean ====
section
/-! DEFINITION. The sampling commands SAMPU, with its Chunk step, and SAMPC (spec/42_sampling.md), and the
little-endian bit string of a byte sequence (spec/20_memory.md R60). -/

namespace Sys2Proof.Machine

/-! ### Uniform rejection sampling -/

/-- The low 12 bits of a chunk, d1 (R117). -/
def firstCandidate (c : Chunk) : Coeff := c.extractLsb' 0 12

/-- The next 12 bits of a chunk, d2 (R117). -/
def secondCandidate (c : Chunk) : Coeff := c.extractLsb' 12 12

/-- One candidate (R118): it fills the next slot iff a slot is left and it is below Q. -/
def accept (acc : List Coeff) (d : Coeff) : List Coeff :=
  if acc.length < 256 ∧ d.toNat < Config.modulus then acc ++ [d] else acc

/-- The polynomial of the accepted values, acc[i] being coefficient i (R118). -/
def coeffsOfSlots (acc : List Coeff) : Coeffs := coeffsOfNats (acc.map BitVec.toNat)

/-- SAMPU's Start (R116): the destination becomes EMPTY, XCNT 0, and the first chunk is requested. -/
def beginSampling (rd : Reg) (s : State) : State :=
  { s.setP rd .empty with xcnt := 0, eng := .sampling rd [] s.head }

/-- The Chunk step (R118): d1 before d2, values in slot order; the 256th accepted value completes the command,
and a d2 left over is dropped (R119). -/
def chunkStep (rd : Reg) (acc : List Coeff) (w : Word) (c : Chunk) (s : State) : State :=
  let acc := accept (accept acc (firstCandidate c)) (secondCandidate c)
  let s := { s with xcnt := s.xcnt + 1, xofIn := none }
  if acc.length = 256 then retire (s.setP rd (.ntt (coeffsOfSlots acc)))
  else { s with eng := .sampling rd acc w }

/-- SAMPU (R116, R118): its Start, which has no check but decoding, and while it samples the Chunk step for the
chunk at the XOF port; with no chunk there it waits, for no step is enabled (R120). -/
def execSampu (rd : Reg) (s : State) : Host.Outcome State Fault Refusal :=
  match s.eng with
  | .idle => startStep (startChecks (.sampu rd) s.kinds) (beginSampling rd) s
  | .sampling rd acc w =>
    match s.xofIn with
    | some c => .next (chunkStep rd acc w c s)
    | none => .next s
  | .exec _ => .next s

/-! ### Centered binomial sampling -/

/-- The bytes read as one little-endian integer: bit j of byte i is its bit 8i + j (spec/20_memory.md R60). -/
def bitString : List Byte → Nat
  | [] => 0
  | b :: bs => b.toNat + 2 ^ 8 * bitString bs

/-- The number of ones among the `n` stream bits from `lo` up. -/
def countOnes (stream lo : Nat) : (n : Nat) → Nat
  | 0 => 0
  | n + 1 => countOnes stream lo n + (stream.testBit (lo + n)).toNat

/-- The CBD polynomial of a bit stream (R122, R123): coefficient i is the ones of the first ETA bits of its
window less the ones of the next ETA bits, modulo Q. -/
def cbdCoeffs (eta : Nat) (stream : Nat) : Coeffs :=
  coeffsOfFn fun i =>
    subQ (countOnes stream (2 * i * eta) eta) (countOnes stream (2 * i * eta + eta) eta)

/-- SAMPC (R122): a COEF polynomial from 64·ETA bytes of BUF. -/
def execSampc (p : Reg) (eta : BitVec 4) (addr : BufAddr) (s : State) : Host.Outcome State Fault Refusal :=
  twoPhase (startCommand (.sampc p eta addr))
    (fun s => withBytes s addr (cbdBytes eta) fun bs =>
      .next (retire (s.setP p (.coef (cbdCoeffs eta.toNat (bitString bs)))))) s

end Sys2Proof.Machine
end

