-- ==== Sys2Proof/Machine/Serialize.lean ====
section
/-! DEFINITION. The serialization commands ENC and DEC (spec/44_serialize.md). The packing is computed on the
little-endian integer of R138, `Σ c[i]·2^(D·i)`, which that rule states to be the bit-wise packing (log 13). -/

namespace Sys2Proof.Machine

/-- The integer of a packed sequence (R138): each value's low `d` bits, the first value lowest. -/
def packBits (d : Nat) : List Nat → Nat
  | [] => 0
  | x :: xs => x % 2 ^ d + 2 ^ d * packBits d xs

/-- Value i of the packed integer: its stream bits D·i to D·i + D − 1 (R138, R139). -/
def unpackBits (d stream i : Nat) : Nat := stream / 2 ^ (d * i) % 2 ^ d

/-- The `n` bytes of a bit string: byte k is its bits 8k + 7 down to 8k (R137). -/
def streamBytes (stream : Nat) : (n : Nat) → List Byte
  | 0 => []
  | n + 1 => BitVec.ofNat 8 stream :: streamBytes (stream / 2 ^ 8) n

/-- byte_encode_D (R137): the 32·D bytes of a polynomial. -/
def encodeBytes (d : Nat) (c : Coeffs) : List Byte := streamBytes (packBits d (coeffNats c)) (32 * d)

/-- The 256 fields of D bits of a byte sequence, unreduced (R139). -/
def decodeFields (d : Nat) (bs : List Byte) : List Nat :=
  (List.range 256).map fun i => unpackBits d (bitString bs) i

/-- Some 12-bit field is at least Q (R140). -/
def someOutOfRange (fields : List Nat) : Bool := fields.any fun v => decide (Config.modulus ≤ v)

/-- DEC's result (R139): for D = 12 the fields modulo Q under the tag T and RNG set if some field was at least
Q; for D < 12 the fields as they are, under CMPR with cw = D. -/
def decodeInto (p : Reg) (d : BitVec 4) (t : Tag) (fields : List Nat) (s : State) : State :=
  if d.toNat = 12 then
    { s.setP p (Poly.make t 0 (coeffsOfNats (fields.map (· % Config.modulus)))) with
      rng := s.rng || someOutOfRange fields }
  else s.setP p (.cmpr d (coeffsOfNats fields))

/-- ENC (R137): packs one polynomial into 32·D bytes of BUF. The range was checked at Start; a Complete with a
range past 0xFFF is in a state no run reaches, and stops, for those bytes do not exist (log 14). -/
def execEnc (p : Reg) (d : BitVec 4) (addr : BufAddr) (s : State) : Host.Outcome State Fault Refusal :=
  twoPhase (startCommand (.enc p d addr))
    (fun s => withSource s p fun c =>
      if addr.toNat + packedBytes d ≤ Config.bufSize then
        .next (retire { s with buf := Memory.writeBytes s.buf addr.toNat (encodeBytes d.toNat c) })
      else .fault .noSuchByte) s

/-- DEC (R139): unpacks one polynomial from 32·D bytes of BUF. -/
def execDec (p : Reg) (d : BitVec 4) (t : Tag) (addr : BufAddr) (s : State) :
    Host.Outcome State Fault Refusal :=
  twoPhase (startCommand (.dec p d t addr))
    (fun s => withBytes s addr (packedBytes d) fun bs =>
      .next (retire (decodeInto p d t (decodeFields d.toNat bs) s))) s

end Sys2Proof.Machine
end

