-- ==== Sys2Proof/Machine/Dispatch.lean ====
section
/-! DEFINITION. One arm per command, each a call of its meaning. -/

namespace Sys2Proof.Machine

def exec (i : Instr) (s : State) : Host.Outcome State Fault Refusal :=
  match i with
  | .nop => Sys2Proof.Machine.execNop s
  | .add rd ra rb => Sys2Proof.Machine.execAdd rd ra rb s
  | .sub rd ra rb => Sys2Proof.Machine.execSub rd ra rb s
  | .smul rd ra imm => Sys2Proof.Machine.execSmul rd ra imm s
  | .pmul rd ra rb => Sys2Proof.Machine.execPmul rd ra rb s
  | .ntt rd ra => Sys2Proof.Machine.execNtt rd ra s
  | .intt rd ra => Sys2Proof.Machine.execIntt rd ra s
  | .sampu rd => Sys2Proof.Machine.execSampu rd s
  | .sampc p eta addr => Sys2Proof.Machine.execSampc p eta addr s
  | .cmpr rd ra d => Sys2Proof.Machine.execCmpr rd ra d s
  | .dcmp rd ra d => Sys2Proof.Machine.execDcmp rd ra d s
  | .enc p d addr => Sys2Proof.Machine.execEnc p d addr s
  | .dec p d t addr => Sys2Proof.Machine.execDec p d t addr s

end Sys2Proof.Machine
end

