-- ==== Sys2Proof/Machine/Flags.lean ====
section
/-! DEFINITION. The control and status registers as the host sees them (spec/10_state.md R27 to R44), and the
writes to CTRL and STATUS. -/

namespace Sys2Proof.Machine

/-- The code of an error in STATUS.ERRCODE (spec/60_exceptions.md R156). -/
def ErrCode.code : ErrCode → Nat
  | .illegalOpcode => 1
  | .illegalField => 2
  | .malformedInput => 3
  | .cqOverflow => 4

/-- The code of a fault in STATUS.FCAUSE (R159). -/
def FaultCause.code : FaultCause → Nat
  | .emptyOperand => 1
  | .domainMismatch => 2
  | .widthMismatch => 3

/-- QCOUNT: the commands accepted and neither completed nor discarded, the executing one included (R23). -/
def State.qcount (s : State) : Nat := s.queue.length

/-- BUSY: 1 exactly when eng is not IDLE (R24, R32). -/
def State.busy (s : State) : Bool := decide (s.eng ≠ .idle)

/-- The word read from STATUS (R29, R32). -/
def statusWord (s : State) : Word :=
  BitVec.ofNat 32
    (s.busy.toNat + s.done.toNat * 2 ^ 1 + s.err.isSome.toNat * 2 ^ 2 + s.flt.isSome.toNat * 2 ^ 3
      + s.rng.toNat * 2 ^ 4 + s.xspur.toNat * 2 ^ 5 + s.xreq.toNat * 2 ^ 6
      + (s.err.elim 0 ErrCode.code) * 2 ^ 8 + (s.flt.elim 0 FaultCause.code) * 2 ^ 12
      + (s.qcount % 2 ^ 5) * 2 ^ 16)

/-- The word read from CTRL: SRST and the reserved bits read 0 (R28). -/
def ctrlWord (s : State) : Word :=
  BitVec.ofNat 32 (s.ieDone.toNat * 2 ^ 1 + s.ieErr.toNat * 2 ^ 2)

/-- `n` values of `width` bits packed upwards from bit 0, value i at bits [width·i + width − 1 : width·i]. -/
def packFields (width : Nat) (value : Nat → Nat) : Nat → Nat
  | 0 => 0
  | n + 1 => packFields width value n + value n % 2 ^ width * 2 ^ (width * n)

/-- Register number `n` of P; only 0..15 are asked for. -/
def State.polyAt (s : State) (n : Nat) : Poly := s.p[n % 16]

/-- The word read from TAGS: P[i].tag at bits [2i+1:2i] (R40). -/
def tagsWord (s : State) : Word :=
  BitVec.ofNat 32 (packFields 2 (fun i => (s.polyAt i).tag.code.toNat) 16)

/-- The word read from CWLO: P[i].cw at bits [4i+3:4i] for i = 0..7 (R41). -/
def cwloWord (s : State) : Word :=
  BitVec.ofNat 32 (packFields 4 (fun i => (s.polyAt i).cw.toNat) 8)

/-- The word read from CWHI: P[8+i].cw at bits [4i+3:4i] for i = 0..7 (R41). -/
def cwhiWord (s : State) : Word :=
  BitVec.ofNat 32 (packFields 4 (fun i => (s.polyAt (8 + i)).cw.toNat) 8)

/-- The interrupt output (R44). -/
def State.irq (s : State) : Bool :=
  (s.ieDone && s.done) || (s.ieErr && (s.err.isSome || s.flt.isSome))

/-- The output xof_req, equal to STATUS.XREQ (spec/20_memory.md R59). -/
def State.xofReq (s : State) : Bool := s.xreq

/-- A host write of `v` to CTRL (R28): SRST performs the soft reset, which also clears the IE bits of the same
write. -/
def writeCtrl (v : Word) (s : State) : State :=
  if v.getLsbD 0 then softReset s
  else { s with ieDone := v.getLsbD 1, ieErr := v.getLsbD 2 }

/-- A host write of `v` to STATUS (R30): the W1C bits, and with v[2] while ERR = 1 the return from the error. -/
def writeStatus (v : Word) (s : State) : State :=
  let s := { s with
    done := s.done && !v.getLsbD 1
    rng := s.rng && !v.getLsbD 4
    xspur := s.xspur && !v.getLsbD 5 }
  if v.getLsbD 2 && s.err.isSome then clearErr s else s

end Sys2Proof.Machine
end

