-- ==== Sys2Proof/Machine/HostPort.lean ====
section
/-! DEFINITION. The agents outside the engine: the host's two transactions over the register map and the buffer
window (spec/20_memory.md R48 to R57), and the XOF producer's answer (R59; spec/10_state.md R36). -/

namespace Sys2Proof.Machine

/-- The aligned word offset of an access: off & 0x1FFC (R49). -/
def wordOffset (off : Offset) : Nat := off.toNat / 4 * 4

/-- The word of the buffer bytes a..a+3, little-endian (R57); none if one of them is unwritten. -/
def readWindow (m : List Host.Cell) (a : Nat) : Option Word :=
  match Memory.read m a, Memory.read m (a + 1), Memory.read m (a + 2), Memory.read m (a + 3) with
  | some b0, some b1, some b2, some b3 => some (b3 ++ b2 ++ b1 ++ b0)
  | _, _, _, _ => none

/-- The four bytes of a window write, little-endian (R57). -/
def writeWindow (m : List Host.Cell) (a : Nat) (v : Word) : List Host.Cell :=
  Memory.writeBytes m a
    [v.extractLsb' 0 8, v.extractLsb' 8 8, v.extractLsb' 16 8, v.extractLsb' 24 8]

/-- The value of the register at a word offset below 0x1000 (R54). Write-only registers and reserved offsets
read 0 (R52). -/
def readRegister (s : State) (o : Nat) : Word :=
  if o = 0x00 then Config.idValue
  else if o = 0x04 then ctrlWord s
  else if o = 0x08 then statusWord s
  else if o = 0x14 then s.xcnt
  else if o = 0x18 then tagsWord s
  else if o = 0x1C then cwloWord s
  else if o = 0x20 then cwhiWord s
  else if o = 0x24 then s.cmdcnt
  else if o = 0x28 then s.errinfo
  else 0

/-- A host read (R48): a register (R54), or the window (R56), where a race with a command is BUF_RACE (R66) and
an unwritten byte UNINIT_READ (R21; log 17 for their order). Nothing but the model's `answer` changes (R50). -/
def hostRead (off : Offset) (s : State) : Host.Outcome State Fault Refusal :=
  let o := wordOffset off
  if o < 0x1000 then .next { s with answer := some (readRegister s o) }
  else if conflicts s (o - 0x1000) false then .fault .bufRace
  else
    match readWindow s.buf (o - 0x1000) with
    | some v => .next { s with answer := some v }
    | none => .fault .uninitRead

/-- A host write of `w` to CMD (spec/10_state.md R35): ignored under ERR or FAULT, CQ_OVERFLOW on a full queue
(spec/60_exceptions.md R157), else appended. -/
def writeCmd (w : Word) (s : State) : State :=
  if s.flt.isSome || s.err.isSome then s
  else if Config.queueDepth ≤ s.qcount then recordExc (.error .cqOverflow) w s
  else { s with queue := s.queue ++ [w] }

/-- The XOF producer's answer while a chunk is requested (spec/42_sampling.md R118): the sampling command takes
its Chunk step. With no request the answer is not taken, and `unrequested` says what it does. -/
def answerXof (c : Chunk) (unrequested : State) (s : State) : Host.Outcome State Fault Refusal :=
  match s.eng with
  | .sampling rd _ _ => exec (.sampu rd) (offerChunk c s)
  | _ => .next unrequested

/-- A host write (R48): CTRL, STATUS, CMD, XDATA and the window act (R50); every other offset ignores the write
(R52). -/
def hostWrite (off : Offset) (v : Word) (s : State) : Host.Outcome State Fault Refusal :=
  let o := wordOffset off
  if o = 0x04 then .next (writeCtrl v s)
  else if o = 0x08 then .next (writeStatus v s)
  else if o = 0x0C then .next (writeCmd v s)
  else if o = 0x10 then answerXof (v.extractLsb' 0 24) { s with xspur := true } s
  else if o < 0x1000 then .next s
  else if conflicts s (o - 0x1000) true then .fault .bufRace
  else .next { s with buf := writeWindow s.buf (o - 0x1000) v }

end Sys2Proof.Machine
end

