-- ==== Sys2Proof/Machine/Turns.lean ====
section
/-! DEFINITION. The turns of the agents (spec/00_scope.md R11): the engine's own next step, and a scheduled turn
of any agent. -/

namespace Sys2Proof.Machine

/-- The error a word that is no command raises at Start (spec/30_encoding.md R86). -/
def decodeExc : DecodeError → Exc
  | .illegalOpcode => .error .illegalOpcode
  | .illegalField => .error .illegalField

/-- The engine may start its head command (spec/10_state.md R38). -/
def canStart (s : State) : Bool :=
  decide (s.eng = .idle) && !s.queue.isEmpty && s.err.isNone && s.flt.isNone

/-- The engine's turn. Idle: the Start of the head command, decoding first (spec/60_exceptions.md R160).
Executing: the Complete of its word (R161). Sampling: SAMPU's Chunk step if a chunk is offered. With no step
enabled the state is unchanged (log 2). -/
def engineTurn (s : State) : Host.Outcome State Fault Refusal :=
  match s.eng with
  | .idle =>
    if canStart s then
      match decode s.head with
      | .ok i => exec i s
      | .error e => .next (takeExc (decodeExc e) s)
    else .next s
  | .exec w =>
    match decode w with
    | .ok i => exec i s
    | .error _ => .fault .notACommand
  | .sampling rd _ _ => exec (.sampu rd) s

/-- One agent's turn. -/
def takeTurn (t : Turn) (s : State) : Host.Outcome State Fault Refusal :=
  match t with
  | .engine => engineTurn s
  | .hostRead off => hostRead off s
  | .hostWrite off v => hostWrite off v s
  | .xof c => answerXof c s s
  | .powerOn => .next (powerOnReset s)

/-- The next turn of the schedule; an empty schedule gives the engine the turn (log 1). -/
def nextTurn (s : State) : Host.Outcome State Fault Refusal :=
  match s.schedule with
  | [] => engineTurn s
  | t :: rest => takeTurn t (withTurns rest s)

end Sys2Proof.Machine
end

