-- ==== Sys2Proof/Machine/Step.lean ====
section
/-! DEFINITION. One step of the machine, and the placing of a command where the next step starts it. -/

namespace Sys2Proof.Machine

/-- One step: one turn of one agent (spec/00_scope.md R11, spec/20_memory.md R62). -/
def step : State → Host.Outcome State Fault Refusal := fun s => nextTurn s

/-- `s` with the command whose bits are the low `nbits` bits of `w` at the head of the queue of an idle engine
(log 10). -/
def State.withFetchWord (s : State) (nbits w : Nat) : State :=
  placeCommand (BitVec.ofNat 32 (w % 2 ^ nbits)) s

end Sys2Proof.Machine
end

