-- ==== Sys2Proof/Machine/NttLoop.lean ====
section
/-! DEFINITION. The pseudocode of spec/41_ntt.md R106 and R108 as the loops it is written in, one assignment at a
time. The machine runs forwardNtt and inverseNtt; a statement says that these loops compute the same. -/

namespace Sys2Proof.Machine

/-- One pass of the inner forward loop (R105): t, then f[j+len], then f[j]. -/
def loopForwardPair (z len : Nat) (f : List Nat) (j : Nat) : List Nat :=
  let t := mulQ z (f.getD (j + len) 0)
  let f := f.set (j + len) (subQ (f.getD j 0) t)
  f.set j (addQ (f.getD j 0) t)

/-- One pass of the inner inverse loop (R109): t, then f[j], then f[j+len], the difference taken on integers. -/
def loopInversePair (z len : Nat) (f : List Nat) (j : Nat) : List Nat :=
  let t := f.getD j 0
  let f := f.set j (addQ t (f.getD (j + len) 0))
  f.set (j + len) (((z : Int) * ((f.getD (j + len) 0 : Int) - (t : Int))) % (Config.modulus : Int)).toNat

/-- One group: `for j in start .. start+len-1`. -/
def loopGroup (pair : List Nat → Nat → List Nat) (start len : Nat) (f : List Nat) : List Nat :=
  (List.range len).foldl (fun f j => pair f (start + j)) f

/-- `for len in …: for start in (0, 2*len, …, 256 - 2*len)` of R106, with the counter k. -/
def loopForward (f : List Nat) : List Nat :=
  ([128, 64, 32, 16, 8, 4, 2].foldl
    (fun (fk : List Nat × Nat) len =>
      (List.range (128 / len)).foldl
        (fun fk g => (loopGroup (loopForwardPair (zetas fk.2) len) (2 * len * g) len fk.1, fk.2 + 1)) fk)
    (f, 1)).1

/-- The loops of R108, with the counter k falling from 127, and the final scaling. -/
def loopInverse (f : List Nat) : List Nat :=
  ([2, 4, 8, 16, 32, 64, 128].foldl
    (fun (fk : List Nat × Nat) len =>
      (List.range (128 / len)).foldl
        (fun fk g => (loopGroup (loopInversePair (zetas fk.2) len) (2 * len * g) len fk.1, fk.2 - 1)) fk)
    (f, 127)).1.map fun x => mulQ x Config.inv128

end Sys2Proof.Machine
end

