-- ==== Sys2Proof/Safety.lean ====
section
/-! DEFINITION. The terms the statements use: legal register contents, the invariant of every run, and the
quiescent, clean and entry states of spec/70_reset_and_hazards.md R178 and R179. -/

namespace Sys2Proof.Machine

/-- Every coefficient is below `n`. -/
def Below (n : Nat) (a : Coeffs) : Prop := ∀ i, i < 256 → coeffAt a i < n

/-- The register invariant (spec/10_state.md R15, R16). -/
def Poly.Valid : Poly → Prop
  | .empty => True
  | .coef a => Below Config.modulus a
  | .ntt a => Below Config.modulus a
  | .cmpr cw a => 1 ≤ cw.toNat ∧ cw.toNat ≤ 11 ∧ Below (2 ^ cw.toNat) a

/-- What holds of the executing command: it is the head of the queue (R22), it decodes, it passed its Start
checks and, for a SAMPU, its destination is EMPTY (spec/42_sampling.md R116) and fewer than 256 values, each below
Q, are accepted (R118). -/
def EngineValid (s : State) : Prop :=
  match s.eng with
  | .idle => True
  | .exec w =>
    s.queue.head? = some w ∧
      ∃ i, decode w = .ok i ∧ (∀ rd, i ≠ .sampu rd) ∧ firstFailing (startChecks i s.kinds) = none
  | .sampling rd acc w =>
    s.queue.head? = some w ∧ decode w = .ok (.sampu rd) ∧ s.p[rd] = .empty ∧ acc.length < 256 ∧
      ∀ d ∈ acc, d.toNat < Config.modulus

/-- The invariant of every run from reset. -/
structure State.Inv (s : State) : Prop where
  /-- Every register holds a legal content (R16). -/
  registers : ∀ r : Reg, s.p[r].Valid
  /-- BUF is in canonical form. -/
  buffer : Memory.wf s.buf = true
  /-- The queue holds at most 16 commands (R22, R23). -/
  queue : s.queue.length ≤ Config.queueDepth
  /-- ERR and FAULT are never both 1 (spec/60_exceptions.md R162). -/
  exclusive : s.err = none ∨ s.flt = none
  /-- The executing command is a command under way. -/
  engine : EngineValid s

/-- The engine has no enabled step (R178). -/
def quiescent (s : State) : Prop :=
  s.eng = .idle ∧ (s.qcount = 0 ∨ s.err.isSome ∨ s.flt.isSome)

/-- A turn in which the host reads or writes the port (spec/20_memory.md R48). -/
def Turn.isHostAccess : Turn → Bool
  | .hostRead _ => true
  | .hostWrite _ _ => true
  | .engine => false
  | .xof _ => false
  | .powerOn => false

/-- No access of the host is still to come: the state is after the host's last access (R178; log 1). -/
def afterLastAccess (s : State) : Prop := ∀ turn ∈ s.schedule, turn.isHostAccess = false

/-- A run ends in this state (R178): it is quiescent, after the host's last access. -/
def runEnds (s : State) : Prop := quiescent s ∧ afterLastAccess s

/-- A clean end (R178). A run that made a model fault has no state here: its last step answers a fault (log 4). -/
def cleanEnd (s : State) : Prop :=
  runEnds s ∧ s.err = none ∧ s.flt = none ∧ s.qcount = 0

/-- A run from `s` to `t`: steps of the agents, none of which stops (spec/00_scope.md R11). -/
inductive Run (s : State) : State → Prop where
  | refl : Run s s
  | turn {t u : State} (run : Run s t) (next : step t = .next u) : Run s u

/-- A run from the entry state `s` ends cleanly in `t`: what a claim about a program's result speaks of (R178). -/
def EndsCleanly (s t : State) : Prop := Run s t ∧ cleanEnd t

/-- The clean entry state, but for the registers and bytes a program names itself (R179). -/
def cleanEntry (s : State) : Prop :=
  s.eng = .idle ∧ s.xreq = false ∧ s.qcount = 0 ∧ s.err = none ∧ s.flt = none

/-- `t` is `s` after a command's Complete bookkeeping and nothing else besides registers, BUF and RNG
(spec/60_exceptions.md R161): the head removed, CMDCNT one more, DONE set if the queue is now empty. -/
structure Completed (s t : State) : Prop where
  eng : t.eng = .idle
  queue : t.queue = s.queue.tail
  cmdcnt : t.cmdcnt = s.cmdcnt + 1
  done : t.done = (s.done || s.queue.tail.isEmpty)
  ieDone : t.ieDone = s.ieDone
  ieErr : t.ieErr = s.ieErr
  err : t.err = s.err
  flt : t.flt = s.flt
  xspur : t.xspur = s.xspur
  errinfo : t.errinfo = s.errinfo
  answer : t.answer = s.answer
  schedule : t.schedule = s.schedule

/-- Every byte of BUF reads as before. -/
def SameBuf (s t : State) : Prop := ∀ a, Memory.read t.buf a = Memory.read s.buf a

/-- Every register but `rd` holds what it held. -/
def OnlyWrites (rd : Reg) (s t : State) : Prop := ∀ r : Reg, r ≠ rd → t.p[r] = s.p[r]

/-- A command with a register destination and no other result has completed: `rd` holds `v`, and nothing but the
bookkeeping of R161 has changed besides. -/
structure WroteRegister (rd : Reg) (v : Poly) (s t : State) : Prop where
  result : t.p[rd] = v
  others : OnlyWrites rd s t
  buf : SameBuf s t
  rng : t.rng = s.rng
  xcnt : t.xcnt = s.xcnt
  xofIn : t.xofIn = s.xofIn
  completed : Completed s t

/-- The next step is the Start of the head command (spec/10_state.md R38), the turn being the engine's. -/
structure ReadyToStart (s : State) : Prop where
  turn : s.schedule = []
  eng : s.eng = .idle
  queue : s.queue ≠ []
  err : s.err = none
  flt : s.flt = none

/-- `s` after `raise Error(code, w)` at the Start of its head w, and nothing else (spec/60_exceptions.md R155). -/
def afterError (code : ErrCode) (s : State) : State :=
  { s with queue := s.queue.tail, err := some code, errinfo := s.head }

/-- `s` after `raise Fault(cause, w)` at the Start of its head w, and nothing else (R158). -/
def afterFault (cause : FaultCause) (s : State) : State :=
  { s with queue := s.queue.tail, flt := some cause, errinfo := s.head }

/-- `s` after a Start that passed, of a command other than SAMPU, and nothing else (R160). -/
def begun (s : State) : State := { s with eng := .exec s.head }

/-- The word of the executing command, if any (R24). -/
def executingWord (e : Eng) : Option Word :=
  match e with
  | .idle => none
  | .exec w => some w
  | .sampling _ _ w => some w

/-- The register a command writes, if any (R17). -/
def destination (i : Instr) : Option Reg :=
  match i with
  | .nop => none
  | .add rd _ _ => some rd
  | .sub rd _ _ => some rd
  | .smul rd _ _ => some rd
  | .pmul rd _ _ => some rd
  | .ntt rd _ => some rd
  | .intt rd _ => some rd
  | .sampu rd => some rd
  | .sampc p _ _ => some p
  | .cmpr rd _ _ => some rd
  | .dcmp rd _ _ => some rd
  | .enc _ _ _ => none
  | .dec p _ _ _ => some p

/-- The registers a command reads, in check order (R17). -/
def sources (i : Instr) : List Reg :=
  match i with
  | .nop => []
  | .add _ ra rb => [ra, rb]
  | .sub _ ra rb => [ra, rb]
  | .smul _ ra _ => [ra]
  | .pmul _ ra rb => [ra, rb]
  | .ntt _ ra => [ra]
  | .intt _ ra => [ra]
  | .sampu _ => []
  | .sampc _ _ _ => []
  | .cmpr _ ra _ => [ra]
  | .dcmp _ ra _ => [ra]
  | .enc p _ _ => [p]
  | .dec _ _ _ _ => []

/-- Bit n of a byte string, least significant bit first: bit (n mod 8) of byte (n div 8) (spec/20_memory.md R60). -/
def streamBit (bytes : Nat → Byte) (n : Nat) : Nat := (bytes (n / 8)).toNat / 2 ^ (n % 8) % 2

/-- The sum of `f 0` to `f (n - 1)`. -/
def sumTo (n : Nat) (f : Nat → Nat) : Nat :=
  match n with
  | 0 => 0
  | n + 1 => sumTo n f + f n

/-- Field i of D bits of a byte string (spec/44_serialize.md R139): `sum over b in 0..D-1 of s[D*i + b] << b`. -/
def streamField (bytes : Nat → Byte) (d i : Nat) : Nat :=
  sumTo d fun b => streamBit bytes (d * i + b) * 2 ^ b

/-- The `n` bytes of BUF from `a` up are written, with the values `bytes 0`, `bytes 1`, …. -/
def Holds (s : State) (a n : Nat) (bytes : Nat → Byte) : Prop :=
  ∀ k, k < n → Memory.read s.buf (a + k) = some (bytes k)

/-- A host window access at `off` touches byte `b` of BUF (spec/20_memory.md R56). -/
def touches (off : Offset) (b : Nat) : Prop :=
  off.toNat / 4 * 4 ≤ 0x1000 + b ∧ 0x1000 + b < off.toNat / 4 * 4 + 4

/-- A window access at `off` touches a byte of the range [ADDR, ADDR + n) of the command word `w` and at least one of
the two writes that byte (spec/20_memory.md R58, R65): the range of an ENC, and for a host write that of a DEC or SAMPC
too. A range that passes 0xFFF is no footprint. -/
def TouchesRange (w : Word) (writes : Bool) (off : Offset) : Prop :=
  ∃ addr n : Nat, addr + n ≤ 4096 ∧ (∃ b, addr ≤ b ∧ b < addr + n ∧ touches off b) ∧
    ((∃ p d a, decode w = .ok (.enc p d a) ∧ addr = a.toNat ∧ n = 32 * d.toNat) ∨
      writes = true ∧ ((∃ p d tag a, decode w = .ok (.dec p d tag a) ∧ addr = a.toNat ∧ n = 32 * d.toNat) ∨
        ∃ p eta a, decode w = .ok (.sampc p eta a) ∧ addr = a.toNat ∧ n = 64 * eta.toNat))

/-- The host's turn at `off`, a write of `v` or a read. -/
def hostAccess (writes : Bool) (off : Offset) (v : Word) : Turn :=
  if writes then .hostWrite off v else .hostRead off

/-- A host access made now is stopped as BUF_RACE, whatever it writes. -/
def Races (s : State) (writes : Bool) (off : Offset) : Prop :=
  ∀ v rest, step { s with schedule := hostAccess writes off v :: rest } = .fault .bufRace

/-- A host access made now is not stopped as BUF_RACE. -/
def NoRace (s : State) (writes : Bool) (off : Offset) : Prop :=
  ∀ v rest, step { s with schedule := hostAccess writes off v :: rest } ≠ .fault .bufRace

/-- The distance modulo Q of two values (spec/43_compress.md R134). -/
def distQ (a b : Nat) : Nat := min (subQ a b) (subQ b a)

/-- Coefficient k of the product of two polynomials modulo X^256 + 1 (spec/40_ring_arith.md R99). -/
def negacyclicAt (f g : Coeffs) (k : Nat) : Nat :=
  subQ (sumTo 256 fun i => sumTo 256 fun j => if i + j = k then coeffAt f i * coeffAt g j else 0)
    (sumTo 256 fun i => sumTo 256 fun j => if i + j = k + 256 then coeffAt f i * coeffAt g j else 0)

end Sys2Proof.Machine
end

