-- ==== Sys2Proof/Certificates/Slice0/Obligations.lean ====
section
/-! DEFINITION. The statements for the provers, from the numbered rules of spec/. -/

open Sys2Proof Sys2Proof.Machine

/-! ### Encoding and decoding -/

/-- Encoding drops no bit: the decoder reads back every well-formed command with every operand
(spec/30_encoding.md R73 to R78, R86). -/
def Obligations.DecodeOfEncode : Prop :=
  ∀ i : Instr, i.wellFormed = true → decode (encode i) = .ok i

/-- A word decodes to one command only, and a command is spelled by one word only (R71 to R86). -/
def Obligations.EncodeOfDecode : Prop :=
  ∀ (w : Word) (i : Instr), decode w = .ok i → i.wellFormed = true ∧ encode i = w

/-- The example words of R89, each with the command it stands for; the last is the pseudo-instruction MOV. -/
def Obligations.ExampleWordsDecode : Prop :=
  decode 0x00000000 = .ok .nop ∧
  decode 0x09890000 = .ok (.add 3 1 2) ∧
  decode 0x10028000 = .ok (.sub 0 0 5) ∧
  decode 0x1A100CE7 = .ok (.smul 4 2 3303) ∧
  decode 0x23118000 = .ok (.pmul 6 2 3) ∧
  decode 0x28800000 = .ok (.ntt 1 0) ∧
  decode 0x31080000 = .ok (.intt 2 1) ∧
  decode 0x3B800000 = .ok (.sampu 7) ∧
  decode 0x44003040 = .ok (.sampc 8 3 0x040) ∧
  decode 0x4CA8A000 = .ok (.cmpr 9 5 10) ∧
  decode 0x52C8A000 = .ok (.dcmp 5 9 10) ∧
  decode 0x5900C180 = .ok (.enc 2 12 0x180) ∧
  decode 0x6001C000 = .ok (.dec 0 12 .coef 0x000) ∧
  decode 0x60831020 = .ok (.dec 1 1 .cmpr 0x020) ∧
  decode 0x18800001 = .ok (.smul 1 0 1)

/-- R82: a command with opcode 13 to 31 is refused at its Start with ILLEGAL_OPCODE, whatever its other bits. -/
def Obligations.ReservedOpcodeRefused : Prop :=
  ∀ s : State, ReadyToStart s → 13 ≤ s.head.toNat / 2 ^ 27 →
    step s = .next (afterError .illegalOpcode s)

/-- R83: a command with a defined opcode and a bit of that opcode's reserved-zero mask set is refused at its Start
with ILLEGAL_FIELD. -/
def Obligations.ReservedBitsRefused : Prop :=
  ∀ (s : State) (op : Nat) (mask : Word), ReadyToStart s →
    (op, mask) ∈ [(0, 0x07FFFFFF#32), (1, 0x00007FFF#32), (2, 0x00007FFF#32), (4, 0x00007FFF#32),
      (3, 0x0007F000#32), (5, 0x0007FFFF#32), (6, 0x0007FFFF#32), (7, 0x007FFFFF#32), (8, 0x007F0000#32),
      (11, 0x007F0000#32), (12, 0x007C0000#32), (9, 0x00070FFF#32), (10, 0x00070FFF#32)] →
    s.head.toNat / 2 ^ 27 = op → s.head &&& mask ≠ 0 → step s = .next (afterError .illegalField s)

/-- R84 with the D/T pairs of R77: a command with an illegal D, ETA or D/T pair is refused at its Start with
ILLEGAL_FIELD. -/
def Obligations.IllegalFieldValuesRefused : Prop :=
  ∀ s : State, ReadyToStart s →
    let op := s.head.toNat / 2 ^ 27
    let d := s.head.toNat / 2 ^ 12 % 16
    let t := s.head.toNat / 2 ^ 16 % 4
    ((op = 9 ∨ op = 10) ∧ ¬(1 ≤ d ∧ d ≤ 11) ∨
      op = 11 ∧ ¬(1 ≤ d ∧ d ≤ 12) ∨
      op = 12 ∧ (¬(1 ≤ d ∧ d ≤ 12) ∨ d = 12 ∧ t ≠ 1 ∧ t ≠ 2 ∨ d < 12 ∧ t ≠ 3) ∨
      op = 8 ∧ d ≠ 2 ∧ d ≠ 3) →
    step s = .next (afterError .illegalField s)

/-! ### The step -/

/-- A step runs the decoded command: on the engine's turn the head of the queue is started, and the executing word
completed, as exec says; a sampling SAMPU is run as SAMPU. A step whose schedule begins with a turn of an agent is that
agent's turn (log 1) on the state with the turn dropped: the engine's turn, a host read, a host write, an answer of the
XOF port, or a power-on reset. -/
def Obligations.StepRunsTheCommand : Prop :=
  (∀ s i, ReadyToStart s → decode s.head = .ok i → step s = exec i s) ∧
  (∀ s w i, s.schedule = [] → s.eng = .exec w → decode w = .ok i → step s = exec i s) ∧
  (∀ s rd acc w, s.schedule = [] → s.eng = .sampling rd acc w → step s = exec (.sampu rd) s) ∧
  (∀ s, s.schedule = [] → step s = engineTurn s) ∧
  (∀ s rest, s.schedule = .engine :: rest → step s = engineTurn { s with schedule := rest }) ∧
  (∀ s off rest, s.schedule = .hostRead off :: rest → step s = hostRead off { s with schedule := rest }) ∧
  (∀ s off v rest, s.schedule = .hostWrite off v :: rest → step s = hostWrite off v { s with schedule := rest }) ∧
  (∀ s chunk rest, s.schedule = .xof chunk :: rest →
    step s = answerXof chunk { s with schedule := rest } { s with schedule := rest }) ∧
  (∀ s rest, s.schedule = .powerOn :: rest → step s = .next (powerOnReset { s with schedule := rest }))

/-- With the engine idle and the queue empty, ERR = 1 or FAULT = 1, the engine's turn starts nothing (R38); that the
turn then changes nothing at all is the model's choice (log 2). A step of any agent that leaves an idle engine executing
started the head of a queue that was not empty, with ERR = 0 and FAULT = 0; and no step leaves the engine executing
another command than the one it was executing (R38). -/
def Obligations.StartsOnlyWhenEnabled : Prop :=
  (∀ s : State, s.schedule = [] → s.eng = .idle →
    (s.queue = [] ∨ s.err ≠ none ∨ s.flt ≠ none) → step s = .next s) ∧
  (∀ s t : State, s.eng = .idle → step s = .next t → t.eng ≠ .idle →
    s.queue ≠ [] ∧ s.err = none ∧ s.flt = none ∧ executingWord t.eng = some s.head) ∧
  (∀ s t : State, s.eng ≠ .idle → step s = .next t →
    t.eng = .idle ∨ executingWord t.eng = executingWord s.eng)

/-! ### Start -/

/-- The Start checks of the commands whose sources are registers, in order: EMPTY_OPERAND of either source, then
DOMAIN_MISMATCH, then for DCMP WIDTH_MISMATCH (spec/40_ring_arith.md R94 to R97; spec/41_ntt.md R106, R108;
spec/43_compress.md R129, R131; spec/60_exceptions.md R160). -/
def Obligations.StartOfRegisterCommands : Prop :=
  ∀ (s : State) (rd ra rb : Reg) (imm : BitVec 12) (d : BitVec 4), s.eng = .idle →
    let oneSource (allowed : Prop) [Decidable allowed] (otherwise : State) : State :=
      if s.p[ra].tag = .empty then afterFault .emptyOperand s
      else if allowed then otherwise else afterFault .domainMismatch s
    let twoSources (allowed : Prop) [Decidable allowed] : State :=
      if s.p[ra].tag = .empty ∨ s.p[rb].tag = .empty then afterFault .emptyOperand s
      else if allowed then begun s else afterFault .domainMismatch s
    let alike := (s.p[ra].tag = .coef ∨ s.p[ra].tag = .ntt) ∧ s.p[rb].tag = s.p[ra].tag
    exec (.add rd ra rb) s = .next (twoSources alike) ∧
    exec (.sub rd ra rb) s = .next (twoSources alike) ∧
    exec (.pmul rd ra rb) s = .next (twoSources (s.p[ra].tag = .ntt ∧ s.p[rb].tag = .ntt)) ∧
    exec (.smul rd ra imm) s = .next (oneSource (s.p[ra].tag = .coef ∨ s.p[ra].tag = .ntt) (begun s)) ∧
    exec (.ntt rd ra) s = .next (oneSource (s.p[ra].tag = .coef) (begun s)) ∧
    exec (.intt rd ra) s = .next (oneSource (s.p[ra].tag = .ntt) (begun s)) ∧
    exec (.cmpr rd ra d) s = .next (oneSource (s.p[ra].tag = .coef) (begun s)) ∧
    exec (.dcmp rd ra d) s = .next (oneSource (s.p[ra].tag = .cmpr)
      (if s.p[ra].cw = d then begun s else afterFault .widthMismatch s))

/-- The Start checks of the commands that reach BUF, in order: MALFORMED_INPUT before any fault
(spec/44_serialize.md R137, R139; spec/42_sampling.md R122; R160). -/
def Obligations.StartOfBufferCommands : Prop :=
  ∀ (s : State) (p : Reg) (d : BitVec 4) (t : Tag) (addr : BufAddr), s.eng = .idle →
    exec (.sampc p d addr) s = .next (
      if 4096 < addr.toNat + 64 * d.toNat then afterError .malformedInput s else begun s) ∧
    exec (.dec p d t addr) s = .next (
      if 4096 < addr.toNat + 32 * d.toNat then afterError .malformedInput s else begun s) ∧
    exec (.enc p d addr) s = .next (
      if 4096 < addr.toNat + 32 * d.toNat then afterError .malformedInput s
      else if s.p[p].tag = .empty then afterFault .emptyOperand s
      else if d.toNat = 12 then
        if s.p[p].tag = .coef ∨ s.p[p].tag = .ntt then begun s else afterFault .domainMismatch s
      else if s.p[p].tag ≠ .cmpr then afterFault .domainMismatch s
      else if s.p[p].cw ≠ d then afterFault .widthMismatch s
      else begun s)

/-- R152, R155, R158: a step that takes an error or a fault at a Start has the effects these rules list and no
other; otherwise the command has begun. -/
def Obligations.StartIsPrecise : Prop :=
  ∀ s t : State, ReadyToStart s → step s = .next t →
    t = begun s ∨
    (∃ rd, decode s.head = .ok (.sampu rd) ∧
      t = { s with p := s.p.set rd .empty, xcnt := 0, eng := .sampling rd [] s.head }) ∨
    (∃ code, t = afterError code s) ∨ (∃ cause, t = afterFault cause s)

/-- R151, R160: Start reads the word, the tags and the cw values, no coefficient and no BUF byte. Two states that
differ only in coefficients and BUF bytes start alike: the same exception, or the same command begun. -/
def Obligations.StartIgnoresData : Prop :=
  ∀ (s t t' : State) (p : Vector Poly 16) (buf : List Host.Cell), ReadyToStart s →
    (∀ r : Reg, p[r].tag = s.p[r].tag ∧ p[r].cw = s.p[r].cw) →
    step s = .next t → step { s with p := p, buf := buf } = .next t' →
    t'.err = t.err ∧ t'.flt = t.flt ∧ t'.errinfo = t.errinfo ∧ t'.eng = t.eng ∧ t'.queue = t.queue ∧
      t'.done = t.done ∧ t'.cmdcnt = t.cmdcnt

/-- R150: an error or a fault is raised at two points only: by the Start of the head command, on the engine's turn,
or by a host write to CMD, and then it is CQ_OVERFLOW and the queue stays. -/
def Obligations.ExceptionsRaisedAtTwoPoints : Prop :=
  ∀ s t : State, step s = .next t →
    (t.err ≠ s.err ∧ t.err ≠ none ∨ t.flt ≠ s.flt ∧ t.flt ≠ none) →
    (s.eng = .idle ∧ t.eng = .idle ∧ s.queue ≠ [] ∧ t.queue = s.queue.tail ∧ t.errinfo = s.head ∧
      (s.schedule = [] ∨ ∃ rest, s.schedule = .engine :: rest)) ∨
    (∃ off v rest, s.schedule = .hostWrite off v :: rest ∧ off.toNat / 4 = 3 ∧ t.err = some .cqOverflow ∧
      t.flt = s.flt ∧ t.errinfo = v ∧ t.queue = s.queue ∧ t.eng = s.eng)

/-! ### What each command does -/

/-- NOP (R93, R161): it starts with no check, and its Complete is the bookkeeping alone. -/
def Obligations.NopCompletes : Prop :=
  (∀ s : State, s.eng = .idle → exec .nop s = .next (begun s)) ∧
  ∀ (s : State) (w : Word), s.eng = .exec w → exec .nop s = .next { s with
    eng := .idle
    queue := s.queue.tail
    cmdcnt := s.cmdcnt + 1
    done := s.done || s.queue.tail.isEmpty }

/-- ADD's Complete (R94): every lane is the sum modulo Q, the tag is that of RA, and nothing but P[RD] and the
bookkeeping changes; the source values are those before the command, whichever registers coincide (R12). -/
def Obligations.AddCompletes : Prop :=
  ∀ (s : State) (w : Word) (rd ra rb : Reg) (tagged : Coeffs → Poly) (a b : Coeffs),
    tagged = .coef ∨ tagged = .ntt → s.eng = .exec w → s.p[ra] = tagged a → s.p[rb] = tagged b →
    ∃ t c, exec (.add rd ra rb) s = .next t ∧
      (∀ i, i < 256 → coeffAt c i = (coeffAt a i + coeffAt b i) % 3329) ∧
      WroteRegister rd (tagged c) s t

/-- SUB's Complete (R95): every lane is the difference modulo Q by the floor modulus, RA the minuend. -/
def Obligations.SubCompletes : Prop :=
  ∀ (s : State) (w : Word) (rd ra rb : Reg) (tagged : Coeffs → Poly) (a b : Coeffs),
    tagged = .coef ∨ tagged = .ntt → s.eng = .exec w → s.p[ra] = tagged a → s.p[rb] = tagged b →
    ∃ t c, exec (.sub rd ra rb) s = .next t ∧
      (∀ i, i < 256 → (coeffAt c i : Int) = ((coeffAt a i : Int) - (coeffAt b i : Int)) % 3329) ∧
      WroteRegister rd (tagged c) s t

/-- SMUL's Complete (R96, R75): every lane times the zero-extended immediate, modulo Q. -/
def Obligations.SmulCompletes : Prop :=
  ∀ (s : State) (w : Word) (rd ra : Reg) (imm : BitVec 12) (tagged : Coeffs → Poly) (a : Coeffs),
    tagged = .coef ∨ tagged = .ntt → s.eng = .exec w → s.p[ra] = tagged a →
    ∃ t c, exec (.smul rd ra imm) s = .next t ∧
      (∀ i, i < 256 → coeffAt c i = coeffAt a i * imm.toNat % 3329) ∧
      WroteRegister rd (tagged c) s t

/-- PMUL's Complete (R97, R98): the product of coefficient pairs with GAMMAS[i] = 17^(2·bitrev7(i)+1) mod Q. -/
def Obligations.PmulCompletes : Prop :=
  ∀ (s : State) (w : Word) (rd ra rb : Reg) (a b : Coeffs),
    s.eng = .exec w → s.p[ra] = .ntt a → s.p[rb] = .ntt b →
    ∃ t c, exec (.pmul rd ra rb) s = .next t ∧
      (∀ i, i < 128 →
        coeffAt c (2 * i) = (coeffAt a (2 * i) * coeffAt b (2 * i)
          + 17 ^ (2 * bitrev7 i + 1) % 3329 * coeffAt a (2 * i + 1) * coeffAt b (2 * i + 1)) % 3329 ∧
        coeffAt c (2 * i + 1) = (coeffAt a (2 * i) * coeffAt b (2 * i + 1)
          + coeffAt a (2 * i + 1) * coeffAt b (2 * i)) % 3329) ∧
      WroteRegister rd (.ntt c) s t

/-- NTT's Complete is the loop nest of R106, one assignment at a time, on the source's coefficients (R104, R105). -/
def Obligations.NttRunsTheLoops : Prop :=
  ∀ (s : State) (w : Word) (rd ra : Reg) (a : Coeffs), s.eng = .exec w → s.p[ra] = .coef a →
    ∃ t c, exec (.ntt rd ra) s = .next t ∧ coeffNats c = loopForward (coeffNats a) ∧
      WroteRegister rd (.ntt c) s t

/-- INTT's Complete is the loop nest of R108 with the final scaling by 3303 (R107, R109, R110). -/
def Obligations.InttRunsTheLoops : Prop :=
  ∀ (s : State) (w : Word) (rd ra : Reg) (a : Coeffs), s.eng = .exec w → s.p[ra] = .ntt a →
    ∃ t c, exec (.intt rd ra) s = .next t ∧ coeffNats c = loopInverse (coeffNats a) ∧
      WroteRegister rd (.coef c) s t

/-- SAMPU's Start (R116): the destination becomes EMPTY, XCNT 0, and the engine samples with nothing accepted. -/
def Obligations.SampuStarts : Prop :=
  ∀ (s : State) (rd : Reg), s.eng = .idle →
    exec (.sampu rd) s =
      .next { s with p := s.p.set rd .empty, xcnt := 0, eng := .sampling rd [] s.head }

/-- The Chunk step (R117 to R119): d1 before d2, each accepted iff below Q and a slot is left; the 256th accepted
value completes the command with acc[i] as coefficient i, else the engine asks again. With no chunk offered the
command has no step; that exec then leaves the state unchanged is the model's choice (log 2). -/
def Obligations.SampuTakesChunks : Prop :=
  (∀ (s : State) (rd : Reg) (acc : List Coeff) (w : Word) (chunk : Chunk),
    s.eng = .sampling rd acc w → s.xofIn = some chunk → acc.length < 256 →
    let d1 := chunk.toNat % 4096
    let d2 := chunk.toNat / 4096
    let acc1 := if d1 < 3329 then acc ++ [BitVec.ofNat 12 d1] else acc
    let acc2 := if acc1.length < 256 ∧ d2 < 3329 then acc1 ++ [BitVec.ofNat 12 d2] else acc1
    (acc2.length < 256 → exec (.sampu rd) s =
      .next { s with xcnt := s.xcnt + 1, xofIn := none, eng := .sampling rd acc2 w }) ∧
    (acc2.length = 256 → ∃ t c, exec (.sampu rd) s = .next t ∧ t.p[rd] = .ntt c ∧
      (∀ i, i < 256 → coeffAt c i = (acc2.getD i 0).toNat) ∧ OnlyWrites rd s t ∧ SameBuf s t ∧
      t.rng = s.rng ∧ t.xcnt = s.xcnt + 1 ∧ t.xofIn = none ∧ Completed s t)) ∧
  (∀ (s : State) (rd : Reg) (acc : List Coeff) (w : Word),
    s.eng = .sampling rd acc w → s.xofIn = none → exec (.sampu rd) s = .next s)

/-- SAMPC's Complete (R122, R123): output i is the ones among the first ETA bits of its window less the ones among
the next ETA bits, modulo Q, on the bytes of BUF from ADDR. -/
def Obligations.SampcCompletes : Prop :=
  ∀ (s : State) (w : Word) (p : Reg) (eta : BitVec 4) (addr : BufAddr) (bytes : Nat → Byte),
    s.eng = .exec w → Holds s addr.toNat (64 * eta.toNat) bytes →
    ∃ t c, exec (.sampc p eta addr) s = .next t ∧
      (∀ i, i < 256 → (coeffAt c i : Int) =
        ((sumTo eta.toNat fun j => streamBit bytes (2 * i * eta.toNat + j) : Nat)
          - (sumTo eta.toNat fun j => streamBit bytes (2 * i * eta.toNat + eta.toNat + j) : Nat) : Int) % 3329) ∧
      WroteRegister p (.coef c) s t

/-- CMPR's Complete (R129): every coefficient is `(((x << D) + 1664) div 3329) mod 2^D`, cw = D. -/
def Obligations.CmprCompletes : Prop :=
  ∀ (s : State) (w : Word) (rd ra : Reg) (d : BitVec 4) (a : Coeffs),
    1 ≤ d.toNat → d.toNat ≤ 11 → s.eng = .exec w → s.p[ra] = .coef a →
    ∃ t c, exec (.cmpr rd ra d) s = .next t ∧
      (∀ i, i < 256 → coeffAt c i = (coeffAt a i * 2 ^ d.toNat + 1664) / 3329 % 2 ^ d.toNat) ∧
      WroteRegister rd (.cmpr d c) s t

/-- DCMP's Complete (R131, R132): every coefficient is `(y * 3329 + 2^(D-1)) >> D`, and it is below Q. The premise
that the source's coefficients are below 2^D is the register invariant (R16), which a statement below keeps. -/
def Obligations.DcmpCompletes : Prop :=
  ∀ (s : State) (w : Word) (rd ra : Reg) (d : BitVec 4) (a : Coeffs),
    1 ≤ d.toNat → d.toNat ≤ 11 → s.eng = .exec w → s.p[ra] = .cmpr d a → Below (2 ^ d.toNat) a →
    ∃ t c, exec (.dcmp rd ra d) s = .next t ∧
      (∀ i, i < 256 → coeffAt c i = (coeffAt a i * 3329 + 2 ^ (d.toNat - 1)) / 2 ^ d.toNat) ∧
      Below 3329 c ∧ WroteRegister rd (.coef c) s t

/-- ENC's Complete (R137, R138): bit b of coefficient i is stream bit D·i + b, stream bit n is bit (n mod 8) of byte
(n div 8) from ADDR; exactly these 32·D bytes are written, and no register changes. -/
def Obligations.EncCompletes : Prop :=
  ∀ (s : State) (w : Word) (p : Reg) (d : BitVec 4) (addr : BufAddr) (a : Coeffs),
    1 ≤ d.toNat → s.eng = .exec w → s.p[p].coeffs = some a → addr.toNat + 32 * d.toNat ≤ 4096 →
    ∃ t, exec (.enc p d addr) s = .next t ∧
      (∀ k, k < 32 * d.toNat → ∃ v, Memory.read t.buf (addr.toNat + k) = some v ∧
        ∀ j, j < 8 → v.getLsbD j =
          (coeffAt a ((8 * k + j) / d.toNat)).testBit ((8 * k + j) % d.toNat)) ∧
      (∀ b, b < addr.toNat ∨ addr.toNat + 32 * d.toNat ≤ b → Memory.read t.buf b = Memory.read s.buf b) ∧
      t.p = s.p ∧ t.rng = s.rng ∧ t.xcnt = s.xcnt ∧ t.xofIn = s.xofIn ∧ Completed s t

/-- DEC's Complete (R139, R140): field i is stream bits D·i to D·i + D − 1; for D < 12 the fields are kept under CMPR
with cw = D; for D = 12 they are reduced modulo Q under the tag T, and RNG is set, never cleared, exactly when some
field is at least Q. -/
def Obligations.DecCompletes : Prop :=
  ∀ (s : State) (w : Word) (p : Reg) (d : BitVec 4) (tag : Tag) (addr : BufAddr) (bytes : Nat → Byte),
    (Instr.dec p d tag addr).wellFormed = true → s.eng = .exec w →
    Holds s addr.toNat (32 * d.toNat) bytes →
    ∃ t c, exec (.dec p d tag addr) s = .next t ∧
      (d.toNat < 12 → t.p[p] = .cmpr d c ∧ t.rng = s.rng ∧
        ∀ i, i < 256 → coeffAt c i = streamField bytes d.toNat i) ∧
      (d.toNat = 12 → t.p[p] = (if tag = .coef then .coef c else .ntt c) ∧
        (t.rng = true ↔ s.rng = true ∨ ∃ i, i < 256 ∧ 3329 ≤ streamField bytes 12 i) ∧
        ∀ i, i < 256 → coeffAt c i = streamField bytes 12 i % 3329) ∧
      OnlyWrites p s t ∧ SameBuf s t ∧ t.xcnt = s.xcnt ∧ t.xofIn = s.xofIn ∧ Completed s t

/-- R21, R165: the Complete of a DEC or SAMPC whose range holds an unwritten byte is the model fault UNINIT_READ. -/
def Obligations.UnwrittenByteStops : Prop :=
  ∀ (s : State) (w : Word) (p : Reg) (d : BitVec 4) (tag : Tag) (addr : BufAddr) (k : Nat),
    s.eng = .exec w → Memory.read s.buf (addr.toNat + k) = none →
    (k < 32 * d.toNat → exec (.dec p d tag addr) s = .fault .uninitRead) ∧
    (k < 64 * d.toNat → exec (.sampc p d addr) s = .fault .uninitRead)

/-- R18 and log 6, log 14, the model's choice: where a Complete has an EMPTY source, an ENC range past 0xFFF or a word
that is no command, which no run reaches, the step stops by name and gives no value. -/
def Obligations.UnreachableCompletesStop : Prop :=
  (∀ (i : Instr) (s : State) (w : Word) (r : Reg), s.eng = .exec w → r ∈ sources i → s.p[r] = .empty →
    exec i s = .fault .emptyRead) ∧
  (∀ (s : State) (w : Word) (p : Reg) (d : BitVec 4) (addr : BufAddr), s.eng = .exec w →
    s.p[p] ≠ .empty → 4096 < addr.toNat + 32 * d.toNat → exec (.enc p d addr) s = .fault .noSuchByte) ∧
  (∀ (s : State) (w : Word) (e : DecodeError), s.schedule = [] → s.eng = .exec w → decode w = .error e →
    step s = .fault .notACommand)

/-! ### Frames -/

/-- The frame of every command but ENC and SAMPU: where exec answers a next state, every register but the
destination (R17), every byte of BUF, and every register of the port that no rule lets the command write are as
before; RNG is written by DEC with D = 12 only. -/
def Obligations.RegisterCommandFrame : Prop :=
  ∀ (i : Instr) (s t : State), (∀ rd, i ≠ .sampu rd) → (∀ p d addr, i ≠ .enc p d addr) →
    exec i s = .next t →
    (∀ r : Reg, destination i ≠ some r → t.p[r] = s.p[r]) ∧ SameBuf s t ∧
    t.ieDone = s.ieDone ∧ t.ieErr = s.ieErr ∧ t.xspur = s.xspur ∧ t.xcnt = s.xcnt ∧ t.xofIn = s.xofIn ∧
    t.answer = s.answer ∧ t.schedule = s.schedule ∧
    (t.rng = s.rng ∨ ∃ p d tag addr, i = .dec p d tag addr ∧ d.toNat = 12 ∧ t.rng = true)

/-- The frame of ENC: no register changes, no byte outside its 32·D bytes from ADDR changes, and none at all at its
Start. -/
def Obligations.EncFrame : Prop :=
  ∀ (s t : State) (p : Reg) (d : BitVec 4) (addr : BufAddr), exec (.enc p d addr) s = .next t →
    t.p = s.p ∧
    (∀ b, s.eng = .idle ∨ b < addr.toNat ∨ addr.toNat + 32 * d.toNat ≤ b →
      Memory.read t.buf b = Memory.read s.buf b) ∧
    t.ieDone = s.ieDone ∧ t.ieErr = s.ieErr ∧ t.rng = s.rng ∧ t.xspur = s.xspur ∧ t.xcnt = s.xcnt ∧
    t.xofIn = s.xofIn ∧ t.answer = s.answer ∧ t.schedule = s.schedule

/-- The frame of SAMPU, at its Start and at a Chunk step: only its destination, XCNT, the chunk at the port and the
engine's own record change; the completing Chunk adds the bookkeeping of R161. While it samples, the destination is
the one of its Start. -/
def Obligations.SampuFrame : Prop :=
  ∀ (s t : State) (rd : Reg), exec (.sampu rd) s = .next t →
    (∀ r : Reg, (s.eng = .idle → r ≠ rd) →
      (∀ rd' acc w, s.eng = .sampling rd' acc w → r ≠ rd') → t.p[r] = s.p[r]) ∧
    SameBuf s t ∧ t.ieDone = s.ieDone ∧ t.ieErr = s.ieErr ∧ t.err = s.err ∧ t.flt = s.flt ∧ t.rng = s.rng ∧
    t.xspur = s.xspur ∧ t.errinfo = s.errinfo ∧ t.answer = s.answer ∧ t.schedule = s.schedule ∧
    (t.eng ≠ .idle → t.done = s.done ∧ t.cmdcnt = s.cmdcnt ∧ t.queue = s.queue)

/-- R33: the flags a command may set, and where. ERR, FAULT and ERRINFO change at a Start only, and then with no
completion; DONE, CMDCNT and the queue change only where the command leaves a Start refused or completes, and DONE is set
exactly by a completion that empties the queue; RNG is set by the Complete of DEC with D = 12 only; XREQ changes with a
SAMPU only; no command changes XSPUR. -/
def Obligations.CommandsSetFlagsAsListed : Prop :=
  ∀ (i : Instr) (s t : State), exec i s = .next t →
    (s.eng ≠ .idle → t.err = s.err ∧ t.flt = s.flt ∧ t.errinfo = s.errinfo) ∧
    (s.eng = .idle → t.done = s.done ∧ t.cmdcnt = s.cmdcnt) ∧
    (t.eng ≠ .idle → t.done = s.done ∧ t.cmdcnt = s.cmdcnt ∧ t.queue = s.queue) ∧
    (s.eng ≠ .idle → t.eng = .idle → t.done = (s.done || t.queue.isEmpty)) ∧
    (t.rng = s.rng ∨
      s.eng ≠ .idle ∧ t.eng = .idle ∧ t.rng = true ∧ ∃ p d tag addr, i = .dec p d tag addr ∧ d.toNat = 12) ∧
    ((∀ rd, i ≠ .sampu rd) → t.xreq = s.xreq) ∧
    t.xspur = s.xspur

/-! ### Invariants -/

/-- The reset state meets the invariant of every run. -/
def Obligations.ResetMeetsInvariant : Prop := State.reset.Inv

/-- Every step of every agent keeps the invariant: legal register contents (R15, R16), canonical BUF, at most 16
queued commands (R22), never both ERR and FAULT (R162), and an executing command that passed its Start checks. -/
def Obligations.StepKeepsInvariant : Prop :=
  ∀ s t : State, s.Inv → step s = .next t → t.Inv

/-- From a state of the invariant a step stops only on the two model faults of R165, UNINIT_READ and BUF_RACE: every
fault that the model adds for unreachable states is unreachable, and nothing is refused. -/
def Obligations.OnlyModelFaultsStop : Prop :=
  ∀ s : State, s.Inv →
    (∃ t, step s = .next t) ∨ step s = .fault .uninitRead ∨ step s = .fault .bufRace

/-- Every step keeps BUF canonical, from every state whatever: addresses strictly rising, all below 4096. -/
def Obligations.StepKeepsBufferCanonical : Prop :=
  ∀ s t : State, Memory.wf s.buf = true → step s = .next t → Memory.wf t.buf = true

/-- FAULT is cleared by reset only (spec/10_state.md R29, R158): a step that clears or changes it is a power-on reset
or a host write of CTRL with bit 0 set. -/
def Obligations.FaultClearedByResetOnly : Prop :=
  ∀ (s t : State) (cause : FaultCause), s.flt = some cause → step s = .next t → t.flt ≠ some cause →
    t.flt = none ∧ ∃ rest, s.schedule = .powerOn :: rest ∨
      ∃ off v, s.schedule = .hostWrite off v :: rest ∧ off.toNat / 4 = 1 ∧ v.getLsbD 0 = true

/-- CMDCNT (R42) counts completions: a step that is a reset, power-on or a host write of CTRL with bit 0 set, zeroes it
(R169, R170); any other step that takes the engine from executing to idle is a completion, which removes the head of the
queue and adds one modulo 2^32 (R161); and every other step leaves CMDCNT, so that commands refused, dropped or
discarded are not counted. -/
def Obligations.CmdcntCountsCompletions : Prop :=
  ∀ s t : State, step s = .next t →
    let resets := (∃ rest, s.schedule = .powerOn :: rest) ∨
      ∃ off v rest, s.schedule = .hostWrite off v :: rest ∧ off.toNat / 4 = 1 ∧ v.getLsbD 0 = true
    (resets → t.cmdcnt = 0) ∧
    (¬resets → s.eng ≠ .idle → t.eng = .idle → t.cmdcnt = s.cmdcnt + 1 ∧ t.queue = s.queue.tail) ∧
    (¬resets → (s.eng = .idle ∨ t.eng ≠ .idle) → t.cmdcnt = s.cmdcnt)

/-- The queue is a FIFO whose words never change (R22, R69): a step leaves it, appends one word, drops the head, or
discards the commands that have not started. -/
def Obligations.QueueIsFifo : Prop :=
  ∀ s t : State, step s = .next t →
    t.queue = s.queue ∨ (∃ w, t.queue = s.queue ++ [w]) ∨ t.queue = s.queue.tail ∨
    t.queue = s.queue.take 1 ∨ t.queue = []

/-! ### The host port -/

/-- R50: a host read changes nothing but what the model remembers as the read's answer. -/
def Obligations.HostReadChangesNothing : Prop :=
  ∀ (s t : State) (off : Offset) (rest : List Turn), s.schedule = .hostRead off :: rest → step s = .next t →
    t = { s with schedule := rest, answer := t.answer }

/-- The register map (R54), with reserved offsets and write-only registers reading 0 (R52), at every offset below the
window; a write to a read-only register or a reserved offset is ignored; each such access completes (R53). -/
def Obligations.RegisterMap : Prop :=
  (∀ (s : State) (off : Offset) (rest : List Turn), s.schedule = .hostRead off :: rest → off.toNat < 0x1000 →
      let s' := { s with schedule := rest }
      step s = .next { s' with answer := some (
        if off.toNat / 4 = 0 then Config.idValue
        else if off.toNat / 4 = 1 then ctrlWord s'
        else if off.toNat / 4 = 2 then statusWord s'
        else if off.toNat / 4 = 5 then s.xcnt
        else if off.toNat / 4 = 6 then tagsWord s'
        else if off.toNat / 4 = 7 then cwloWord s'
        else if off.toNat / 4 = 8 then cwhiWord s'
        else if off.toNat / 4 = 9 then s.cmdcnt
        else if off.toNat / 4 = 10 then s.errinfo
        else 0) }) ∧
  (∀ (s : State) (off : Offset) (v : Word) (rest : List Turn), s.schedule = .hostWrite off v :: rest →
    (off.toNat / 4 = 0 ∨ 5 ≤ off.toNat / 4 ∧ off.toNat / 4 < 0x400) → step s = .next { s with schedule := rest })

/-- R49: the engine ignores off[1:0]: an access goes to the word at `off & 0x1FFC`. -/
def Obligations.LowOffsetBitsIgnored : Prop :=
  ∀ (s : State) (off : Offset) (v : Word) (rest : List Turn),
    step { s with schedule := .hostRead off :: rest } = step { s with schedule := .hostRead (off &&& 0x1FFC) :: rest } ∧
    step { s with schedule := .hostWrite off v :: rest } =
      step { s with schedule := .hostWrite (off &&& 0x1FFC) v :: rest }

/-- R57: a host window write that is no race sets its four bytes little-endian and nothing else, and a window read of
four written bytes that is no race answers them little-endian; with an unwritten byte it is UNINIT_READ (R21). The next
statement says which accesses are races. -/
def Obligations.WindowIsLittleEndian : Prop :=
  (∀ (s : State) (off : Offset) (v : Word) (rest : List Turn), s.schedule = .hostWrite off v :: rest →
    0x1000 ≤ off.toNat → step s ≠ .fault .bufRace →
    let a := off.toNat / 4 * 4 - 0x1000
    ∃ t, step s = .next t ∧ t = { s with schedule := rest, buf := t.buf } ∧
      (∀ j, j < 4 → Memory.read t.buf (a + j) = some (BitVec.ofNat 8 (v.toNat / 2 ^ (8 * j)))) ∧
      ∀ b, b < a ∨ a + 4 ≤ b → Memory.read t.buf b = Memory.read s.buf b) ∧
  (∀ (s : State) (off : Offset) (rest : List Turn), s.schedule = .hostRead off :: rest →
    0x1000 ≤ off.toNat → step s ≠ .fault .bufRace →
    let a := off.toNat / 4 * 4 - 0x1000
    (∀ b0 b1 b2 b3 : Byte, Memory.read s.buf a = some b0 → Memory.read s.buf (a + 1) = some b1 →
      Memory.read s.buf (a + 2) = some b2 → Memory.read s.buf (a + 3) = some b3 →
      step s = .next { s with schedule := rest, answer := some (BitVec.ofNat 32
        (b0.toNat + 2 ^ 8 * b1.toNat + 2 ^ 16 * b2.toNat + 2 ^ 24 * b3.toNat)) }) ∧
    (∀ j, j < 4 → Memory.read s.buf (a + j) = none → step s = .fault .uninitRead))

/-- R65, R66: which host accesses are BUF_RACE, in terms of the byte ranges of the queue's ENC, DEC and SAMPC words.
An access that touches no range of a queued word is none. One that touches the range of the executing command, or of
a head that the engine's next turn begins, is one. A head that the engine's next turn refuses makes none. Commands
that ERR or FAULT holds back have no Start, so none is refused at one, and they make races: the model's reading
(log 5). A step of the engine, or the producer's answer, adds no race and removes only those with the command it
completes: so whether a waiting command makes races is already settled as it is when it comes to its Start. -/
def Obligations.RacesAreFound : Prop :=
  ∀ (s : State) (writes : Bool) (off : Offset),
    ((∀ w ∈ s.queue, ¬TouchesRange w writes off) → NoRace s writes off) ∧
    (∀ w, s.queue.head? = some w → TouchesRange w writes off →
      (s.eng ≠ .idle ∨ ReadyToStart s ∧ ∃ t, step s = .next t ∧ t.eng ≠ .idle) → Races s writes off) ∧
    (∀ t, ReadyToStart s → step s = .next t → t.eng = .idle →
      (∀ w ∈ s.queue.tail, ¬TouchesRange w writes off) → NoRace s writes off) ∧
    (∀ w ∈ s.queue, (s.err ≠ none ∨ s.flt ≠ none) → TouchesRange w writes off → Races s writes off) ∧
    (∀ t, s.Inv → step s = .next t →
      (s.schedule = [] ∨ ∃ turn rest, s.schedule = turn :: rest ∧
        (turn = .engine ∨ (∃ chunk, turn = .xof chunk) ∨ ∃ off' v, turn = .hostWrite off' v ∧ off'.toNat / 4 = 4)) →
      (Races t writes off → Races s writes off) ∧
      (Races s writes off → Races t writes off ∨
        s.eng ≠ .idle ∧ t.eng = .idle ∧ ∃ w, s.queue.head? = some w ∧ TouchesRange w writes off))

/-- R28, R169: a host write to CTRL with bit 0 clear sets the two interrupt enables from bits 1 and 2, and nothing
else. With SRST = 1, whatever its other bits, it aborts the executing command, makes every register EMPTY, empties the
queue, and zeroes STATUS, CTRL, XCNT, CMDCNT and ERRINFO; BUF with its written bits stays, and irq is low. -/
def Obligations.CtrlWriteEffects : Prop :=
  ∀ (s : State) (off : Offset) (v : Word) (rest : List Turn), s.schedule = .hostWrite off v :: rest →
    off.toNat / 4 = 1 →
    (v.getLsbD 0 = false →
      step s = .next { s with schedule := rest, ieDone := v.getLsbD 1, ieErr := v.getLsbD 2 }) ∧
    (v.getLsbD 0 = true →
      ∃ t, step s = .next t ∧ t.buf = s.buf ∧ t.eng = .idle ∧ t.xreq = false ∧ (∀ r : Reg, t.p[r] = .empty) ∧
        t.queue = [] ∧ statusWord t = 0 ∧ t.err = none ∧ t.flt = none ∧ ctrlWord t = 0 ∧ t.xcnt = 0 ∧
        t.cmdcnt = 0 ∧ t.errinfo = 0 ∧ t.irq = false ∧ t.answer = s.answer ∧ t.xofIn = s.xofIn ∧
        t.schedule = rest)

/-- R170, R171: a power-on reset has the effects of a soft reset, and no byte of BUF is written after it; the state
`State.reset` has the power-on values of R171 too. -/
def Obligations.PowerOnEffects : Prop :=
  ∀ (s t : State) (rest : List Turn),
    (s.schedule = .powerOn :: rest ∧ step s = .next t) ∨ t = State.reset →
    (∀ a, Memory.read t.buf a = none) ∧ t.eng = .idle ∧ t.xreq = false ∧ (∀ r : Reg, t.p[r] = .empty) ∧
    t.queue = [] ∧ statusWord t = 0 ∧ ctrlWord t = 0 ∧ t.xcnt = 0 ∧ tagsWord t = 0 ∧ cwloWord t = 0 ∧
    cwhiWord t = 0 ∧ t.cmdcnt = 0 ∧ t.errinfo = 0 ∧ t.irq = false ∧ t.xofReq = false

/-- R30, R31, R34: a host write of v to STATUS clears DONE, RNG and XSPUR by their bits; with v[2] = 1 and ERR = 1 it
clears ERR with ERRCODE and discards the commands that have not started, keeping the executing one; nothing else
changes, so v[2] = 1 while ERR = 0 discards nothing. -/
def Obligations.StatusWriteEffects : Prop :=
  ∀ (s : State) (off : Offset) (v : Word) (rest : List Turn), s.schedule = .hostWrite off v :: rest →
    off.toNat / 4 = 2 →
    step s = .next { s with
      schedule := rest
      done := if v.getLsbD 1 then false else s.done
      rng := if v.getLsbD 4 then false else s.rng
      xspur := if v.getLsbD 5 then false else s.xspur
      err := if v.getLsbD 2 then none else s.err
      queue := if v.getLsbD 2 = true ∧ s.err ≠ none then
          (if s.eng = .idle then [] else s.queue.take 1)
        else s.queue }

/-- R35, R157: a host write of w to CMD is ignored under ERR or FAULT; on a queue of 16 it drops w and raises
CQ_OVERFLOW, which touches neither the queue nor the executing command; else w is appended. -/
def Obligations.CmdWriteEffects : Prop :=
  ∀ (s : State) (off : Offset) (w : Word) (rest : List Turn), s.schedule = .hostWrite off w :: rest →
    off.toNat / 4 = 3 → s.queue.length ≤ 16 →
    let s' := { s with schedule := rest }
    (s.flt ≠ none ∨ s.err ≠ none → step s = .next s') ∧
    (s.flt = none → s.err = none → s.queue.length = 16 →
      step s = .next { s' with err := some .cqOverflow, errinfo := w }) ∧
    (s.flt = none → s.err = none → s.queue.length < 16 → step s = .next { s' with queue := s.queue ++ [w] })

/-- R36, R59: a host write of v to XDATA while a chunk is requested is SAMPU's Chunk step with v[23:0], and the
external port's answer is the same step; with no request the write only sets XSPUR, and reading XDATA gives 0. That
an unrequested answer of the port has no effect is the model's choice (log 9). -/
def Obligations.XofAnswers : Prop :=
  (∀ (s : State) (off : Offset) (v : Word), off.toNat / 4 = 4 →
    (∀ rd acc w, s.eng = .sampling rd acc w →
      hostWrite off v s = exec (.sampu rd) { s with xofIn := some (BitVec.ofNat 24 v.toNat) }) ∧
    (s.xreq = false → hostWrite off v s = .next { s with xspur := true }) ∧
    hostRead off s = .next { s with answer := some 0 }) ∧
  (∀ (s : State) (chunk : Chunk) (rest : List Turn), s.schedule = .xof chunk :: rest →
    (∀ rd acc w, s.eng = .sampling rd acc w →
      step s = exec (.sampu rd) { s with schedule := rest, xofIn := some chunk }) ∧
    (s.xreq = false → step s = .next { s with schedule := rest }))

/-- R17, R19: the host cannot write a register: a host access other than a soft reset and an XDATA answer leaves
every register as it is. -/
def Obligations.HostCannotWriteRegisters : Prop :=
  ∀ (s t : State) (off : Offset) (v : Word) (rest : List Turn), step s = .next t →
    (s.schedule = .hostRead off :: rest ∨
      s.schedule = .hostWrite off v :: rest ∧ off.toNat / 4 ≠ 4 ∧ ¬(off.toNat / 4 = 1 ∧ v.getLsbD 0 = true)) →
    t.p = s.p

/-! ### The views -/

/-- R28: CTRL as read. R29, R32, R156, R159: the fields of STATUS, with BUSY, XREQ and QCOUNT as live views and every
reserved bit 0. R44: the interrupt output in terms of the bits of CTRL and STATUS, low at reset. R59: xof_req. -/
def Obligations.StatusFieldsAndIrq : Prop :=
  State.reset.irq = false ∧ ∀ s : State, s.queue.length ≤ 16 →
    (statusWord s).getLsbD 0 = decide (s.eng ≠ .idle) ∧
    (statusWord s).getLsbD 1 = s.done ∧
    (statusWord s).getLsbD 2 = s.err.isSome ∧
    (statusWord s).getLsbD 3 = s.flt.isSome ∧
    (statusWord s).getLsbD 4 = s.rng ∧
    (statusWord s).getLsbD 5 = s.xspur ∧
    (statusWord s).getLsbD 6 = s.xreq ∧
    (statusWord s).getLsbD 7 = false ∧
    (statusWord s).toNat / 2 ^ 8 % 16 = (if s.err = some .illegalOpcode then 1
      else if s.err = some .illegalField then 2
      else if s.err = some .malformedInput then 3
      else if s.err = some .cqOverflow then 4
      else 0) ∧
    (statusWord s).toNat / 2 ^ 12 % 16 = (if s.flt = some .emptyOperand then 1
      else if s.flt = some .domainMismatch then 2
      else if s.flt = some .widthMismatch then 3
      else 0) ∧
    (statusWord s).toNat / 2 ^ 16 = s.queue.length ∧
    s.irq = ((ctrlWord s).getLsbD 1 && (statusWord s).getLsbD 1 ||
      (ctrlWord s).getLsbD 2 && ((statusWord s).getLsbD 2 || (statusWord s).getLsbD 3)) ∧
    s.xofReq = (statusWord s).getLsbD 6 ∧
    (ctrlWord s).getLsbD 1 = s.ieDone ∧ (ctrlWord s).getLsbD 2 = s.ieErr ∧
    ∀ n, n ≠ 1 → n ≠ 2 → (ctrlWord s).getLsbD n = false

/-- R40, R41: TAGS holds P[i].tag at bits [2i+1:2i]; CWLO and CWHI hold P[i].cw and P[8+i].cw at bits [4i+3:4i]. -/
def Obligations.TagAndWidthFields : Prop :=
  ∀ (s : State),
    (∀ r : Reg, (tagsWord s).toNat / 2 ^ (2 * r.val) % 4 = (if s.p[r].tag = .empty then 0
      else if s.p[r].tag = .coef then 1
      else if s.p[r].tag = .ntt then 2
      else 3)) ∧
    (∀ r : Reg, r.val < 8 → (cwloWord s).toNat / 2 ^ (4 * r.val) % 16 = s.p[r].cw.toNat) ∧
    (∀ r : Reg, 8 ≤ r.val → (cwhiWord s).toNat / 2 ^ (4 * (r.val - 8)) % 16 = s.p[r].cw.toNat)

/-! ### The arithmetic -/

/-- R113: the values of the two tables, and the relations between them. -/
def Obligations.RomTables : Prop :=
  (List.range 128).map zetas =
    [1, 1729, 2580, 3289, 2642, 630, 1897, 848, 1062, 1919, 193, 797, 2786, 3260, 569, 1746]
    ++ [296, 2447, 1339, 1476, 3046, 56, 2240, 1333, 1426, 2094, 535, 2882, 2393, 2879, 1974, 821]
    ++ [289, 331, 3253, 1756, 1197, 2304, 2277, 2055, 650, 1977, 2513, 632, 2865, 33, 1320, 1915]
    ++ [2319, 1435, 807, 452, 1438, 2868, 1534, 2402, 2647, 2617, 1481, 648, 2474, 3110, 1227, 910]
    ++ [17, 2761, 583, 2649, 1637, 723, 2288, 1100, 1409, 2662, 3281, 233, 756, 2156, 3015, 3050]
    ++ [1703, 1651, 2789, 1789, 1847, 952, 1461, 2687, 939, 2308, 2437, 2388, 733, 2337, 268, 641]
    ++ [1584, 2298, 2037, 3220, 375, 2549, 2090, 1645, 1063, 319, 2773, 757, 2099, 561, 2466, 2594]
    ++ [2804, 1092, 403, 1026, 1143, 2150, 2775, 886, 1722, 1212, 1874, 1029, 2110, 2935, 885, 2154] ∧
  (List.range 128).map gammas =
    [17, 3312, 2761, 568, 583, 2746, 2649, 680, 1637, 1692, 723, 2606, 2288, 1041, 1100, 2229]
    ++ [1409, 1920, 2662, 667, 3281, 48, 233, 3096, 756, 2573, 2156, 1173, 3015, 314, 3050, 279]
    ++ [1703, 1626, 1651, 1678, 2789, 540, 1789, 1540, 1847, 1482, 952, 2377, 1461, 1868, 2687, 642]
    ++ [939, 2390, 2308, 1021, 2437, 892, 2388, 941, 733, 2596, 2337, 992, 268, 3061, 641, 2688]
    ++ [1584, 1745, 2298, 1031, 2037, 1292, 3220, 109, 375, 2954, 2549, 780, 2090, 1239, 1645, 1684]
    ++ [1063, 2266, 319, 3010, 2773, 556, 757, 2572, 2099, 1230, 561, 2768, 2466, 863, 2594, 735]
    ++ [2804, 525, 1092, 2237, 403, 2926, 1026, 2303, 1143, 2186, 2150, 1179, 2775, 554, 886, 2443]
    ++ [1722, 1607, 1212, 2117, 1874, 1455, 1029, 2300, 2110, 1219, 2935, 394, 885, 2444, 2154, 1175] ∧
  ∀ m, m < 64 → gammas (2 * m) = zetas (64 + m) ∧ gammas (2 * m + 1) = 3329 - gammas (2 * m)

/-- R101: the algebraic laws of ADD, SUB, SMUL and PMUL on the values their Completes write. -/
def Obligations.RingLaws : Prop :=
  ∀ a b c : Coeffs, Below 3329 a →
    addCoeffs a b = addCoeffs b a ∧ mulPairs a b = mulPairs b a ∧
    subCoeffs (addCoeffs a b) b = a ∧
    (∀ m n, scaleCoeffs (scaleCoeffs a m) n = scaleCoeffs a (m * n % 3329)) ∧
    mulPairs a (addCoeffs b c) = addCoeffs (mulPairs a b) (mulPairs a c)

/-- R111: NTT of a COEF-domain register, and INTT of its result in any later state that holds it, leave the value
the first command read, with the tag COEF. -/
def Obligations.NttRoundTrip : Prop :=
  ∀ (s u : State) (w w' : Word) (ra rb rc : Reg) (f : Coeffs), Below 3329 f →
    s.eng = .exec w → s.p[ra] = .coef f →
    ∃ t, exec (.ntt rb ra) s = .next t ∧
      (u.eng = .exec w' → u.p[rb] = t.p[rb] → ∃ v, exec (.intt rc rb) u = .next v ∧ v.p[rc] = .coef f)

/-- R115: both transforms are linear over the integers modulo Q, so ADD, SUB and SMUL give the same result before or
after a transform. -/
def Obligations.NttIsLinear : Prop :=
  ∀ (f g : Coeffs) (n : Nat),
    nttCoeffs (addCoeffs f g) = addCoeffs (nttCoeffs f) (nttCoeffs g) ∧
    nttCoeffs (subCoeffs f g) = subCoeffs (nttCoeffs f) (nttCoeffs g) ∧
    nttCoeffs (scaleCoeffs f n) = scaleCoeffs (nttCoeffs f) n ∧
    inttCoeffs (addCoeffs f g) = addCoeffs (inttCoeffs f) (inttCoeffs g) ∧
    inttCoeffs (subCoeffs f g) = subCoeffs (inttCoeffs f) (inttCoeffs g) ∧
    inttCoeffs (scaleCoeffs f n) = scaleCoeffs (inttCoeffs f) n

/-- R99: the transform product is the negacyclic convolution, the product modulo X^256 + 1. -/
def Obligations.NttProductIsNegacyclic : Prop :=
  ∀ f g : Coeffs, Below 3329 f → Below 3329 g → ∀ k, k < 256 →
    coeffAt (inttCoeffs (mulPairs (nttCoeffs f) (nttCoeffs g))) k = negacyclicAt f g k

/-- R134, R135: compressing after decompressing is the identity on values of D bits; decompressing after compressing
moves a value by at most Q/2^(D+1), rounded to the nearest integer with ties up, as a distance modulo Q. -/
def Obligations.CompressionLaws : Prop :=
  ∀ (d : Nat) (a : Coeffs), 1 ≤ d → d ≤ 11 →
    (Below (2 ^ d) a → compressCoeffs d (decompressCoeffs d a) = a) ∧
    (Below 3329 a → ∀ i, i < 256 →
      distQ (coeffAt (decompressCoeffs d (compressCoeffs d a)) i) (coeffAt a i) ≤
        (3329 + 2 ^ d) / 2 ^ (d + 1))

/-- R141: DEC, in any later state that holds the bytes an ENC wrote, restores the register ENC read, tag and width
included, and leaves RNG; ENC, in any later state that holds the register a DEC wrote, writes the bytes DEC read, for
D = 12 exactly when no field is at least Q, that is when that DEC leaves RNG unchanged. -/
def Obligations.EncodeDecodeRoundTrips : Prop :=
  (∀ (s u : State) (w w' : Word) (p q : Reg) (d : BitVec 4) (addr : BufAddr),
    s.eng = .exec w → s.p[p].Valid → addr.toNat + 32 * d.toNat ≤ 4096 →
    (d.toNat = 12 ∧ (s.p[p].tag = .coef ∨ s.p[p].tag = .ntt) ∨
      d.toNat < 12 ∧ s.p[p].tag = .cmpr ∧ s.p[p].cw = d) →
    ∃ t, exec (.enc p d addr) s = .next t ∧
      (u.eng = .exec w' → u.buf = t.buf →
        ∃ v, exec (.dec q d s.p[p].tag addr) u = .next v ∧ v.p[q] = s.p[p] ∧ v.rng = u.rng)) ∧
  (∀ (s u : State) (w w' : Word) (p : Reg) (d : BitVec 4) (tag : Tag) (addr addr' : BufAddr) (bytes : Nat → Byte),
    (Instr.dec p d tag addr).wellFormed = true → s.eng = .exec w → Holds s addr.toNat (32 * d.toNat) bytes →
    addr'.toNat + 32 * d.toNat ≤ 4096 →
    ∃ t, exec (.dec p d tag addr) s = .next t ∧
      (d.toNat = 12 → s.rng = false → (t.rng = false ↔ ∀ i, i < 256 → streamField bytes 12 i < 3329)) ∧
      (u.eng = .exec w' → u.p[p] = t.p[p] →
        ∃ v, exec (.enc p d addr') u = .next v ∧
          (d.toNat < 12 → Holds v addr'.toNat (32 * d.toNat) bytes) ∧
          (d.toNat = 12 →
            (Holds v addr'.toNat (32 * d.toNat) bytes ↔ ∀ i, i < 256 → streamField bytes 12 i < 3329))))
end

