-- ==== Sys2Proof/Laws/Memory.lean ====
section
/-! SUPPORT. The laws of the byte buffer: read after write, and the canonical form. -/

namespace Sys2Proof.Machine

/-- Reading the byte just written gives the value written. -/
@[simp] theorem Memory.read_write_same (m : List Host.Cell) (a : Nat) (v : Byte) :
    Memory.read (Memory.write m a v) a = some v := by
  induction m with
  | nil => simp [Memory.write, Memory.read]
  | cons c m ih =>
    obtain ⟨b, u⟩ := c
    unfold Memory.write
    split
    · simp [Memory.read]
    · split
      · simp [Memory.read]
      · rename_i h
        simp [Memory.read, Ne.symm h, ih]

/-- A write leaves every other byte alone. -/
theorem Memory.read_write_ne (m : List Host.Cell) {a b : Nat} (v : Byte) (h : b ≠ a) :
    Memory.read (Memory.write m a v) b = Memory.read m b := by
  induction m with
  | nil => simp [Memory.write, Memory.read, Ne.symm h]
  | cons c m ih =>
    obtain ⟨d, u⟩ := c
    unfold Memory.write
    split
    · simp [Memory.read, Ne.symm h]
    · split
      · rename_i e
        subst e
        simp [Memory.read, Ne.symm h]
      · simp [Memory.read, ih]

/-- A sequence of writes leaves every byte outside its range alone. -/
theorem Memory.read_writeBytes_outside (bs : List Byte) (m : List Host.Cell) {a b : Nat}
    (h : b < a ∨ a + bs.length ≤ b) : Memory.read (Memory.writeBytes m a bs) b = Memory.read m b := by
  induction bs generalizing m a with
  | nil => rfl
  | cons v bs ih =>
    simp only [List.length_cons] at h
    rw [Memory.writeBytes, ih _ (by omega), Memory.read_write_ne _ _ (by omega)]

/-- A sequence of writes leaves byte k of the sequence at the k-th address. -/
theorem Memory.read_writeBytes_inside (bs : List Byte) (m : List Host.Cell) (a k : Nat)
    (h : k < bs.length) : Memory.read (Memory.writeBytes m a bs) (a + k) = some bs[k] := by
  induction bs generalizing m a k with
  | nil => simp at h
  | cons v bs ih =>
    rw [Memory.writeBytes]
    cases k with
    | zero => rw [Memory.read_writeBytes_outside _ _ (by omega)]; simp
    | succ k =>
      have := ih (Memory.write m a v) (a + 1) k (by simpa using h)
      rw [show a + (k + 1) = a + 1 + k by omega, this]
      simp

/-- MemRead gives as many bytes as it was asked for. -/
theorem Memory.readBytes_length {m : List Host.Cell} {a n : Nat} {bs : List Byte}
    (h : Memory.readBytes m a n = some bs) : bs.length = n := by
  induction n generalizing a bs with
  | zero => simp only [Memory.readBytes, Option.some.injEq] at h; subst h; rfl
  | succ n ih =>
    rw [Memory.readBytes] at h
    split at h
    · simp at h
    · split at h
      · simp at h
      · rename_i vs hv
        cases h
        simp [ih hv]

/-- MemRead of bytes just written by MemWrite gives them back. -/
theorem Memory.readBytes_writeBytes (bs : List Byte) (m : List Host.Cell) (a : Nat) :
    Memory.readBytes (Memory.writeBytes m a bs) a bs.length = some bs := by
  induction bs generalizing m a with
  | nil => rfl
  | cons v bs ih =>
    rw [List.length_cons, Memory.readBytes, Memory.writeBytes,
      Memory.read_writeBytes_outside _ _ (by omega), Memory.read_write_same]
    simp [ih]

/-- MemRead depends only on the bytes of its range. -/
theorem Memory.readBytes_congr {m m' : List Host.Cell} {a n : Nat}
    (h : ∀ b, a ≤ b → b < a + n → Memory.read m' b = Memory.read m b) :
    Memory.readBytes m' a n = Memory.readBytes m a n := by
  induction n generalizing a with
  | zero => rfl
  | succ n ih =>
    rw [Memory.readBytes, Memory.readBytes, h a (by omega) (by omega), ih fun b h1 h2 => h b (by omega) (by omega)]

/-- A lower start makes the rising condition weaker. -/
theorem Memory.risesFrom_mono {m : List Host.Cell} {lo lo' : Nat} (h : Memory.risesFrom lo m = true)
    (hl : lo' ≤ lo) : Memory.risesFrom lo' m = true := by
  cases m with
  | nil => rfl
  | cons c m =>
    obtain ⟨b, u⟩ := c
    simp only [Memory.risesFrom, Bool.and_eq_true, decide_eq_true_eq] at h ⊢
    exact ⟨⟨by omega, h.1.2⟩, h.2⟩

/-- A write inside BUF keeps the rising form. -/
theorem Memory.risesFrom_write {m : List Host.Cell} {lo a : Nat} (v : Byte)
    (h : Memory.risesFrom lo m = true) (hl : lo ≤ a) (ha : a < Config.bufSize) :
    Memory.risesFrom lo (Memory.write m a v) = true := by
  induction m generalizing lo with
  | nil => simp only [Memory.write, Memory.risesFrom, Bool.and_true, decide_eq_true_eq]; exact ⟨hl, ha⟩
  | cons c m ih =>
    obtain ⟨b, u⟩ := c
    simp only [Memory.risesFrom, Bool.and_eq_true, decide_eq_true_eq] at h
    unfold Memory.write
    split
    · rename_i hab
      simp only [Memory.risesFrom, Bool.and_eq_true, decide_eq_true_eq]
      exact ⟨⟨hl, ha⟩, ⟨by omega, h.1.2⟩, h.2⟩
    · split
      · rename_i hab
        subst hab
        simp only [Memory.risesFrom, Bool.and_eq_true, decide_eq_true_eq]
        exact ⟨⟨hl, ha⟩, h.2⟩
      · simp only [Memory.risesFrom, Bool.and_eq_true, decide_eq_true_eq]
        exact ⟨h.1, ih h.2 (by omega)⟩

/-- A write inside BUF keeps the canonical form. -/
theorem Memory.wf_write {m : List Host.Cell} {a : Nat} (v : Byte) (h : Memory.wf m = true)
    (ha : a < Config.bufSize) : Memory.wf (Memory.write m a v) = true :=
  Memory.risesFrom_write v h (Nat.zero_le a) ha

/-- A sequence of writes inside BUF keeps the canonical form. -/
theorem Memory.wf_writeBytes (bs : List Byte) {m : List Host.Cell} {a : Nat} (h : Memory.wf m = true)
    (ha : a + bs.length ≤ Config.bufSize) : Memory.wf (Memory.writeBytes m a bs) = true := by
  induction bs generalizing m a with
  | nil => exact h
  | cons v bs ih =>
    simp only [List.length_cons] at ha
    exact ih (Memory.wf_write v h (by omega)) (by omega)

/-- Below the start of the cells nothing is written. -/
theorem Memory.read_below {m : List Host.Cell} {lo a : Nat} (h : Memory.risesFrom lo m = true)
    (ha : a < lo) : Memory.read m a = none := by
  induction m generalizing lo with
  | nil => rfl
  | cons c m ih =>
    obtain ⟨b, u⟩ := c
    simp only [Memory.risesFrom, Bool.and_eq_true, decide_eq_true_eq] at h
    rw [Memory.read, if_neg (by omega), ih h.2 (by omega)]

/-- Two canonical buffers that read the same are the same list. -/
theorem Memory.ext_of_read {m m' : List Host.Cell} {lo : Nat} (h : Memory.risesFrom lo m = true)
    (h' : Memory.risesFrom lo m' = true) (e : ∀ a, Memory.read m a = Memory.read m' a) : m = m' := by
  induction m generalizing m' lo with
  | nil =>
    cases m' with
    | nil => rfl
    | cons c m' => have := e c.1; simp [Memory.read] at this
  | cons c m ih =>
    obtain ⟨b, u⟩ := c
    cases m' with
    | nil => have := e b; simp [Memory.read] at this
    | cons c' m' =>
      obtain ⟨b', u'⟩ := c'
      simp only [Memory.risesFrom, Bool.and_eq_true, decide_eq_true_eq] at h h'
      have hb : b = b' := by
        rcases Nat.lt_trichotomy b b' with hlt | heq | hlt
        · have := e b
          rw [Memory.read, if_pos rfl, Memory.read, if_neg (by omega), Memory.read_below h'.2 (by omega)] at this
          simp at this
        · exact heq
        · have := e b'
          rw [Memory.read, if_neg (by omega), Memory.read_below h.2 (by omega), Memory.read, if_pos rfl] at this
          simp at this
      subst hb
      have hu : u = u' := by simpa [Memory.read] using e b
      subst hu
      have : m = m' := by
        refine ih h.2 h'.2 fun a => ?_
        by_cases hab : b = a
        · subst hab
          rw [Memory.read_below h.2 (by omega), Memory.read_below h'.2 (by omega)]
        · have := e a
          rwa [Memory.read, if_neg hab, Memory.read, if_neg hab] at this
      rw [this]

end Sys2Proof.Machine
end

