-- ==== Sys2Proof/Laws/State.lean ====
section
/-! SUPPORT. One lemma per field and per named update of the state, each true by unfolding the update once. -/

namespace Sys2Proof.Machine

/-! ### State.setP -/

@[simp] theorem setP_p (s : State) (r : Reg) (v : Poly) : (s.setP r v).p = s.p.set r v := rfl
@[simp] theorem setP_buf (s : State) (r : Reg) (v : Poly) : (s.setP r v).buf = s.buf := rfl
@[simp] theorem setP_queue (s : State) (r : Reg) (v : Poly) : (s.setP r v).queue = s.queue := rfl
@[simp] theorem setP_eng (s : State) (r : Reg) (v : Poly) : (s.setP r v).eng = s.eng := rfl
@[simp] theorem setP_ieDone (s : State) (r : Reg) (v : Poly) : (s.setP r v).ieDone = s.ieDone := rfl
@[simp] theorem setP_ieErr (s : State) (r : Reg) (v : Poly) : (s.setP r v).ieErr = s.ieErr := rfl
@[simp] theorem setP_done (s : State) (r : Reg) (v : Poly) : (s.setP r v).done = s.done := rfl
@[simp] theorem setP_err (s : State) (r : Reg) (v : Poly) : (s.setP r v).err = s.err := rfl
@[simp] theorem setP_flt (s : State) (r : Reg) (v : Poly) : (s.setP r v).flt = s.flt := rfl
@[simp] theorem setP_rng (s : State) (r : Reg) (v : Poly) : (s.setP r v).rng = s.rng := rfl
@[simp] theorem setP_xspur (s : State) (r : Reg) (v : Poly) : (s.setP r v).xspur = s.xspur := rfl
@[simp] theorem setP_xcnt (s : State) (r : Reg) (v : Poly) : (s.setP r v).xcnt = s.xcnt := rfl
@[simp] theorem setP_cmdcnt (s : State) (r : Reg) (v : Poly) : (s.setP r v).cmdcnt = s.cmdcnt := rfl
@[simp] theorem setP_errinfo (s : State) (r : Reg) (v : Poly) : (s.setP r v).errinfo = s.errinfo := rfl
@[simp] theorem setP_xofIn (s : State) (r : Reg) (v : Poly) : (s.setP r v).xofIn = s.xofIn := rfl
@[simp] theorem setP_answer (s : State) (r : Reg) (v : Poly) : (s.setP r v).answer = s.answer := rfl
@[simp] theorem setP_schedule (s : State) (r : Reg) (v : Poly) : (s.setP r v).schedule = s.schedule := rfl

/-! ### beginExec -/

@[simp] theorem beginExec_p (s : State) : (beginExec s).p = s.p := rfl
@[simp] theorem beginExec_buf (s : State) : (beginExec s).buf = s.buf := rfl
@[simp] theorem beginExec_queue (s : State) : (beginExec s).queue = s.queue := rfl
@[simp] theorem beginExec_eng (s : State) : (beginExec s).eng = (.exec s.head) := rfl
@[simp] theorem beginExec_ieDone (s : State) : (beginExec s).ieDone = s.ieDone := rfl
@[simp] theorem beginExec_ieErr (s : State) : (beginExec s).ieErr = s.ieErr := rfl
@[simp] theorem beginExec_done (s : State) : (beginExec s).done = s.done := rfl
@[simp] theorem beginExec_err (s : State) : (beginExec s).err = s.err := rfl
@[simp] theorem beginExec_flt (s : State) : (beginExec s).flt = s.flt := rfl
@[simp] theorem beginExec_rng (s : State) : (beginExec s).rng = s.rng := rfl
@[simp] theorem beginExec_xspur (s : State) : (beginExec s).xspur = s.xspur := rfl
@[simp] theorem beginExec_xcnt (s : State) : (beginExec s).xcnt = s.xcnt := rfl
@[simp] theorem beginExec_cmdcnt (s : State) : (beginExec s).cmdcnt = s.cmdcnt := rfl
@[simp] theorem beginExec_errinfo (s : State) : (beginExec s).errinfo = s.errinfo := rfl
@[simp] theorem beginExec_xofIn (s : State) : (beginExec s).xofIn = s.xofIn := rfl
@[simp] theorem beginExec_answer (s : State) : (beginExec s).answer = s.answer := rfl
@[simp] theorem beginExec_schedule (s : State) : (beginExec s).schedule = s.schedule := rfl

/-! ### retire -/

@[simp] theorem retire_p (s : State) : (retire s).p = s.p := rfl
@[simp] theorem retire_buf (s : State) : (retire s).buf = s.buf := rfl
@[simp] theorem retire_queue (s : State) : (retire s).queue = s.queue.tail := rfl
@[simp] theorem retire_eng (s : State) : (retire s).eng = (.idle) := rfl
@[simp] theorem retire_ieDone (s : State) : (retire s).ieDone = s.ieDone := rfl
@[simp] theorem retire_ieErr (s : State) : (retire s).ieErr = s.ieErr := rfl
@[simp] theorem retire_done (s : State) : (retire s).done = (s.done || s.queue.tail.isEmpty) := rfl
@[simp] theorem retire_err (s : State) : (retire s).err = s.err := rfl
@[simp] theorem retire_flt (s : State) : (retire s).flt = s.flt := rfl
@[simp] theorem retire_rng (s : State) : (retire s).rng = s.rng := rfl
@[simp] theorem retire_xspur (s : State) : (retire s).xspur = s.xspur := rfl
@[simp] theorem retire_xcnt (s : State) : (retire s).xcnt = s.xcnt := rfl
@[simp] theorem retire_cmdcnt (s : State) : (retire s).cmdcnt = s.cmdcnt + 1 := rfl
@[simp] theorem retire_errinfo (s : State) : (retire s).errinfo = s.errinfo := rfl
@[simp] theorem retire_xofIn (s : State) : (retire s).xofIn = s.xofIn := rfl
@[simp] theorem retire_answer (s : State) : (retire s).answer = s.answer := rfl
@[simp] theorem retire_schedule (s : State) : (retire s).schedule = s.schedule := rfl

/-! ### clearErr -/

@[simp] theorem clearErr_p (s : State) : (clearErr s).p = s.p := rfl
@[simp] theorem clearErr_buf (s : State) : (clearErr s).buf = s.buf := rfl
@[simp] theorem clearErr_queue (s : State) : (clearErr s).queue = if s.eng = .idle then [] else s.queue.take 1 := rfl
@[simp] theorem clearErr_eng (s : State) : (clearErr s).eng = s.eng := rfl
@[simp] theorem clearErr_ieDone (s : State) : (clearErr s).ieDone = s.ieDone := rfl
@[simp] theorem clearErr_ieErr (s : State) : (clearErr s).ieErr = s.ieErr := rfl
@[simp] theorem clearErr_done (s : State) : (clearErr s).done = s.done := rfl
@[simp] theorem clearErr_err (s : State) : (clearErr s).err = none := rfl
@[simp] theorem clearErr_flt (s : State) : (clearErr s).flt = s.flt := rfl
@[simp] theorem clearErr_rng (s : State) : (clearErr s).rng = s.rng := rfl
@[simp] theorem clearErr_xspur (s : State) : (clearErr s).xspur = s.xspur := rfl
@[simp] theorem clearErr_xcnt (s : State) : (clearErr s).xcnt = s.xcnt := rfl
@[simp] theorem clearErr_cmdcnt (s : State) : (clearErr s).cmdcnt = s.cmdcnt := rfl
@[simp] theorem clearErr_errinfo (s : State) : (clearErr s).errinfo = s.errinfo := rfl
@[simp] theorem clearErr_xofIn (s : State) : (clearErr s).xofIn = s.xofIn := rfl
@[simp] theorem clearErr_answer (s : State) : (clearErr s).answer = s.answer := rfl
@[simp] theorem clearErr_schedule (s : State) : (clearErr s).schedule = s.schedule := rfl

/-! ### softReset -/

@[simp] theorem softReset_p (s : State) : (softReset s).p = Vector.replicate 16 .empty := rfl
@[simp] theorem softReset_buf (s : State) : (softReset s).buf = s.buf := rfl
@[simp] theorem softReset_queue (s : State) : (softReset s).queue = [] := rfl
@[simp] theorem softReset_eng (s : State) : (softReset s).eng = (.idle) := rfl
@[simp] theorem softReset_ieDone (s : State) : (softReset s).ieDone = false := rfl
@[simp] theorem softReset_ieErr (s : State) : (softReset s).ieErr = false := rfl
@[simp] theorem softReset_done (s : State) : (softReset s).done = false := rfl
@[simp] theorem softReset_err (s : State) : (softReset s).err = none := rfl
@[simp] theorem softReset_flt (s : State) : (softReset s).flt = none := rfl
@[simp] theorem softReset_rng (s : State) : (softReset s).rng = false := rfl
@[simp] theorem softReset_xspur (s : State) : (softReset s).xspur = false := rfl
@[simp] theorem softReset_xcnt (s : State) : (softReset s).xcnt = 0 := rfl
@[simp] theorem softReset_cmdcnt (s : State) : (softReset s).cmdcnt = 0 := rfl
@[simp] theorem softReset_errinfo (s : State) : (softReset s).errinfo = 0 := rfl
@[simp] theorem softReset_xofIn (s : State) : (softReset s).xofIn = s.xofIn := rfl
@[simp] theorem softReset_answer (s : State) : (softReset s).answer = s.answer := rfl
@[simp] theorem softReset_schedule (s : State) : (softReset s).schedule = s.schedule := rfl

/-! ### powerOnReset -/

@[simp] theorem powerOnReset_p (s : State) : (powerOnReset s).p = Vector.replicate 16 .empty := rfl
@[simp] theorem powerOnReset_buf (s : State) : (powerOnReset s).buf = [] := rfl
@[simp] theorem powerOnReset_queue (s : State) : (powerOnReset s).queue = [] := rfl
@[simp] theorem powerOnReset_eng (s : State) : (powerOnReset s).eng = (.idle) := rfl
@[simp] theorem powerOnReset_ieDone (s : State) : (powerOnReset s).ieDone = false := rfl
@[simp] theorem powerOnReset_ieErr (s : State) : (powerOnReset s).ieErr = false := rfl
@[simp] theorem powerOnReset_done (s : State) : (powerOnReset s).done = false := rfl
@[simp] theorem powerOnReset_err (s : State) : (powerOnReset s).err = none := rfl
@[simp] theorem powerOnReset_flt (s : State) : (powerOnReset s).flt = none := rfl
@[simp] theorem powerOnReset_rng (s : State) : (powerOnReset s).rng = false := rfl
@[simp] theorem powerOnReset_xspur (s : State) : (powerOnReset s).xspur = false := rfl
@[simp] theorem powerOnReset_xcnt (s : State) : (powerOnReset s).xcnt = 0 := rfl
@[simp] theorem powerOnReset_cmdcnt (s : State) : (powerOnReset s).cmdcnt = 0 := rfl
@[simp] theorem powerOnReset_errinfo (s : State) : (powerOnReset s).errinfo = 0 := rfl
@[simp] theorem powerOnReset_xofIn (s : State) : (powerOnReset s).xofIn = s.xofIn := rfl
@[simp] theorem powerOnReset_answer (s : State) : (powerOnReset s).answer = s.answer := rfl
@[simp] theorem powerOnReset_schedule (s : State) : (powerOnReset s).schedule = s.schedule := rfl

/-! ### placeCommand -/

@[simp] theorem placeCommand_p (w : Word) (s : State) : (placeCommand w s).p = s.p := rfl
@[simp] theorem placeCommand_buf (w : Word) (s : State) : (placeCommand w s).buf = s.buf := rfl
@[simp] theorem placeCommand_queue (w : Word) (s : State) : (placeCommand w s).queue = w :: s.queue.tail := rfl
@[simp] theorem placeCommand_eng (w : Word) (s : State) : (placeCommand w s).eng = (.idle) := rfl
@[simp] theorem placeCommand_ieDone (w : Word) (s : State) : (placeCommand w s).ieDone = s.ieDone := rfl
@[simp] theorem placeCommand_ieErr (w : Word) (s : State) : (placeCommand w s).ieErr = s.ieErr := rfl
@[simp] theorem placeCommand_done (w : Word) (s : State) : (placeCommand w s).done = s.done := rfl
@[simp] theorem placeCommand_err (w : Word) (s : State) : (placeCommand w s).err = none := rfl
@[simp] theorem placeCommand_flt (w : Word) (s : State) : (placeCommand w s).flt = none := rfl
@[simp] theorem placeCommand_rng (w : Word) (s : State) : (placeCommand w s).rng = s.rng := rfl
@[simp] theorem placeCommand_xspur (w : Word) (s : State) : (placeCommand w s).xspur = s.xspur := rfl
@[simp] theorem placeCommand_xcnt (w : Word) (s : State) : (placeCommand w s).xcnt = s.xcnt := rfl
@[simp] theorem placeCommand_cmdcnt (w : Word) (s : State) : (placeCommand w s).cmdcnt = s.cmdcnt := rfl
@[simp] theorem placeCommand_errinfo (w : Word) (s : State) : (placeCommand w s).errinfo = s.errinfo := rfl
@[simp] theorem placeCommand_xofIn (w : Word) (s : State) : (placeCommand w s).xofIn = s.xofIn := rfl
@[simp] theorem placeCommand_answer (w : Word) (s : State) : (placeCommand w s).answer = s.answer := rfl
@[simp] theorem placeCommand_schedule (w : Word) (s : State) : (placeCommand w s).schedule = [] := rfl

/-! ### beginSampling -/

@[simp] theorem beginSampling_p (rd : Reg) (s : State) : (beginSampling rd s).p = s.p.set rd .empty := rfl
@[simp] theorem beginSampling_buf (rd : Reg) (s : State) : (beginSampling rd s).buf = s.buf := rfl
@[simp] theorem beginSampling_queue (rd : Reg) (s : State) : (beginSampling rd s).queue = s.queue := rfl
@[simp] theorem beginSampling_eng (rd : Reg) (s : State) : (beginSampling rd s).eng = (.sampling rd [] s.head) := rfl
@[simp] theorem beginSampling_ieDone (rd : Reg) (s : State) : (beginSampling rd s).ieDone = s.ieDone := rfl
@[simp] theorem beginSampling_ieErr (rd : Reg) (s : State) : (beginSampling rd s).ieErr = s.ieErr := rfl
@[simp] theorem beginSampling_done (rd : Reg) (s : State) : (beginSampling rd s).done = s.done := rfl
@[simp] theorem beginSampling_err (rd : Reg) (s : State) : (beginSampling rd s).err = s.err := rfl
@[simp] theorem beginSampling_flt (rd : Reg) (s : State) : (beginSampling rd s).flt = s.flt := rfl
@[simp] theorem beginSampling_rng (rd : Reg) (s : State) : (beginSampling rd s).rng = s.rng := rfl
@[simp] theorem beginSampling_xspur (rd : Reg) (s : State) : (beginSampling rd s).xspur = s.xspur := rfl
@[simp] theorem beginSampling_xcnt (rd : Reg) (s : State) : (beginSampling rd s).xcnt = 0 := rfl
@[simp] theorem beginSampling_cmdcnt (rd : Reg) (s : State) : (beginSampling rd s).cmdcnt = s.cmdcnt := rfl
@[simp] theorem beginSampling_errinfo (rd : Reg) (s : State) : (beginSampling rd s).errinfo = s.errinfo := rfl
@[simp] theorem beginSampling_xofIn (rd : Reg) (s : State) : (beginSampling rd s).xofIn = s.xofIn := rfl
@[simp] theorem beginSampling_answer (rd : Reg) (s : State) : (beginSampling rd s).answer = s.answer := rfl
@[simp] theorem beginSampling_schedule (rd : Reg) (s : State) : (beginSampling rd s).schedule = s.schedule := rfl

/-! ### offerChunk -/

@[simp] theorem offerChunk_p (c : Chunk) (s : State) : (offerChunk c s).p = s.p := rfl
@[simp] theorem offerChunk_buf (c : Chunk) (s : State) : (offerChunk c s).buf = s.buf := rfl
@[simp] theorem offerChunk_queue (c : Chunk) (s : State) : (offerChunk c s).queue = s.queue := rfl
@[simp] theorem offerChunk_eng (c : Chunk) (s : State) : (offerChunk c s).eng = s.eng := rfl
@[simp] theorem offerChunk_ieDone (c : Chunk) (s : State) : (offerChunk c s).ieDone = s.ieDone := rfl
@[simp] theorem offerChunk_ieErr (c : Chunk) (s : State) : (offerChunk c s).ieErr = s.ieErr := rfl
@[simp] theorem offerChunk_done (c : Chunk) (s : State) : (offerChunk c s).done = s.done := rfl
@[simp] theorem offerChunk_err (c : Chunk) (s : State) : (offerChunk c s).err = s.err := rfl
@[simp] theorem offerChunk_flt (c : Chunk) (s : State) : (offerChunk c s).flt = s.flt := rfl
@[simp] theorem offerChunk_rng (c : Chunk) (s : State) : (offerChunk c s).rng = s.rng := rfl
@[simp] theorem offerChunk_xspur (c : Chunk) (s : State) : (offerChunk c s).xspur = s.xspur := rfl
@[simp] theorem offerChunk_xcnt (c : Chunk) (s : State) : (offerChunk c s).xcnt = s.xcnt := rfl
@[simp] theorem offerChunk_cmdcnt (c : Chunk) (s : State) : (offerChunk c s).cmdcnt = s.cmdcnt := rfl
@[simp] theorem offerChunk_errinfo (c : Chunk) (s : State) : (offerChunk c s).errinfo = s.errinfo := rfl
@[simp] theorem offerChunk_xofIn (c : Chunk) (s : State) : (offerChunk c s).xofIn = some c := rfl
@[simp] theorem offerChunk_answer (c : Chunk) (s : State) : (offerChunk c s).answer = s.answer := rfl
@[simp] theorem offerChunk_schedule (c : Chunk) (s : State) : (offerChunk c s).schedule = s.schedule := rfl

/-! ### withTurns -/

@[simp] theorem withTurns_p (rest : List Turn) (s : State) : (withTurns rest s).p = s.p := rfl
@[simp] theorem withTurns_buf (rest : List Turn) (s : State) : (withTurns rest s).buf = s.buf := rfl
@[simp] theorem withTurns_queue (rest : List Turn) (s : State) : (withTurns rest s).queue = s.queue := rfl
@[simp] theorem withTurns_eng (rest : List Turn) (s : State) : (withTurns rest s).eng = s.eng := rfl
@[simp] theorem withTurns_ieDone (rest : List Turn) (s : State) : (withTurns rest s).ieDone = s.ieDone := rfl
@[simp] theorem withTurns_ieErr (rest : List Turn) (s : State) : (withTurns rest s).ieErr = s.ieErr := rfl
@[simp] theorem withTurns_done (rest : List Turn) (s : State) : (withTurns rest s).done = s.done := rfl
@[simp] theorem withTurns_err (rest : List Turn) (s : State) : (withTurns rest s).err = s.err := rfl
@[simp] theorem withTurns_flt (rest : List Turn) (s : State) : (withTurns rest s).flt = s.flt := rfl
@[simp] theorem withTurns_rng (rest : List Turn) (s : State) : (withTurns rest s).rng = s.rng := rfl
@[simp] theorem withTurns_xspur (rest : List Turn) (s : State) : (withTurns rest s).xspur = s.xspur := rfl
@[simp] theorem withTurns_xcnt (rest : List Turn) (s : State) : (withTurns rest s).xcnt = s.xcnt := rfl
@[simp] theorem withTurns_cmdcnt (rest : List Turn) (s : State) : (withTurns rest s).cmdcnt = s.cmdcnt := rfl
@[simp] theorem withTurns_errinfo (rest : List Turn) (s : State) : (withTurns rest s).errinfo = s.errinfo := rfl
@[simp] theorem withTurns_xofIn (rest : List Turn) (s : State) : (withTurns rest s).xofIn = s.xofIn := rfl
@[simp] theorem withTurns_answer (rest : List Turn) (s : State) : (withTurns rest s).answer = s.answer := rfl
@[simp] theorem withTurns_schedule (rest : List Turn) (s : State) : (withTurns rest s).schedule = rest := rfl

/-! ### recordExc and takeExc -/

@[simp] theorem recordExc_p (e : Exc) (w : Word) (s : State) : (recordExc e w s).p = s.p := by
  cases e <;> rfl
@[simp] theorem recordExc_buf (e : Exc) (w : Word) (s : State) : (recordExc e w s).buf = s.buf := by
  cases e <;> rfl
@[simp] theorem recordExc_queue (e : Exc) (w : Word) (s : State) : (recordExc e w s).queue = s.queue := by
  cases e <;> rfl
@[simp] theorem recordExc_eng (e : Exc) (w : Word) (s : State) : (recordExc e w s).eng = s.eng := by
  cases e <;> rfl
@[simp] theorem recordExc_ieDone (e : Exc) (w : Word) (s : State) : (recordExc e w s).ieDone = s.ieDone := by
  cases e <;> rfl
@[simp] theorem recordExc_ieErr (e : Exc) (w : Word) (s : State) : (recordExc e w s).ieErr = s.ieErr := by
  cases e <;> rfl
@[simp] theorem recordExc_done (e : Exc) (w : Word) (s : State) : (recordExc e w s).done = s.done := by
  cases e <;> rfl
@[simp] theorem recordExc_rng (e : Exc) (w : Word) (s : State) : (recordExc e w s).rng = s.rng := by
  cases e <;> rfl
@[simp] theorem recordExc_xspur (e : Exc) (w : Word) (s : State) : (recordExc e w s).xspur = s.xspur := by
  cases e <;> rfl
@[simp] theorem recordExc_xcnt (e : Exc) (w : Word) (s : State) : (recordExc e w s).xcnt = s.xcnt := by
  cases e <;> rfl
@[simp] theorem recordExc_cmdcnt (e : Exc) (w : Word) (s : State) : (recordExc e w s).cmdcnt = s.cmdcnt := by
  cases e <;> rfl
@[simp] theorem recordExc_errinfo (e : Exc) (w : Word) (s : State) : (recordExc e w s).errinfo = w := by
  cases e <;> rfl
@[simp] theorem recordExc_xofIn (e : Exc) (w : Word) (s : State) : (recordExc e w s).xofIn = s.xofIn := by
  cases e <;> rfl
@[simp] theorem recordExc_answer (e : Exc) (w : Word) (s : State) : (recordExc e w s).answer = s.answer := by
  cases e <;> rfl
@[simp] theorem recordExc_schedule (e : Exc) (w : Word) (s : State) : (recordExc e w s).schedule = s.schedule := by
  cases e <;> rfl
@[simp] theorem recordExc_error_err (c : ErrCode) (w : Word) (s : State) : (recordExc (.error c) w s).err = some c := rfl
@[simp] theorem recordExc_error_flt (c : ErrCode) (w : Word) (s : State) : (recordExc (.error c) w s).flt = s.flt := rfl
@[simp] theorem recordExc_fault_err (c : FaultCause) (w : Word) (s : State) : (recordExc (.fault c) w s).err = s.err := rfl
@[simp] theorem recordExc_fault_flt (c : FaultCause) (w : Word) (s : State) : (recordExc (.fault c) w s).flt = some c := rfl

@[simp] theorem takeExc_p (e : Exc) (s : State) : (takeExc e s).p = s.p := by
  cases e <;> rfl
@[simp] theorem takeExc_buf (e : Exc) (s : State) : (takeExc e s).buf = s.buf := by
  cases e <;> rfl
@[simp] theorem takeExc_queue (e : Exc) (s : State) : (takeExc e s).queue = s.queue.tail := by
  cases e <;> rfl
@[simp] theorem takeExc_eng (e : Exc) (s : State) : (takeExc e s).eng = s.eng := by
  cases e <;> rfl
@[simp] theorem takeExc_ieDone (e : Exc) (s : State) : (takeExc e s).ieDone = s.ieDone := by
  cases e <;> rfl
@[simp] theorem takeExc_ieErr (e : Exc) (s : State) : (takeExc e s).ieErr = s.ieErr := by
  cases e <;> rfl
@[simp] theorem takeExc_done (e : Exc) (s : State) : (takeExc e s).done = s.done := by
  cases e <;> rfl
@[simp] theorem takeExc_rng (e : Exc) (s : State) : (takeExc e s).rng = s.rng := by
  cases e <;> rfl
@[simp] theorem takeExc_xspur (e : Exc) (s : State) : (takeExc e s).xspur = s.xspur := by
  cases e <;> rfl
@[simp] theorem takeExc_xcnt (e : Exc) (s : State) : (takeExc e s).xcnt = s.xcnt := by
  cases e <;> rfl
@[simp] theorem takeExc_cmdcnt (e : Exc) (s : State) : (takeExc e s).cmdcnt = s.cmdcnt := by
  cases e <;> rfl
@[simp] theorem takeExc_errinfo (e : Exc) (s : State) : (takeExc e s).errinfo = s.head := by
  cases e <;> rfl
@[simp] theorem takeExc_xofIn (e : Exc) (s : State) : (takeExc e s).xofIn = s.xofIn := by
  cases e <;> rfl
@[simp] theorem takeExc_answer (e : Exc) (s : State) : (takeExc e s).answer = s.answer := by
  cases e <;> rfl
@[simp] theorem takeExc_schedule (e : Exc) (s : State) : (takeExc e s).schedule = s.schedule := by
  cases e <;> rfl
@[simp] theorem takeExc_error_err (c : ErrCode) (s : State) : (takeExc (.error c) s).err = some c := rfl
@[simp] theorem takeExc_error_flt (c : ErrCode) (s : State) : (takeExc (.error c) s).flt = s.flt := rfl
@[simp] theorem takeExc_fault_err (c : FaultCause) (s : State) : (takeExc (.fault c) s).err = s.err := rfl
@[simp] theorem takeExc_fault_flt (c : FaultCause) (s : State) : (takeExc (.fault c) s).flt = some c := rfl

/-! ### Registers -/

/-- A register just written reads as written. -/
@[simp] theorem setP_get_same (s : State) (r : Reg) (v : Poly) : (s.setP r v).p[r] = v := by
  simp

/-- Writing one register leaves the others alone. -/
theorem setP_get_ne (s : State) {r q : Reg} (v : Poly) (h : q ≠ r) : (s.setP r v).p[q] = s.p[q] := by
  have : r.val ≠ q.val := fun e => h (Fin.ext e.symm)
  simp [this]

/-- Every register is EMPTY after a reset. -/
@[simp] theorem replicate_empty_get (r : Reg) : (Vector.replicate 16 Poly.empty)[r] = .empty := by
  simp

end Sys2Proof.Machine
end

