-- ==== Sys2Proof/Laws/Ops.lean ====
section
/-! SUPPORT. What each shared operation can do, said once: the two phases, the Start step, the operand forms. -/

namespace Sys2Proof.Machine

/-! ### Start -/

/-- With every check passing, a Start begins the command. -/
theorem startStep_pass {checks : List (Bool × Exc)} (begins : State → State) (s : State)
    (h : firstFailing checks = none) : startStep checks begins s = .next (begins s) := by
  simp [startStep, h]

/-- With a check failing, a Start takes the exception of the first one that fails. -/
theorem startStep_fail {checks : List (Bool × Exc)} {e : Exc} (begins : State → State) (s : State)
    (h : firstFailing checks = some e) : startStep checks begins s = .next (takeExc e s) := by
  simp [startStep, h]

/-- A Start step always answers a next state: the command begun, or an exception taken. -/
theorem startStep_cases (checks : List (Bool × Exc)) (begins : State → State) (s : State) :
    (firstFailing checks = none ∧ startStep checks begins s = .next (begins s)) ∨
      ∃ e, firstFailing checks = some e ∧ startStep checks begins s = .next (takeExc e s) := by
  cases h : firstFailing checks with
  | none => exact .inl ⟨rfl, startStep_pass begins s h⟩
  | some e => exact .inr ⟨e, rfl, startStep_fail begins s h⟩

/-- The checks all pass exactly when every condition of the list holds. -/
theorem firstFailing_none_iff (checks : List (Bool × Exc)) :
    firstFailing checks = none ↔ ∀ c ∈ checks, c.1 = true := by
  induction checks with
  | nil => simp [firstFailing]
  | cons c rest ih =>
    obtain ⟨ok, e⟩ := c
    cases ok <;> simp [firstFailing, ih]

/-! ### The two phases -/

section
variable {start complete : State → Host.Outcome State Fault Refusal} {s : State}

theorem twoPhase_idle (h : s.eng = .idle) : twoPhase start complete s = start s := by
  simp [twoPhase, h]

theorem twoPhase_exec {w : Word} (h : s.eng = .exec w) : twoPhase start complete s = complete s := by
  simp [twoPhase, h]

theorem twoPhase_sampling {rd : Reg} {acc : List Coeff} {w : Word} (h : s.eng = .sampling rd acc w) :
    twoPhase start complete s = .next s := by
  simp [twoPhase, h]

end

/-- The Start of a command other than SAMPU is startCommand. -/
theorem exec_idle {i : Instr} {s : State} (h : s.eng = .idle) (hi : ∀ rd, i ≠ .sampu rd) :
    exec i s = startCommand i s := by
  cases i with
  | sampu rd => exact absurd rfl (hi rd)
  | nop => simp only [exec, execNop, twoPhase_idle h]
  | add => simp only [exec, execAdd, twoPhase_idle h]
  | sub => simp only [exec, execSub, twoPhase_idle h]
  | smul => simp only [exec, execSmul, twoPhase_idle h]
  | pmul => simp only [exec, execPmul, twoPhase_idle h]
  | ntt => simp only [exec, execNtt, twoPhase_idle h]
  | intt => simp only [exec, execIntt, twoPhase_idle h]
  | sampc => simp only [exec, execSampc, twoPhase_idle h]
  | cmpr => simp only [exec, execCmpr, twoPhase_idle h]
  | dcmp => simp only [exec, execDcmp, twoPhase_idle h]
  | enc => simp only [exec, execEnc, twoPhase_idle h]
  | dec => simp only [exec, execDec, twoPhase_idle h]

/-- The Start of SAMPU has no check. -/
theorem exec_sampu_idle {rd : Reg} {s : State} (h : s.eng = .idle) :
    exec (.sampu rd) s = .next (beginSampling rd s) := by
  simp [exec, execSampu, h, startChecks, startStep, firstFailing]

/-- SAMPU with a chunk at the port takes its Chunk step. -/
theorem exec_sampu_chunk {rd rd' : Reg} {acc : List Coeff} {w : Word} {c : Chunk} {s : State}
    (h : s.eng = .sampling rd acc w) (hx : s.xofIn = some c) :
    exec (.sampu rd') s = .next (chunkStep rd acc w c s) := by
  simp [exec, execSampu, h, hx]

/-- SAMPU with no chunk at the port waits. -/
theorem exec_sampu_wait {rd rd' : Reg} {acc : List Coeff} {w : Word} {s : State}
    (h : s.eng = .sampling rd acc w) (hx : s.xofIn = none) : exec (.sampu rd') s = .next s := by
  simp [exec, execSampu, h, hx]

/-! ### Operand forms at Complete -/

/-- A Complete that reads a register answers a next state only with the register's coefficients. -/
theorem withSource_next {s t : State} {r : Reg} {k : Coeffs → Host.Outcome State Fault Refusal}
    (h : withSource s r k = .next t) : ∃ a, s.p[r].coeffs = some a ∧ k a = .next t := by
  unfold withSource at h
  split at h
  · exact ⟨_, ‹_›, h⟩
  · simp at h

/-- With a register that holds coefficients, a Complete gets them. -/
theorem withSource_some {s : State} {r : Reg} {k : Coeffs → Host.Outcome State Fault Refusal} {a : Coeffs}
    (h : s.p[r].coeffs = some a) : withSource s r k = k a := by
  simp only [withSource, h]

/-- A Complete that reads BUF answers a next state only with every byte of its range written. -/
theorem withBytes_next {s t : State} {addr : BufAddr} {n : Nat}
    {k : List Byte → Host.Outcome State Fault Refusal} (h : withBytes s addr n k = .next t) :
    ∃ bs, Memory.readBytes s.buf addr.toNat n = some bs ∧ k bs = .next t := by
  unfold withBytes at h
  split at h
  · exact ⟨_, ‹_›, h⟩
  · simp at h

/-- With every byte of the range written, a Complete gets them. -/
theorem withBytes_some {s : State} {addr : BufAddr} {n : Nat}
    {k : List Byte → Host.Outcome State Fault Refusal} {bs : List Byte}
    (h : Memory.readBytes s.buf addr.toNat n = some bs) : withBytes s addr n k = k bs := by
  simp only [withBytes, h]

/-! ### DEC's result -/

section
variable (p : Reg) (d : BitVec 4) (t : Tag) (fields : List Nat) (s : State)

/-- DEC's result writes its destination register. -/
theorem decodeInto_p : (decodeInto p d t fields s).p = s.p.set p
    (if d.toNat = 12 then Poly.make t 0 (coeffsOfNats (fields.map (· % Config.modulus)))
      else .cmpr d (coeffsOfNats fields)) := by
  unfold decodeInto; split <;> rfl

/-- DEC sets RNG for D = 12 and a field of at least Q, and never clears it. -/
theorem decodeInto_rng : (decodeInto p d t fields s).rng =
    (s.rng || decide (d.toNat = 12) && someOutOfRange fields) := by
  unfold decodeInto; split <;> simp_all

/-- DEC's result changes nothing but its destination register and RNG. -/
theorem decodeInto_rest : decodeInto p d t fields s =
    { s with p := (decodeInto p d t fields s).p, rng := (decodeInto p d t fields s).rng } := by
  unfold decodeInto; split <;> rfl

end

/-! ### Refusals -/

/-- No meaning refuses. -/
theorem exec_not_refused (i : Instr) (s : State) (r : Refusal) : exec i s ≠ .refused r := by
  have hs : ∀ c b, startStep c b s ≠ .refused r := fun c b => by
    rcases startStep_cases c b s with ⟨-, h⟩ | ⟨e, -, h⟩ <;> simp [h]
  cases i <;>
    simp only [exec, execNop, execAdd, execSub, execSmul, execPmul, execNtt, execIntt, execSampu, execSampc,
      execCmpr, execDcmp, execEnc, execDec, completeBinary, startCommand, twoPhase, withSource, withBytes] <;>
    (repeat' split) <;> simp [hs]

end Sys2Proof.Machine
end

