-- ==== Sys2Proof/Laws/PerInstr.lean ====
section
/-! SUPPORT. A statement per command: the word the encoder writes lies in the command's row of the opcode map, that
is, its opcode field holds OP (spec/30_encoding.md R81) and its register field at [26:23] the command's destination
(P in format M), zero for NOP (R73, R74). -/

namespace Sys2Proof.Laws

/-- The register number a command carries at bits [26:23]: RD, or P in format M; NOP has zeros there. -/
def topRegister : Instr → Reg
  | .nop => 0
  | .add rd _ _ => rd
  | .sub rd _ _ => rd
  | .smul rd _ _ => rd
  | .pmul rd _ _ => rd
  | .ntt rd _ => rd
  | .intt rd _ => rd
  | .sampu rd => rd
  | .sampc p _ _ => p
  | .cmpr rd _ _ => rd
  | .dcmp rd _ _ => rd
  | .enc p _ _ => p
  | .dec p _ _ _ => p

/-- The encoded word carries the opcode of its row and the register at [26:23]. -/
def EncodesInRow.Statement (i : Instr) : Prop :=
  field (encode i) 27 5 = i.opcode ∧ regField (encode i) 23 = topRegister i

theorem regField_eq {w : Word} {lo : Nat} {r : Reg} (h : field w lo 4 = regBits r) : regField w lo = r := by
  unfold regField
  rw [h]
  rfl

section
variable (op : BitVec 5) (r ra rb : Reg)

theorem formatR_top : field (formatR op r ra rb) 27 5 = op ∧ field (formatR op r ra rb) 23 4 = regBits r := by
  constructor <;> ext i hi <;> interval_cases i <;> simp [field, formatR, atBit]

theorem formatU_top : field (formatU op r ra) 27 5 = op ∧ field (formatU op r ra) 23 4 = regBits r := by
  constructor <;> ext i hi <;> interval_cases i <;> simp [field, formatU, atBit]

theorem formatZ_top : field (formatZ op r) 27 5 = op ∧ field (formatZ op r) 23 4 = regBits r := by
  constructor <;> ext i hi <;> interval_cases i <;> simp [field, formatZ, atBit]

theorem formatS_top (imm : BitVec 12) :
    field (formatS op r ra imm) 27 5 = op ∧ field (formatS op r ra imm) 23 4 = regBits r := by
  constructor <;> ext i hi <;> interval_cases i <;> simp [field, formatS, atBit]

theorem formatC_top (d : BitVec 4) :
    field (formatC op r ra d) 27 5 = op ∧ field (formatC op r ra d) 23 4 = regBits r := by
  constructor <;> ext i hi <;> interval_cases i <;> simp [field, formatC, atBit]

theorem formatM_top (t : BitVec 2) (d : BitVec 4) (addr : BufAddr) :
    field (formatM op r t d addr) 27 5 = op ∧ field (formatM op r t d addr) 23 4 = regBits r := by
  constructor <;> ext i hi <;> interval_cases i <;> simp [field, formatM, atBit]

end

theorem EncodesInRow.nop : EncodesInRow.Statement .nop := by
  constructor <;> decide

theorem EncodesInRow.add (rd ra rb : Reg) : EncodesInRow.Statement (.add rd ra rb) :=
  ⟨(formatR_top _ _ _ _).1, regField_eq (formatR_top _ _ _ _).2⟩

theorem EncodesInRow.sub (rd ra rb : Reg) : EncodesInRow.Statement (.sub rd ra rb) :=
  ⟨(formatR_top _ _ _ _).1, regField_eq (formatR_top _ _ _ _).2⟩

theorem EncodesInRow.smul (rd ra : Reg) (imm : BitVec 12) : EncodesInRow.Statement (.smul rd ra imm) :=
  ⟨(formatS_top _ _ _ _).1, regField_eq (formatS_top _ _ _ _).2⟩

theorem EncodesInRow.pmul (rd ra rb : Reg) : EncodesInRow.Statement (.pmul rd ra rb) :=
  ⟨(formatR_top _ _ _ _).1, regField_eq (formatR_top _ _ _ _).2⟩

theorem EncodesInRow.ntt (rd ra : Reg) : EncodesInRow.Statement (.ntt rd ra) :=
  ⟨(formatU_top _ _ _).1, regField_eq (formatU_top _ _ _).2⟩

theorem EncodesInRow.intt (rd ra : Reg) : EncodesInRow.Statement (.intt rd ra) :=
  ⟨(formatU_top _ _ _).1, regField_eq (formatU_top _ _ _).2⟩

theorem EncodesInRow.sampu (rd : Reg) : EncodesInRow.Statement (.sampu rd) :=
  ⟨(formatZ_top _ _).1, regField_eq (formatZ_top _ _).2⟩

theorem EncodesInRow.sampc (p : Reg) (eta : BitVec 4) (addr : BufAddr) :
    EncodesInRow.Statement (.sampc p eta addr) :=
  ⟨(formatM_top _ _ _ _ _).1, regField_eq (formatM_top _ _ _ _ _).2⟩

theorem EncodesInRow.cmpr (rd ra : Reg) (d : BitVec 4) : EncodesInRow.Statement (.cmpr rd ra d) :=
  ⟨(formatC_top _ _ _ _).1, regField_eq (formatC_top _ _ _ _).2⟩

theorem EncodesInRow.dcmp (rd ra : Reg) (d : BitVec 4) : EncodesInRow.Statement (.dcmp rd ra d) :=
  ⟨(formatC_top _ _ _ _).1, regField_eq (formatC_top _ _ _ _).2⟩

theorem EncodesInRow.enc (p : Reg) (d : BitVec 4) (addr : BufAddr) : EncodesInRow.Statement (.enc p d addr) :=
  ⟨(formatM_top _ _ _ _ _).1, regField_eq (formatM_top _ _ _ _ _).2⟩

theorem EncodesInRow.dec (p : Reg) (d : BitVec 4) (t : Tag) (addr : BufAddr) :
    EncodesInRow.Statement (.dec p d t addr) :=
  ⟨(formatM_top _ _ _ _ _).1, regField_eq (formatM_top _ _ _ _ _).2⟩

end Sys2Proof.Laws
end

