-- ==== Sys2Proof/Laws/Step.lean ====
section
/-! SUPPORT. What a step can do, said once: the cases of exec, of the engine's turn, of the host's two transactions and
of a step, each as an inversion lemma. -/

namespace Sys2Proof.Machine

/-- What a Complete does to the state apart from the registers, BUF and RNG: the bookkeeping of `retire`. -/
def CompletesAs (s t : State) : Prop :=
  ∃ (p : Vector Poly 16) (buf : List Host.Cell) (rng : Bool), t = retire { s with p := p, buf := buf, rng := rng }

theorem completesAs_setP (s : State) (r : Reg) (v : Poly) : CompletesAs s (retire (s.setP r v)) :=
  ⟨s.p.set r v, s.buf, s.rng, rfl⟩

/-- The Complete of a command other than SAMPU is a bookkeeping step. -/
theorem exec_complete {i : Instr} {s t : State} {w : Word} (he : s.eng = .exec w) (hi : ∀ rd, i ≠ .sampu rd)
    (h : exec i s = .next t) : CompletesAs s t := by
  cases i with
  | sampu rd => exact absurd rfl (hi rd)
  | nop =>
    simp only [exec, execNop, twoPhase_exec he] at h
    cases h
    exact ⟨s.p, s.buf, s.rng, rfl⟩
  | add =>
    simp only [exec, execAdd, twoPhase_exec he, completeBinary] at h
    obtain ⟨a, -, h⟩ := withSource_next h
    obtain ⟨b, -, h⟩ := withSource_next h
    cases h; exact completesAs_setP ..
  | sub =>
    simp only [exec, execSub, twoPhase_exec he, completeBinary] at h
    obtain ⟨a, -, h⟩ := withSource_next h
    obtain ⟨b, -, h⟩ := withSource_next h
    cases h; exact completesAs_setP ..
  | pmul =>
    simp only [exec, execPmul, twoPhase_exec he, completeBinary] at h
    obtain ⟨a, -, h⟩ := withSource_next h
    obtain ⟨b, -, h⟩ := withSource_next h
    cases h; exact completesAs_setP ..
  | smul =>
    simp only [exec, execSmul, twoPhase_exec he] at h
    obtain ⟨a, -, h⟩ := withSource_next h
    cases h; exact completesAs_setP ..
  | ntt =>
    simp only [exec, execNtt, twoPhase_exec he] at h
    obtain ⟨a, -, h⟩ := withSource_next h
    cases h; exact completesAs_setP ..
  | intt =>
    simp only [exec, execIntt, twoPhase_exec he] at h
    obtain ⟨a, -, h⟩ := withSource_next h
    cases h; exact completesAs_setP ..
  | cmpr =>
    simp only [exec, execCmpr, twoPhase_exec he] at h
    obtain ⟨a, -, h⟩ := withSource_next h
    cases h; exact completesAs_setP ..
  | dcmp =>
    simp only [exec, execDcmp, twoPhase_exec he] at h
    obtain ⟨a, -, h⟩ := withSource_next h
    cases h; exact completesAs_setP ..
  | sampc =>
    simp only [exec, execSampc, twoPhase_exec he] at h
    obtain ⟨bs, -, h⟩ := withBytes_next h
    cases h; exact completesAs_setP ..
  | dec =>
    simp only [exec, execDec, twoPhase_exec he] at h
    obtain ⟨bs, -, h⟩ := withBytes_next h
    cases h
    rw [decodeInto_rest]
    exact ⟨_, s.buf, _, rfl⟩
  | enc =>
    simp only [exec, execEnc, twoPhase_exec he] at h
    obtain ⟨a, -, h⟩ := withSource_next h
    split at h
    · cases h; exact ⟨s.p, _, s.rng, rfl⟩
    · simp at h

/-- While a SAMPU samples, no other command has a step. -/
theorem exec_sampling {i : Instr} {s : State} {rd : Reg} {acc : List Coeff} {w : Word}
    (he : s.eng = .sampling rd acc w) (hi : ∀ rd, i ≠ .sampu rd) : exec i s = .next s := by
  cases i with
  | sampu rd => exact absurd rfl (hi rd)
  | nop => simp only [exec, execNop, twoPhase_sampling he]
  | add => simp only [exec, execAdd, twoPhase_sampling he]
  | sub => simp only [exec, execSub, twoPhase_sampling he]
  | smul => simp only [exec, execSmul, twoPhase_sampling he]
  | pmul => simp only [exec, execPmul, twoPhase_sampling he]
  | ntt => simp only [exec, execNtt, twoPhase_sampling he]
  | intt => simp only [exec, execIntt, twoPhase_sampling he]
  | sampc => simp only [exec, execSampc, twoPhase_sampling he]
  | cmpr => simp only [exec, execCmpr, twoPhase_sampling he]
  | dcmp => simp only [exec, execDcmp, twoPhase_sampling he]
  | enc => simp only [exec, execEnc, twoPhase_sampling he]
  | dec => simp only [exec, execDec, twoPhase_sampling he]

/-- A Chunk step either goes on sampling the same command or completes it. -/
theorem chunkStep_cases (rd : Reg) (acc : List Coeff) (w : Word) (c : Chunk) (s : State) :
    let acc' := accept (accept acc (firstCandidate c)) (secondCandidate c)
    let s' := { s with xcnt := s.xcnt + 1, xofIn := none }
    (acc'.length ≠ 256 ∧ chunkStep rd acc w c s = { s' with eng := .sampling rd acc' w }) ∨
      (acc'.length = 256 ∧ chunkStep rd acc w c s = retire (s'.setP rd (.ntt (coeffsOfSlots acc')))) := by
  simp only [chunkStep]
  split
  · exact .inr ⟨‹_›, rfl⟩
  · exact .inl ⟨‹_›, rfl⟩

/-- The ways a command's own step can answer a next state. -/
inductive ExecCases (i : Instr) (s t : State) : Prop where
  /-- A Start that takes an exception. -/
  | refusedStart (e : Exc) (he : s.eng = .idle) (hc : firstFailing (startChecks i s.kinds) = some e)
      (ht : t = takeExc e s)
  /-- A Start that begins a command other than SAMPU. -/
  | begins (he : s.eng = .idle) (hc : firstFailing (startChecks i s.kinds) = none) (hi : ∀ rd, i ≠ .sampu rd)
      (ht : t = beginExec s)
  /-- SAMPU's Start. -/
  | samples (rd : Reg) (he : s.eng = .idle) (hi : i = .sampu rd) (ht : t = beginSampling rd s)
  /-- A Complete. -/
  | completes (w : Word) (he : s.eng = .exec w) (hi : ∀ rd, i ≠ .sampu rd) (ht : CompletesAs s t)
  /-- A Chunk step. -/
  | chunk (rd : Reg) (acc : List Coeff) (w : Word) (c : Chunk) (he : s.eng = .sampling rd acc w)
      (hx : s.xofIn = some c) (ht : t = chunkStep rd acc w c s)
  /-- No step of this command is enabled. -/
  | waits (he : s.eng ≠ .idle) (ht : t = s)

/-- What exec can do when it answers a next state. -/
theorem exec_cases {i : Instr} {s t : State} (h : exec i s = .next t) : ExecCases i s t := by
  by_cases hi : ∃ rd, i = .sampu rd
  · obtain ⟨rd, rfl⟩ := hi
    cases he : s.eng with
    | idle => rw [exec_sampu_idle he] at h; cases h; exact .samples rd he rfl rfl
    | exec w => simp only [exec, execSampu, he] at h; cases h; exact .waits (by simp [he]) rfl
    | sampling rd' acc w =>
      cases hx : s.xofIn with
      | none => rw [exec_sampu_wait he hx] at h; cases h; exact .waits (by simp [he]) rfl
      | some c => rw [exec_sampu_chunk he hx] at h; cases h; exact .chunk rd' acc w c he hx rfl
  · have hi : ∀ rd, i ≠ .sampu rd := fun rd e => hi ⟨rd, e⟩
    cases he : s.eng with
    | idle =>
      rw [exec_idle he hi] at h
      rcases startStep_cases (startChecks i s.kinds) beginExec s with ⟨hc, hs⟩ | ⟨e, hc, hs⟩
      · rw [startCommand, hs] at h; cases h; exact .begins he hc hi rfl
      · rw [startCommand, hs] at h; cases h; exact .refusedStart e he hc rfl
    | exec w => exact .completes w he hi (exec_complete he hi h)
    | sampling rd acc w => rw [exec_sampling he hi] at h; cases h; exact .waits (by simp [he]) rfl

/-- The ways the engine's turn can answer a next state. -/
inductive EngineCases (s t : State) : Prop where
  /-- No step is enabled. -/
  | idles (ht : t = s)
  /-- The head is no command. -/
  | notACommand (e : DecodeError) (hs : canStart s = true) (hd : decode s.head = .error e)
      (ht : t = takeExc (decodeExc e) s)
  /-- The head command starts. -/
  | starts (i : Instr) (hs : canStart s = true) (hd : decode s.head = .ok i) (h : exec i s = .next t)
  /-- The executing command completes. -/
  | completes (w : Word) (i : Instr) (he : s.eng = .exec w) (hd : decode w = .ok i) (h : exec i s = .next t)
  /-- The sampling command has the turn. -/
  | samples (rd : Reg) (acc : List Coeff) (w : Word) (he : s.eng = .sampling rd acc w)
      (h : exec (.sampu rd) s = .next t)

theorem engineTurn_cases {s t : State} (h : engineTurn s = .next t) : EngineCases s t := by
  unfold engineTurn at h
  split at h
  · split at h
    · split at h
      · exact .starts _ ‹_› ‹_› h
      · cases h; exact .notACommand _ ‹_› ‹_› rfl
    · cases h; exact .idles rfl
  · split at h
    · exact .completes _ _ ‹_› ‹_› h
    · simp at h
  · exact .samples _ _ _ ‹_› h

/-- The engine may start its head command exactly under the four conditions of spec/10_state.md R38. -/
theorem canStart_iff (s : State) :
    canStart s = true ↔ s.eng = .idle ∧ s.queue ≠ [] ∧ s.err = none ∧ s.flt = none := by
  simp [canStart, and_assoc]

/-- The ways a host write can answer a next state. -/
inductive WriteCases (off : Offset) (v : Word) (s t : State) : Prop where
  | ctrl (ho : wordOffset off = 0x04) (ht : t = writeCtrl v s)
  | status (ho : wordOffset off = 0x08) (ht : t = writeStatus v s)
  | cmd (ho : wordOffset off = 0x0C) (ht : t = writeCmd v s)
  | xdataAnswer (rd : Reg) (acc : List Coeff) (w : Word) (ho : wordOffset off = 0x10)
      (he : s.eng = .sampling rd acc w)
      (h : exec (.sampu rd) (offerChunk (v.extractLsb' 0 24) s) = .next t)
  | xdataSpurious (ho : wordOffset off = 0x10) (hx : s.xreq = false) (ht : t = { s with xspur := true })
  | ignored (ho : wordOffset off < 0x1000) (hc : wordOffset off ≠ 0x04) (ht : t = s)
  | window (ho : 0x1000 ≤ wordOffset off) (hc : conflicts s (wordOffset off - 0x1000) true = false)
      (ht : t = { s with buf := writeWindow s.buf (wordOffset off - 0x1000) v })

/-- The producer's answer is the sampling command's Chunk step, or what an unrequested answer does. -/
theorem answerXof_cases {c : Chunk} {u s t : State} (h : answerXof c u s = .next t) :
    (∃ rd acc w, s.eng = .sampling rd acc w ∧ exec (.sampu rd) (offerChunk c s) = .next t) ∨
      (s.xreq = false ∧ t = u) := by
  unfold answerXof at h
  cases he : s.eng with
  | idle => simp only [he] at h; cases h; exact .inr ⟨by simp [State.xreq, he], rfl⟩
  | exec w => simp only [he] at h; cases h; exact .inr ⟨by simp [State.xreq, he], rfl⟩
  | sampling rd acc w => simp only [he] at h; exact .inl ⟨rd, acc, w, rfl, h⟩

theorem hostWrite_cases {off : Offset} {v : Word} {s t : State} (h : hostWrite off v s = .next t) :
    WriteCases off v s t := by
  unfold hostWrite at h
  dsimp only at h
  split at h
  · cases h; exact .ctrl ‹_› rfl
  split at h
  · cases h; exact .status ‹_› rfl
  split at h
  · cases h; exact .cmd ‹_› rfl
  split at h
  · rcases answerXof_cases h with ⟨rd, acc, w, he, h⟩ | ⟨hx, ht⟩
    · exact .xdataAnswer rd acc w ‹_› he h
    · exact .xdataSpurious ‹_› hx ht
  split at h
  · cases h; exact .ignored ‹_› ‹_› rfl
  split at h
  · simp at h
  · cases h
    exact .window (by omega) (by simpa using ‹¬conflicts s (wordOffset off - 0x1000) true = true›) rfl

/-- A host read that answers a next state changes the model's `answer` only. -/
theorem hostRead_cases {off : Offset} {s t : State} (h : hostRead off s = .next t) :
    ∃ v, t = { s with answer := some v } := by
  unfold hostRead at h
  dsimp only at h
  split at h
  · cases h; exact ⟨_, rfl⟩
  split at h
  · simp at h
  split at h
  · cases h; exact ⟨_, rfl⟩
  · simp at h

/-- The ways a step can answer a next state: a turn of one agent. `s₀` is the state with the turn taken off the
schedule. -/
inductive StepCases (s t : State) : Prop where
  | engine (s₀ : State)
      (hs : s.schedule = [] ∧ s₀ = s ∨ ∃ rest, s.schedule = .engine :: rest ∧ s₀ = withTurns rest s)
      (h : engineTurn s₀ = .next t)
  | hostRead (off : Offset) (rest : List Turn) (hs : s.schedule = .hostRead off :: rest)
      (h : hostRead off (withTurns rest s) = .next t)
  | hostWrite (off : Offset) (v : Word) (rest : List Turn) (hs : s.schedule = .hostWrite off v :: rest)
      (h : hostWrite off v (withTurns rest s) = .next t)
  | xof (c : Chunk) (rest : List Turn) (hs : s.schedule = .xof c :: rest)
      (h : answerXof c (withTurns rest s) (withTurns rest s) = .next t)
  | powerOn (rest : List Turn) (hs : s.schedule = .powerOn :: rest)
      (ht : t = powerOnReset (withTurns rest s))

/-- What a step can do when it answers a next state. -/
theorem step_cases {s t : State} (h : step s = .next t) : StepCases s t := by
  unfold step nextTurn at h
  split at h
  · exact .engine s (.inl ⟨‹_›, rfl⟩) h
  · rename_i turn rest hs
    cases turn with
    | engine => exact .engine _ (.inr ⟨rest, hs, rfl⟩) h
    | hostRead off => exact .hostRead off rest hs h
    | hostWrite off v => exact .hostWrite off v rest hs h
    | xof c => exact .xof c rest hs h
    | powerOn => cases h; exact .powerOn rest hs rfl

end Sys2Proof.Machine
end

