-- ==== Sys2Proof/Laws/Races.lean ====
section
/-! SUPPORT. The kinds of the registers, the footprints of the queue, and when a host access is BUF_RACE. -/

namespace Sys2Proof.Machine

/-! ### Kinds -/

/-- A register write sets the kind of its register and no other. -/
@[simp] theorem kinds_setP (s : State) (r : Reg) (v : Poly) : (s.setP r v).kinds = setKind r v.kind s.kinds := by
  funext q
  unfold setKind State.kinds
  split
  · subst ‹q = r›; rw [setP_get_same]
  · rw [setP_get_ne _ _ ‹_›]

/-- The register content that a write of tag, cw and coefficients leaves has that tag, and that cw under CMPR. -/
@[simp] theorem kind_make (t : Tag) (cw : BitVec 4) (c : Coeffs) :
    (Poly.make t cw c).kind = ⟨t, if t = .cmpr then cw else 0⟩ := by
  cases t <;> rfl

/-- The Complete of a well-formed command leaves the kinds that `kindsAfter` foretells. -/
theorem kinds_complete {i : Instr} {s t : State} {w : Word} (he : s.eng = .exec w) (hi : ∀ rd, i ≠ .sampu rd)
    (hw : i.wellFormed = true) (h : exec i s = .next t) : t.kinds = kindsAfter i s.kinds := by
  cases i with
  | sampu rd => exact absurd rfl (hi rd)
  | nop =>
    simp only [exec, execNop, twoPhase_exec he] at h
    cases h; rfl
  | add =>
    simp only [exec, execAdd, twoPhase_exec he, completeBinary] at h
    obtain ⟨a, -, h⟩ := withSource_next h
    obtain ⟨b, -, h⟩ := withSource_next h
    cases h; exact (kinds_setP ..).trans (by rw [kind_make, ite_self]; rfl)
  | sub =>
    simp only [exec, execSub, twoPhase_exec he, completeBinary] at h
    obtain ⟨a, -, h⟩ := withSource_next h
    obtain ⟨b, -, h⟩ := withSource_next h
    cases h; exact (kinds_setP ..).trans (by rw [kind_make, ite_self]; rfl)
  | smul =>
    simp only [exec, execSmul, twoPhase_exec he] at h
    obtain ⟨a, -, h⟩ := withSource_next h
    cases h; exact (kinds_setP ..).trans (by rw [kind_make, ite_self]; rfl)
  | pmul =>
    simp only [exec, execPmul, twoPhase_exec he, completeBinary] at h
    obtain ⟨a, -, h⟩ := withSource_next h
    obtain ⟨b, -, h⟩ := withSource_next h
    cases h; exact kinds_setP ..
  | ntt =>
    simp only [exec, execNtt, twoPhase_exec he] at h
    obtain ⟨a, -, h⟩ := withSource_next h
    cases h; exact kinds_setP ..
  | intt =>
    simp only [exec, execIntt, twoPhase_exec he] at h
    obtain ⟨a, -, h⟩ := withSource_next h
    cases h; exact kinds_setP ..
  | cmpr =>
    simp only [exec, execCmpr, twoPhase_exec he] at h
    obtain ⟨a, -, h⟩ := withSource_next h
    cases h; exact kinds_setP ..
  | dcmp =>
    simp only [exec, execDcmp, twoPhase_exec he] at h
    obtain ⟨a, -, h⟩ := withSource_next h
    cases h; exact kinds_setP ..
  | sampc =>
    simp only [exec, execSampc, twoPhase_exec he] at h
    obtain ⟨bs, -, h⟩ := withBytes_next h
    cases h; exact kinds_setP ..
  | enc =>
    simp only [exec, execEnc, twoPhase_exec he] at h
    obtain ⟨a, -, h⟩ := withSource_next h
    split at h
    · cases h; rfl
    · simp at h
  | dec p d tag addr =>
    simp only [exec, execDec, twoPhase_exec he] at h
    obtain ⟨bs, -, h⟩ := withBytes_next h
    cases h
    simp only [Instr.wellFormed, decTagLegal, Bool.and_eq_true] at hw
    refine Eq.trans (b := (decodeInto p d tag (decodeFields d.toNat bs) s).kinds) rfl ?_
    unfold decodeInto
    split
    · rw [if_pos ‹_›] at hw
      have ht : tag ≠ .cmpr := by
        rcases of_decide_eq_true hw.2 with rfl | rfl <;> simp
      exact (kinds_setP ..).trans (by rw [kind_make, if_neg ht]; simp only [kindsAfter, if_neg ht])
    · rw [if_neg ‹_›] at hw
      obtain rfl := of_decide_eq_true hw.2
      exact kinds_setP ..

/-! ### Footprints -/

/-- A footprint among those ahead is that of one of the words. -/
theorem footprintsAhead_sub (ws : List Word) (k : Reg → RegKind) :
    ∀ f ∈ footprintsAhead k ws, f ∈ heldFootprints ws := by
  induction ws generalizing k with
  | nil => simp [footprintsAhead]
  | cons w ws ih =>
    intro f hf
    have held : f ∈ heldFootprints ws → f ∈ heldFootprints (w :: ws) := fun h => by
      simp only [heldFootprints, List.mem_filterMap, List.mem_cons] at h ⊢
      obtain ⟨a, ha, he⟩ := h
      exact ⟨a, .inr ha, he⟩
    simp only [footprintsAhead] at hf
    split at hf
    · exact held hf
    · split at hf
      · exact held hf
      · rcases List.mem_append.1 hf with h | h
        · exact List.mem_filterMap.2 ⟨w, List.mem_cons_self, by simpa using h⟩
        · exact held (ih _ f h)

theorem waitingFootprints_sub (s : State) (k : Reg → RegKind) (ws : List Word) :
    ∀ f ∈ waitingFootprints s k ws, f ∈ heldFootprints ws := by
  unfold waitingFootprints
  split
  · exact fun _ h => h
  · exact footprintsAhead_sub ws k

/-- Every footprint is that of a word of the queue. -/
theorem footprints_sub (s : State) : ∀ f ∈ footprints s, ∃ w ∈ s.queue, footprint w = some f := by
  intro f hf
  have h : f ∈ heldFootprints s.queue := by
    unfold footprints at hf
    split at hf
    · exact waitingFootprints_sub _ _ _ f hf
    · split at hf
      · simp at hf
      · rename_i w ws hq
        rw [hq]
        rcases List.mem_append.1 hf with h | h
        · exact List.mem_filterMap.2 ⟨w, List.mem_cons_self, by simpa using h⟩
        · obtain ⟨a, ha, he⟩ := List.mem_filterMap.1 (waitingFootprints_sub _ _ _ f h)
          exact List.mem_filterMap.2 ⟨a, List.mem_cons_of_mem _ ha, he⟩
  exact List.mem_filterMap.1 h

/-- A conflict is a footprint that the access reaches. -/
theorem conflicts_iff (s : State) (a : Nat) (writes : Bool) :
    conflicts s a writes = true ↔
      ∃ f ∈ footprints s, (writes || f.writes) = true ∧ a < f.lo + f.size ∧ f.lo < a + 4 := by
  simp [conflicts]

/-- The footprints do not depend on the schedule. -/
theorem footprints_schedule (s : State) (ts : List Turn) : footprints { s with schedule := ts } = footprints s := rfl

/-! ### Races -/

/-- No command's own step stops as BUF_RACE. -/
theorem exec_not_race (i : Instr) (s : State) : exec i s ≠ .fault .bufRace := by
  have hs : ∀ c b, startStep c b s ≠ .fault .bufRace := fun c b => by
    rcases startStep_cases c b s with ⟨-, h⟩ | ⟨e, -, h⟩ <;> simp [h]
  cases i <;>
    simp only [exec, execNop, execAdd, execSub, execSmul, execPmul, execNtt, execIntt, execSampu, execSampc,
      execCmpr, execDcmp, execEnc, execDec, completeBinary, startCommand, twoPhase, withSource, withBytes] <;>
    (repeat' split) <;> simp [hs]

/-- A host access stops as BUF_RACE exactly where it is a window access in conflict. -/
theorem hostAccess_race_iff (s : State) (writes : Bool) (off : Offset) (v : Word) (rest : List Turn) :
    step { s with schedule := hostAccess writes off v :: rest } = .fault .bufRace ↔
      0x1000 ≤ wordOffset off ∧ conflicts s (wordOffset off - 0x1000) writes = true := by
  have hc : ∀ b, conflicts (withTurns rest s) (wordOffset off - 0x1000) b =
      conflicts s (wordOffset off - 0x1000) b := fun _ => rfl
  cases writes with
  | false =>
    change hostRead off (withTurns rest s) = _ ↔ _
    unfold hostRead
    simp only [hc]
    split
    · simp; omega
    · split
      · simp [*]; omega
      · split <;> simp [*]
  | true =>
    change hostWrite off v (withTurns rest s) = _ ↔ _
    unfold hostWrite answerXof
    simp only [hc]
    (repeat' split) <;> simp_all [exec_not_race]

/-- An access races exactly where it is a window access in conflict, whatever it writes. -/
theorem races_iff (s : State) (writes : Bool) (off : Offset) :
    Races s writes off ↔ 0x1000 ≤ wordOffset off ∧ conflicts s (wordOffset off - 0x1000) writes = true :=
  ⟨fun h => (hostAccess_race_iff ..).1 (h 0 []), fun h _ _ => (hostAccess_race_iff ..).2 h⟩

/-- An access either races or does not, whatever it writes. -/
theorem noRace_iff (s : State) (writes : Bool) (off : Offset) : NoRace s writes off ↔ ¬Races s writes off := by
  rw [races_iff]
  exact ⟨fun h h' => h 0 [] ((hostAccess_race_iff ..).2 h'), fun h _ _ h' => h ((hostAccess_race_iff ..).1 h')⟩

end Sys2Proof.Machine
end

