-- ==== Sys2Proof/Laws/Ring.lean ====
section
/-! SUPPORT. Coefficients of built polynomials, ranges of the modular operations, lengths of the transforms. -/

namespace Sys2Proof.Machine

theorem addQ_lt (a b : Nat) : addQ a b < Config.modulus := Nat.mod_lt _ (by decide)

theorem mulQ_lt (a b : Nat) : mulQ a b < Config.modulus := Nat.mod_lt _ (by decide)

theorem subQ_lt (a b : Nat) : subQ a b < Config.modulus := by
  unfold subQ Config.modulus; omega

/-- The floor modulus of a difference, on natural numbers, when the subtrahend is at most Q. -/
theorem subQ_eq {a b : Nat} (h : b ≤ Config.modulus) : subQ a b = (a + (Config.modulus - b)) % Config.modulus := by
  unfold subQ Config.modulus at *; omega

/-- Coefficient i of a built polynomial is the value given, narrowed to 12 bits. -/
theorem coeffAt_coeffsOfFn (f : Nat → Nat) {i : Nat} (h : i < 256) :
    coeffAt (coeffsOfFn f) i = f i % 2 ^ 12 := by
  simp [coeffAt, coeffsOfFn, toCoeff, h]

/-- A value below 2^12 is kept as it is. -/
theorem coeffAt_coeffsOfFn_of_lt {f : Nat → Nat} {i : Nat} (h : i < 256) (hf : f i < 2 ^ 12) :
    coeffAt (coeffsOfFn f) i = f i := by
  rw [coeffAt_coeffsOfFn f h, Nat.mod_eq_of_lt hf]

/-- Every coefficient is below 2^12. -/
theorem coeffAt_lt (a : Coeffs) (i : Nat) : coeffAt a i < 2 ^ 12 := by
  unfold coeffAt; exact BitVec.isLt _

/-- Two polynomials with the same 256 coefficients are the same. -/
theorem coeffs_ext {a b : Coeffs} (h : ∀ i, i < 256 → coeffAt a i = coeffAt b i) : a = b := by
  refine Vector.ext fun i hi => ?_
  have := h i hi
  simp only [coeffAt, Vector.getElem?_eq_getElem hi, Option.getD_some] at this
  exact BitVec.eq_of_toNat_eq this

/-- A polynomial is built from its own coefficients. -/
theorem coeffsOfFn_coeffAt (a : Coeffs) : coeffsOfFn (coeffAt a) = a :=
  coeffs_ext fun _ h => coeffAt_coeffsOfFn_of_lt h (coeffAt_lt a _)

@[simp] theorem coeffNats_length (a : Coeffs) : (coeffNats a).length = 256 := by
  simp [coeffNats]

/-- Entry i of the sequence of coefficients is coefficient i. -/
theorem coeffNats_getD (a : Coeffs) {i : Nat} (h : i < 256) : (coeffNats a).getD i 0 = coeffAt a i := by
  simp [coeffNats, coeffAt, List.getD, h]

/-- A polynomial is built from its own sequence of coefficients. -/
@[simp] theorem coeffsOfNats_coeffNats (a : Coeffs) : coeffsOfNats (coeffNats a) = a :=
  coeffs_ext fun i h => by
    have e := coeffNats_getD a h
    rw [coeffsOfNats, coeffAt_coeffsOfFn _ h]
    simp only [e, Nat.mod_eq_of_lt (coeffAt_lt a i)]

/-- The sequence of a polynomial built from 256 values below 2^12 is those values. -/
theorem coeffNats_coeffsOfNats {l : List Nat} (hl : l.length = 256) (hv : ∀ x ∈ l, x < 2 ^ 12) :
    coeffNats (coeffsOfNats l) = l := by
  refine List.ext_getElem (by simp [hl]) fun i h1 h2 => ?_
  have hi : i < 256 := by simpa using h1
  have e1 := coeffNats_getD (coeffsOfNats l) hi
  rw [List.getD_eq_getElem _ _ h1] at e1
  rw [e1, coeffsOfNats, coeffAt_coeffsOfFn _ hi]
  simp only [List.getD_eq_getElem _ _ h2, Nat.mod_eq_of_lt (hv _ (List.getElem_mem h2))]

/-- A forward level keeps the length when its groups cover the sequence. -/
theorem forwardLevel_length (len groups k : Nat) (f : List Nat) (h : 2 * len * groups ≤ f.length) :
    (forwardLevel len groups k f).length = f.length := by
  induction groups generalizing k f with
  | zero => rfl
  | succ groups ih =>
    have h' : 2 * len * groups + 2 * len ≤ f.length := by rw [Nat.mul_succ] at h; exact h
    simp only [forwardLevel, List.length_append, List.length_zipWith, List.length_take, List.length_drop]
    rw [ih _ _ (by rw [List.length_drop]; omega), List.length_drop]
    omega

/-- An inverse level keeps the length when its groups cover the sequence. -/
theorem inverseLevel_length (len groups k : Nat) (f : List Nat) (h : 2 * len * groups ≤ f.length) :
    (inverseLevel len groups k f).length = f.length := by
  induction groups generalizing k f with
  | zero => rfl
  | succ groups ih =>
    have h' : 2 * len * groups + 2 * len ≤ f.length := by rw [Nat.mul_succ] at h; exact h
    simp only [inverseLevel, List.length_append, List.length_zipWith, List.length_take, List.length_drop]
    rw [ih _ _ (by rw [List.length_drop]; omega), List.length_drop]
    omega

/-- Every value a forward level writes is below Q, and the values past its groups are kept. -/
theorem forwardLevel_lt (len groups k : Nat) (f : List Nat) (hf : ∀ x ∈ f, x < Config.modulus) :
    ∀ x ∈ forwardLevel len groups k f, x < Config.modulus := by
  induction groups generalizing k f with
  | zero => exact hf
  | succ groups ih =>
    intro x hx
    simp only [forwardLevel, List.mem_append] at hx
    rcases hx with (hx | hx) | hx
    · obtain ⟨i, hi, rfl⟩ := List.mem_iff_getElem.mp hx
      rw [List.getElem_zipWith]; exact addQ_lt _ _
    · obtain ⟨i, hi, rfl⟩ := List.mem_iff_getElem.mp hx
      rw [List.getElem_zipWith]; exact subQ_lt _ _
    · exact ih _ _ (fun y hy => hf y (List.mem_of_mem_drop hy)) x hx

end Sys2Proof.Machine
end

