-- ==== Sys2Proof/Laws/Runs.lean ====
section
/-! SUPPORT. Runs and their ends (spec/70_reset_and_hazards.md R178): an invariant of every step is one of every run, and
the engine has no enabled step where a run ends. -/

namespace Sys2Proof.Machine

/-- What every step keeps holds along every run. -/
theorem Run.keeps {P : State → Prop} (hstep : ∀ s t, P s → step s = .next t → P t) {s t : State} (h : Run s t)
    (hs : P s) : P t := by
  induction h with
  | refl => exact hs
  | turn _ next ih => exact hstep _ _ ih next

/-- A quiescent state is one whose engine is idle and may not start a command. -/
theorem quiescent_iff (s : State) : quiescent s ↔ s.eng = .idle ∧ canStart s = false := by
  unfold quiescent canStart State.qcount
  rw [List.length_eq_zero_iff]
  by_cases he : s.eng = .idle <;> cases s.queue <;> cases s.err <;> cases s.flt <;> simp [he]

/-- In a quiescent state the engine's turn changes nothing. -/
theorem engineTurn_quiescent {s : State} (h : quiescent s) : engineTurn s = .next s := by
  obtain ⟨he, hc⟩ := (quiescent_iff s).1 h
  simp [engineTurn, he, hc]

/-- Where a run has ended with no turn of any agent to come, it stays. -/
theorem step_runEnds {s : State} (h : runEnds s) (hs : s.schedule = []) : step s = .next s := by
  simp only [step, nextTurn, hs]
  exact engineTurn_quiescent h.1

/-- A clean entry state with no host access to come is a clean end. -/
theorem cleanEnd_of_cleanEntry {s : State} (h : cleanEntry s) (hs : afterLastAccess s) : cleanEnd s :=
  ⟨⟨⟨h.1, .inl h.2.2.1⟩, hs⟩, h.2.2.2.1, h.2.2.2.2, h.2.2.1⟩

end Sys2Proof.Machine
end

