-- ==== Sys2Proof/Tests/Slice0.lean ====
section
/-! SUPPORT. Small tests on words and values of the spec (its own file and line named at each), and for every statement
with hypotheses a witness that meets them. -/

namespace Sys2Proof.Tests

open Sys2Proof Sys2Proof.Machine

/-! ### Small states -/

/-- The reset state with the word `w` queued: its Start is the next step. -/
def ready (w : Word) : State := { State.reset with queue := [w] }

/-- The reset state with the word `w` executing: its Complete is the next step. -/
def running (w : Word) : State := { State.reset with queue := [w], eng := .exec w }

/-- A SAMPU into P7 that has accepted `acc`, with the chunk `c` at the port. -/
def sampling (acc : List Coeff) (c : Option Chunk) : State :=
  { State.reset with queue := [0x3B800000], eng := .sampling 7 acc 0x3B800000, xofIn := c }

/-- The polynomial with every coefficient `n`. -/
def flat (n : Nat) : Coeffs := coeffsOfFn fun _ => n

/-- BUF with `n` zero bytes from 0 up, but for the given first bytes. -/
def bytesOf (first : List Byte) (n : Nat) : List Host.Cell :=
  Memory.writeBytes [] 0 (first ++ List.replicate (n - first.length) 0)

/-- The state with `turns` as the turns to come. -/
def turns (ts : List Turn) : State := { State.reset with schedule := ts }

/-- What a step that answers a next state leaves, as far as a test asks. -/
def after {α : Type} (o : Host.Outcome State Fault Refusal) (ask : State → α) : Option α :=
  match o with
  | .next t => some (ask t)
  | _ => none

/-- Coefficient `i` of register `r`. -/
def lane (r : Reg) (i : Nat) (s : State) : Option Nat := s.p[r].coeffs.map fun a => coeffAt a i

/-- The fault a step stops with, if it does. -/
def faultOf (o : Host.Outcome State Fault Refusal) : Option Fault :=
  match o with
  | .fault f => some f
  | _ => none

/-! ### Well-formedness: an ill-formed command for each check -/

theorem test_wf_sampc_eta4 : (Instr.sampc 8 4 0x040).wellFormed = false := by decide
theorem test_wf_cmpr_d12 : (Instr.cmpr 9 5 12).wellFormed = false := by decide
theorem test_wf_cmpr_d0 : (Instr.cmpr 9 5 0).wellFormed = false := by decide
theorem test_wf_dcmp_d12 : (Instr.dcmp 5 9 12).wellFormed = false := by decide
theorem test_wf_enc_d13 : (Instr.enc 2 13 0).wellFormed = false := by decide
theorem test_wf_enc_d0 : (Instr.enc 2 0 0).wellFormed = false := by decide
theorem test_wf_dec_d13 : (Instr.dec 0 13 .coef 0).wellFormed = false := by decide
theorem test_wf_dec_12_cmpr : (Instr.dec 0 12 .cmpr 0).wellFormed = false := by decide
theorem test_wf_dec_4_coef : (Instr.dec 0 4 .coef 0).wellFormed = false := by decide
theorem test_wf_dec_12_ntt : (Instr.dec 0 12 .ntt 0).wellFormed = true := by decide

/-! ### Decoding: words laid out from the formats of spec/30_encoding.md R73 -/

/-- OP = 1, RD = 3, RA = 1, RB = 2, zeros (R89's worked sum). -/
theorem test_decode_add :
    decode (0b00001#5 ++ 0b0011#4 ++ 0b0001#4 ++ 0b0010#4 ++ 0#15) = .ok (.add 3 1 2) := by decide
/-- OP = 2, RD = 15, RA = 0, RB = 15. -/
theorem test_decode_sub :
    decode (0b00010#5 ++ 0b1111#4 ++ 0b0000#4 ++ 0b1111#4 ++ 0#15) = .ok (.sub 15 0 15) := by decide
/-- OP = 3, RD = 4, RA = 2, seven zeros, IMM12 = 4095. -/
theorem test_decode_smul :
    decode (0b00011#5 ++ 0b0100#4 ++ 0b0010#4 ++ 0#7 ++ 4095#12) = .ok (.smul 4 2 4095) := by decide
/-- OP = 4, RD = 6, RA = 2, RB = 3. -/
theorem test_decode_pmul :
    decode (0b00100#5 ++ 0b0110#4 ++ 0b0010#4 ++ 0b0011#4 ++ 0#15) = .ok (.pmul 6 2 3) := by decide
/-- OP = 5, RD = 1, RA = 0. -/
theorem test_decode_ntt : decode (0b00101#5 ++ 0b0001#4 ++ 0b0000#4 ++ 0#19) = .ok (.ntt 1 0) := by decide
/-- OP = 6, RD = 2, RA = 1. -/
theorem test_decode_intt : decode (0b00110#5 ++ 0b0010#4 ++ 0b0001#4 ++ 0#19) = .ok (.intt 2 1) := by decide
/-- OP = 7, RD = 7. -/
theorem test_decode_sampu : decode (0b00111#5 ++ 0b0111#4 ++ 0#23) = .ok (.sampu 7) := by decide
/-- OP = 8, P = 8, five zeros, T = 0, ETA = 3, ADDR = 0x040. -/
theorem test_decode_sampc :
    decode (0b01000#5 ++ 8#4 ++ 0#5 ++ 0#2 ++ 3#4 ++ 0x040#12) = .ok (.sampc 8 3 0x040) := by decide
/-- OP = 9, RD = 9, RA = 5, three zeros, D = 10. -/
theorem test_decode_cmpr :
    decode (0b01001#5 ++ 9#4 ++ 5#4 ++ 0#3 ++ 10#4 ++ 0#12) = .ok (.cmpr 9 5 10) := by decide
/-- OP = 10, RD = 5, RA = 9, D = 1. -/
theorem test_decode_dcmp :
    decode (0b01010#5 ++ 5#4 ++ 9#4 ++ 0#3 ++ 1#4 ++ 0#12) = .ok (.dcmp 5 9 1) := by decide
/-- OP = 11, P = 2, T = 0, D = 12, ADDR = 0xFFF. -/
theorem test_decode_enc :
    decode (0b01011#5 ++ 2#4 ++ 0#5 ++ 0#2 ++ 12#4 ++ 0xFFF#12) = .ok (.enc 2 12 0xFFF) := by decide
/-- OP = 12, P = 1, T = 0b11 (CMPR), D = 1, ADDR = 0x020. -/
theorem test_decode_dec :
    decode (0b01100#5 ++ 1#4 ++ 0#5 ++ 0b11#2 ++ 1#4 ++ 0x020#12) = .ok (.dec 1 1 .cmpr 0x020) := by decide
/-- The all-zero word, and the same word with bit 0 set (R85; spec/95_test_vectors.md X4). -/
theorem test_decode_nop : decode 0 = .ok .nop ∧ decode 1 = .error .illegalField := by decide
/-- X1, X2, X10: the opcode is checked first. -/
theorem test_decode_reserved :
    decode 0x68000000 = .error .illegalOpcode ∧ decode 0xF8000000 = .error .illegalOpcode ∧
      decode 0x6803C000 = .error .illegalOpcode := by decide
/-- X3, B11, K8, E7: a reserved bit, ETA = 4, D = 12 in CMPR, D = 12 with T = CMPR in DEC. -/
theorem test_decode_illegal :
    decode 0x09890001 = .error .illegalField ∧ decode 0x44004040 = .error .illegalField ∧
      decode 0x4CA8C000 = .error .illegalField ∧ decode 0x6003C000 = .error .illegalField := by decide
/-- The words of programs P2 and P8, encoded. -/
theorem test_encode_programs :
    encode (.pmul 4 2 3) = 0x22118000 ∧ encode (.dec 0 12 .ntt 0) = 0x6002C000 ∧
      encode (.sampc 1 2 0x180) = 0x40802180 ∧ encode (.enc 10 4 0x2A0) = 0x5D0042A0 := by decide
/-- The host's two names: the word of an instruction, decoded and run as the first step after reset. -/
theorem test_fetch_word :
    decodeTableWord 32 0x31080000 = some (.intt 2 1) ∧
      step (State.reset.withFetchWord 32 0x31080000) = exec (.intt 2 1) (ready 0x31080000) :=
  ⟨by decide, rfl⟩

/-! ### Start: the STATUS values of spec/95_test_vectors.md, section Decode and exceptions -/

/-- STATUS and ERRINFO after the Start of a word on the reset state. -/
def startStatus (s : State) : Option (Word × Word) := after (step s) fun t => (statusWord t, t.errinfo)

theorem test_X1 : startStatus (ready 0x68000000) = some (0x104, 0x68000000) := by decide
theorem test_X3 : startStatus (ready 0x09890001) = some (0x204, 0x09890001) := by decide
theorem test_X5 : startStatus (ready 0x5800CF00) = some (0x304, 0x5800CF00) := by decide
theorem test_X7 : startStatus ((ready 0x20800000).setP 0 (.coef (flat 0))) = some (0x2008, 0x20800000) := by
  decide +kernel
theorem test_X8 : startStatus (ready 0x28800000) = some (0x1008, 0x28800000) := by decide
theorem test_X9 : startStatus ((ready 0x52C84000).setP 9 (.cmpr 10 (flat 0))) = some (0x3008, 0x52C84000) := by
  decide +kernel
/-- X6: the 17th CMD write. -/
theorem test_X6 : startStatus { turns [.hostWrite 0x0C 0x1234] with queue := List.replicate 16 0 } =
    some (0x00100404, 0x1234) := by decide
/-- X11: NOP completes. -/
theorem test_X11 : after (step (running 0)) (fun t => (statusWord t, t.cmdcnt)) = some (2, 1) := by decide
/-- B12: SAMPC at 0xFC1 passes the end of BUF. -/
theorem test_B12 : startStatus (ready 0x44002FC1) = some (0x304, 0x44002FC1) := by decide
/-- E9: ENC D=12 at 0xE80 ends exactly at 4096, and is executing (BUSY, QCOUNT 1). -/
theorem test_E9 : startStatus ((ready 0x5800CE80).setP 0 (.ntt (flat 0))) = some (0x10001, 0) := by decide +kernel
/-- A14: EMPTY comes before the domain. -/
theorem test_A14 : startStatus ((ready 0x20810000).setP 2 (.coef (flat 0))) = some (0x1008, 0x20810000) := by
  decide +kernel
/-- E11: ENC D=4 of a COEF register. -/
theorem test_E11 : startStatus ((ready 0x58004000).setP 0 (.coef (flat 0))) = some (0x2008, 0x58004000) := by
  decide +kernel

/-! ### Complete: the vectors of spec/95_test_vectors.md, section L2 -/

/-- A1. -/
theorem test_A1 : after (exec (.add 2 0 1) (((running 0x09008000).setP 0 (.coef (flat 3000))).setP 1
    (.coef (flat 400)))) (lane 2 20) = some (some 71) := by decide +kernel
/-- A2 with RD = RA = RB: the sum of 3328 and itself. -/
theorem test_A2 : after (exec (.add 0 0 0) ((running 0x08000000).setP 0 (.ntt (flat 3328)))) (lane 0 0) =
    some (some 3327) := by decide +kernel
/-- A3. -/
theorem test_A3 : after (exec (.sub 2 0 1) (((running 0x11008000).setP 0 (.coef (flat 5))).setP 1
    (.coef (flat 7)))) (lane 2 0) = some (some 3327) := by decide +kernel
/-- A6. -/
theorem test_A6 : after (exec (.smul 1 0 4095) ((running 0x18800FFF).setP 0 (.coef (flat 1234)))) (lane 1 9) =
    some (some 3137) := by decide +kernel
/-- A11 and A12: pairs 0 and 1 of (5, 7) times (11, 13). -/
theorem test_A11_A12 : after (exec (.pmul 2 0 1)
    (((running 0x21008000).setP 0 (.ntt (coeffsOfFn fun i => 5 + 2 * (i % 2)))).setP 1
      (.ntt (coeffsOfFn fun i => 11 + 2 * (i % 2)))))
    (fun t => [lane 2 0 t, lane 2 1 t, lane 2 2 t, lane 2 3 t]) =
      some [some 1602, some 142, some 1837, some 142] := by decide +kernel
/-- T3: NTT of X^3 has the gammas at its odd entries. -/
theorem test_T3 : (forwardNtt ((List.range 256).map fun i => if i = 3 then 1 else 0)).take 8 =
    [0, 17, 0, 3312, 0, 2761, 0, 568] := by decide +kernel
/-- T7: INTT of e0. -/
theorem test_T7 : (inverseNtt (1 :: List.replicate 255 0)).take 8 = [3303, 0, 2740, 0, 357, 0, 21, 0] := by
  decide +kernel
/-- S1, S2, S5: the candidates of three chunks. -/
theorem test_S1_S2_S5 : accept (accept [] (firstCandidate 0x452301)) (secondCandidate 0x452301) = [769, 1106] ∧
    accept (accept [] (firstCandidate 0xD01D00)) (secondCandidate 0xD01D00) = [3328] ∧
    accept (accept [] (firstCandidate 0xD00FFF)) (secondCandidate 0xD00FFF) = [3328] := by decide
/-- S9: d1 fills slot 255, d2 is dropped, and the command completes. -/
theorem test_S9 : after (step (sampling (List.replicate 255 1) (some 0x452301)))
    (fun t => (lane 7 255 t, t.eng, t.xcnt, t.cmdcnt)) = some (some 769, .idle, 1, 1) := by decide +kernel
/-- B2 and B6, on the bit stream. -/
theorem test_B2_B6 : coeffAt (cbdCoeffs 2 (bitString [0x0C])) 0 = 3327 ∧
    coeffAt (cbdCoeffs 2 (bitString [0x01, 0, 0, 0x80])) 7 = 3328 := by decide +kernel
/-- B9, through SAMPC and BUF: bits 6, 7 and 8 give output 1. -/
theorem test_B9 : after (exec (.sampc 0 3 0) { running 0x40003000 with buf := bytesOf [0xC0, 0x01] 192 })
    (fun t => (lane 0 0 t, lane 0 1 t)) = some (some 0, some 3) := by decide +kernel
/-- K3, K4, R136: compression of 3328 wraps for D = 10 and not for D = 11. -/
theorem test_K3_K4 : compress 10 3328 = 0 ∧ compress 11 3328 = 2047 ∧ compress 5 417 = 4 := by decide
/-- K1 through CMPR. -/
theorem test_K1 : after (exec (.cmpr 1 0 1) ((running 0x48801000).setP 0 (.coef (flat 833))))
    (fun t => (lane 1 0 t, t.p[(1 : Reg)].cw)) = some (some 1, 1) := by decide +kernel
/-- K6, K7, R133. -/
theorem test_K6_K7 : decompress 4 15 = 3121 ∧ decompress 11 2047 = 3327 ∧ decompress 1 1 = 1665 := by decide
/-- R131's example through DCMP: D = 10, value 1. -/
theorem test_dcmp : after (exec (.dcmp 1 0 10) ((running 0x5080A000).setP 0 (.cmpr 10 (flat 1)))) (lane 1 20) =
    some (some 3) := by decide +kernel
/-- R145: the first rows of D = 12 and D = 11. -/
theorem test_R145_encode : streamBytes (packBits 12 [0x123, 0x456]) 4 = [0x23, 0x61, 0x45, 0x00] ∧
    streamBytes (packBits 11 [0x7FF, 0x7FF]) 4 = [0xFF, 0xFF, 0x3F, 0x00] := by decide
/-- P3's last command: ENC D=1 of c[0] = c[7] = c[8] = 1 writes 81 01 at its address. -/
theorem test_P3_enc : after (exec (.enc 2 1 0x020) ((running 0x59001020).setP 2
    (.cmpr 1 (coeffsOfFn fun i => if i = 0 ∨ i = 7 ∨ i = 8 then 1 else 0))))
    (fun t => (Memory.readBytes t.buf 0x20 3, Memory.read t.buf 0x1F, Memory.read t.buf 0x40)) =
      some (some [0x81, 0x01, 0x00], none, none) := by decide +kernel
/-- R145: decoding 01 F0 FF reduces the field 4095 to 766 and sees it out of range. -/
theorem test_R145_decode :
    [unpackBits 12 (bitString [0x01, 0xF0, 0xFF]) 0, unpackBits 12 (bitString [0x01, 0xF0, 0xFF]) 1] = [1, 4095] ∧
      4095 % 3329 = 766 ∧ someOutOfRange [1, 4095] = true ∧ someOutOfRange [3328, 0] = false := by decide
/-- E6 through DEC and BUF: D = 1, T = CMPR. -/
theorem test_E6 : after (exec (.dec 0 1 .cmpr 0) { running 0x60031000 with buf := bytesOf [0x81, 0x01] 32 })
    (fun t => ([lane 0 0 t, lane 0 1 t, lane 0 7 t, lane 0 8 t], t.p[(0 : Reg)].tag, t.rng)) =
      some ([some 1, some 0, some 1, some 1], .cmpr, false) := by decide +kernel

/-! ### The port -/

/-- P7: W1C of ERR flushes the waiting command and keeps ERRINFO. -/
theorem test_P7 : after (step { turns [.hostWrite 0x08 4] with
    queue := [0], err := some .illegalOpcode, errinfo := 0x68000000 })
    (fun t => (statusWord t, t.errinfo)) = some (0, 0x68000000) := by decide
/-- P6: SRST after a fault. -/
theorem test_P6 : after (step { turns [.hostWrite 0x04 7] with flt := some .domainMismatch, cmdcnt := 1 })
    (fun t => (statusWord t, ctrlWord t, t.cmdcnt)) = some (0, 0, 0) := by decide
/-- S10: an XDATA write with no request. -/
theorem test_S10 : after (step (turns [.hostWrite 0x10 0x452301])) statusWord = some 0x20 := by decide
/-- R61: the word at 0x1000 of the bytes 23 61 45 00. -/
theorem test_R61 : after (step { turns [.hostRead 0x1003] with buf := bytesOf [0x23, 0x61, 0x45, 0x00] 4 })
    (fun t => t.answer) = some (some 0x00456123) := by decide
/-- The reset state with P2 an NTT register and `ENC P2, 12, 0x180` queued, so that its Start passes. -/
def encQueued : State := (ready 0x5900C180).setP 2 (.ntt (flat 0))

/-- H1 and H2: a host write inside and outside the footprint of a queued ENC. -/
theorem test_H1_H2 : faultOf (hostWrite 0x1180 0 encQueued) = some .bufRace ∧
    after (hostWrite 0x1000 0 encQueued) (fun t => Memory.read t.buf 3) = some (some 0) := by decide +kernel
/-- R65: an ENC that its Start will refuse, P2 being EMPTY, has no footprint; with a DEC ahead that writes P2 it has one. -/
theorem test_R65_refused :
    after (hostWrite 0x1180 0 (ready 0x5900C180)) (fun _ => ()) = some () ∧
    faultOf (hostRead 0x1180 { State.reset with queue := [0x6101C000, 0x5900C180] }) = some .bufRace := by decide +kernel
/-- An unwritten byte read through the window (R21). -/
theorem test_uninit : faultOf (hostRead 0x1000 State.reset) = some .uninitRead := by decide
/-- R178: with a host access to come a run has not ended; the reset state with none is a clean end. -/
theorem test_R178 : ¬afterLastAccess (turns [.engine, .hostWrite 0x0C 0]) ∧ ¬runEnds (turns [.hostRead 0x08]) ∧
    cleanEnd State.reset ∧ ¬quiescent (ready 0) :=
  ⟨fun h => by simpa [Turn.isHostAccess] using h (.hostWrite 0x0C 0) (by decide),
    fun h => by simpa [Turn.isHostAccess] using h.2 (.hostRead 0x08) (by decide),
    ⟨⟨⟨rfl, .inl rfl⟩, by simp [afterLastAccess, State.reset]⟩, rfl, rfl, rfl⟩,
    by simp [quiescent, ready, State.reset, State.qcount]⟩
/-- P8's end: TAGS, CWLO and CWHI of a P0 COEF, P7 CMPR 1, P10 CMPR 4. -/
theorem test_tags :
    let s := ((State.reset.setP 0 (.coef (flat 0))).setP 7 (.cmpr 1 (flat 0))).setP 10 (.cmpr 4 (flat 0))
    (tagsWord s, cwloWord s, cwhiWord s) = (0x0030C001, 0x10000000, 0x00000400) := by decide +kernel

/-! ### Witnesses: states and operands that meet the hypotheses of each statement together -/

/-- P0 holds 3000s and P1 400s in the coefficient domain; the word `w` is executing. -/
def twoCoef (w : Word) : State := ((running w).setP 0 (.coef (flat 3000))).setP 1 (.coef (flat 400))

/-- P0 holds fives and P1 sevens in the NTT domain; the word `w` is executing. -/
def twoNtt (w : Word) : State := ((running w).setP 0 (.ntt (flat 5))).setP 1 (.ntt (flat 7))

/-- A step that lets the tests ask answers a next state. -/
theorem next_of_after {o : Host.Outcome State Fault Refusal} (h : (after o fun _ => ()) = some ()) :
    ∃ t, o = .next t := by
  cases o with
  | next t => exact ⟨t, rfl⟩
  | fault _ => cases h
  | refused _ => cases h

theorem below_flat {n q : Nat} (h : n % 2 ^ 12 < q) : Below q (flat n) := fun i hi => by
  rw [flat, coeffAt_coeffsOfFn _ hi]; exact h

theorem ready_ready (w : Word) : ReadyToStart (ready w) := ⟨rfl, rfl, by simp [ready], rfl, rfl⟩

theorem witness_DecodeOfEncode :
    (Instr.dec 15 12 .ntt 0xFFF).wellFormed = true ∧ (Instr.cmpr 0 15 11).wellFormed = true := by decide
theorem witness_EncodeOfDecode : decode 0x6783FFFF ≠ .ok .nop ∧ decode 0x678BBFFF ≠ .ok .nop ∧
    decode 0x6782CFFF = .ok (.dec 15 12 .ntt 0xFFF) := by decide
theorem witness_ReservedOpcodeRefused :
    ReadyToStart (ready 0x6FFFFFFF) ∧ 13 ≤ (ready 0x6FFFFFFF).head.toNat / 2 ^ 27 := ⟨ready_ready _, by decide⟩
/-- Bit 26 of NOP, and bit 18 of DEC. -/
theorem witness_ReservedBitsRefused :
    (ReadyToStart (ready 0x04000000) ∧ (ready 0x04000000).head.toNat / 2 ^ 27 = 0 ∧
      (ready 0x04000000).head &&& 0x07FFFFFF#32 ≠ 0) ∧
    ReadyToStart (ready 0x60040000) ∧ (ready 0x60040000).head.toNat / 2 ^ 27 = 12 ∧
      (ready 0x60040000).head &&& 0x007C0000#32 ≠ 0 :=
  ⟨⟨ready_ready _, by decide, by decide⟩, ready_ready _, by decide, by decide⟩
/-- CMPR with D = 12, DCMP with D = 0, ENC with D = 13, DEC with D = 0, with D = 12 and T = 3, with D = 11 and T = 2,
SAMPC with ETA = 4. -/
theorem witness_IllegalFieldValuesRefused :
    ∀ w ∈ [0x4800C000#32, 0x50000000, 0x5800D000, 0x60000000, 0x6003C000, 0x6002B000, 0x40004000],
      ReadyToStart (ready w) ∧
      let op := (ready w).head.toNat / 2 ^ 27
      let d := (ready w).head.toNat / 2 ^ 12 % 16
      let t := (ready w).head.toNat / 2 ^ 16 % 4
      ((op = 9 ∨ op = 10) ∧ ¬(1 ≤ d ∧ d ≤ 11) ∨
        op = 11 ∧ ¬(1 ≤ d ∧ d ≤ 12) ∨
        op = 12 ∧ (¬(1 ≤ d ∧ d ≤ 12) ∨ d = 12 ∧ t ≠ 1 ∧ t ≠ 2 ∨ d < 12 ∧ t ≠ 3) ∨
        op = 8 ∧ d ≠ 2 ∧ d ≠ 3) :=
  fun w hw => ⟨ready_ready w, by
    simp only [List.mem_cons, List.not_mem_nil, or_false] at hw
    rcases hw with rfl | rfl | rfl | rfl | rfl | rfl | rfl <;> decide⟩
theorem witness_StepRunsTheCommand :
    (ReadyToStart (ready 0x28800000) ∧ decode (ready 0x28800000).head = .ok (.ntt 1 0)) ∧
    ((running 0).schedule = [] ∧ (running 0).eng = .exec 0 ∧ decode 0 = .ok .nop) ∧
    ((sampling [] none).schedule = [] ∧ (sampling [] none).eng = .sampling 7 [] 0x3B800000) ∧
    (turns [.engine]).schedule = .engine :: [] ∧ (turns [.hostRead 0x1FFF]).schedule = .hostRead 0x1FFF :: [] ∧
    (turns [.hostWrite 0 1]).schedule = .hostWrite 0 1 :: [] ∧ (turns [.xof 1]).schedule = .xof 1 :: [] ∧
    (turns [.powerOn]).schedule = .powerOn :: [] :=
  ⟨⟨ready_ready _, by decide⟩, ⟨rfl, rfl, by decide⟩, ⟨rfl, rfl⟩, rfl, rfl, rfl, rfl, rfl⟩
/-- An empty queue; a waiting command under ERR; one under FAULT; and an executing NOP whose step is a next state. -/
theorem witness_StartsOnlyWhenEnabled :
    (State.reset.schedule = [] ∧ State.reset.eng = .idle ∧ State.reset.queue = []) ∧
    (∃ s : State, s.schedule = [] ∧ s.eng = .idle ∧ s.queue ≠ [] ∧ s.err ≠ none) ∧
    (∃ s : State, s.schedule = [] ∧ s.eng = .idle ∧ s.queue ≠ [] ∧ s.flt ≠ none) ∧
    ((ready 0).eng = .idle ∧ after (step (ready 0)) (fun t => decide (t.eng = .idle)) = some false) ∧
    ((running 0).eng ≠ .idle ∧ ∃ t, step (running 0) = .next t) :=
  ⟨⟨rfl, rfl, rfl⟩, ⟨{ ready 0 with err := some .illegalOpcode }, rfl, rfl, by simp [ready], by simp⟩,
    ⟨{ ready 0 with flt := some .emptyOperand }, rfl, rfl, by simp [ready], by simp⟩, ⟨rfl, by decide⟩, by simp [running],
    next_of_after (by decide)⟩
theorem witness_StartOfRegisterCommands : (ready 0x09890000).eng = .idle := rfl
theorem witness_StartOfBufferCommands : (ready 0x5900C180).eng = .idle := rfl
/-- A begun NOP, a SAMPU, an error and a fault. -/
theorem witness_StartIsPrecise : ∀ w ∈ [0#32, 0x3B800000, 0x68000000, 0x28800000],
    ReadyToStart (ready w) ∧ (after (step (ready w)) fun _ => ()) = some () :=
  fun w hw => ⟨ready_ready w, by
    simp only [List.mem_cons, List.not_mem_nil, or_false] at hw
    rcases hw with rfl | rfl | rfl | rfl <;> decide⟩
theorem witness_StartIgnoresData :
    ReadyToStart ((ready 0x28800000).setP 0 (.coef (flat 1))) ∧
    (∀ r : Reg, ((ready 0x28800000).setP 0 (.coef (flat 2))).p[r].tag =
        ((ready 0x28800000).setP 0 (.coef (flat 1))).p[r].tag ∧
      ((ready 0x28800000).setP 0 (.coef (flat 2))).p[r].cw =
        ((ready 0x28800000).setP 0 (.coef (flat 1))).p[r].cw) ∧
    (∃ t, step ((ready 0x28800000).setP 0 (.coef (flat 1))) = .next t) ∧
    ∃ t', step { (ready 0x28800000).setP 0 (.coef (flat 1)) with
      p := ((ready 0x28800000).setP 0 (.coef (flat 2))).p, buf := bytesOf [1] 4 } = .next t' :=
  ⟨⟨rfl, rfl, by simp [ready], rfl, rfl⟩, by decide +kernel, next_of_after (by decide +kernel),
    next_of_after (by decide +kernel)⟩
/-- An error at a Start, a fault at a Start, and CQ_OVERFLOW. -/
theorem witness_ExceptionsRaisedAtTwoPoints :
    (∃ t, step (ready 0x68000000) = .next t ∧ t.err ≠ (ready 0x68000000).err ∧ t.err ≠ none) ∧
    (∃ t, step (ready 0x28800000) = .next t ∧ t.flt ≠ (ready 0x28800000).flt ∧ t.flt ≠ none) ∧
    ∃ s t : State, step s = .next t ∧ t.err ≠ s.err ∧ t.err = some .cqOverflow ∧ s.queue.length = 16 :=
  ⟨⟨_, rfl, by decide, by decide⟩, ⟨_, rfl, by decide, by decide⟩,
    { turns [.hostWrite 0x0C 0x1234] with queue := List.replicate 16 0 }, _, rfl, by decide, rfl, rfl⟩
theorem witness_NopCompletes : (ready 0).eng = .idle ∧ (running 0).eng = .exec 0 := ⟨rfl, rfl⟩
/-- `ADD P2, P0, P1` in both domains. -/
theorem witness_AddCompletes :
    ((twoCoef 0x09008000).eng = .exec 0x09008000 ∧ (twoCoef 0x09008000).p[(0 : Reg)] = .coef (flat 3000) ∧
      (twoCoef 0x09008000).p[(1 : Reg)] = .coef (flat 400)) ∧
    (twoNtt 0x09008000).eng = .exec 0x09008000 ∧ (twoNtt 0x09008000).p[(0 : Reg)] = .ntt (flat 5) ∧
      (twoNtt 0x09008000).p[(1 : Reg)] = .ntt (flat 7) := ⟨⟨rfl, rfl, rfl⟩, rfl, rfl, rfl⟩
/-- `SUB P2, P0, P1` in both domains. -/
theorem witness_SubCompletes :
    ((twoCoef 0x11008000).eng = .exec 0x11008000 ∧ (twoCoef 0x11008000).p[(0 : Reg)] = .coef (flat 3000) ∧
      (twoCoef 0x11008000).p[(1 : Reg)] = .coef (flat 400)) ∧
    (twoNtt 0x11008000).eng = .exec 0x11008000 ∧ (twoNtt 0x11008000).p[(0 : Reg)] = .ntt (flat 5) ∧
      (twoNtt 0x11008000).p[(1 : Reg)] = .ntt (flat 7) := ⟨⟨rfl, rfl, rfl⟩, rfl, rfl, rfl⟩
theorem witness_SmulCompletes :
    ((twoCoef 0x18800FFF).eng = .exec 0x18800FFF ∧ (twoCoef 0x18800FFF).p[(0 : Reg)] = .coef (flat 3000)) ∧
    (twoNtt 0x18800FFF).eng = .exec 0x18800FFF ∧ (twoNtt 0x18800FFF).p[(0 : Reg)] = .ntt (flat 5) :=
  ⟨⟨rfl, rfl⟩, rfl, rfl⟩
theorem witness_PmulCompletes :
    (twoNtt 0x21008000).eng = .exec 0x21008000 ∧ (twoNtt 0x21008000).p[(0 : Reg)] = .ntt (flat 5) ∧
      (twoNtt 0x21008000).p[(1 : Reg)] = .ntt (flat 7) := ⟨rfl, rfl, rfl⟩
theorem witness_NttRunsTheLoops :
    (twoCoef 0x28800000).eng = .exec 0x28800000 ∧ (twoCoef 0x28800000).p[(0 : Reg)] = .coef (flat 3000) :=
  ⟨rfl, rfl⟩
theorem witness_InttRunsTheLoops :
    (twoNtt 0x30800000).eng = .exec 0x30800000 ∧ (twoNtt 0x30800000).p[(0 : Reg)] = .ntt (flat 5) := ⟨rfl, rfl⟩
theorem witness_SampuStarts : (ready 0x3B800000).eng = .idle := rfl
/-- Slot 255 filled by d1; a chunk that leaves the command short; a wait. -/
theorem witness_SampuTakesChunks :
    ((sampling (List.replicate 255 1) (some 0x452301)).eng = .sampling 7 (List.replicate 255 1) 0x3B800000 ∧
      (sampling (List.replicate 255 1) (some 0x452301)).xofIn = some 0x452301 ∧
      (List.replicate 255 (1 : Coeff)).length < 256 ∧
      (List.replicate 255 (1 : Coeff) ++ [BitVec.ofNat 12 ((0x452301 : Chunk).toNat % 4096)]).length = 256) ∧
    ((sampling [] (some 0xFFFFFF)).eng = .sampling 7 [] 0x3B800000 ∧
      (sampling [] (some 0xFFFFFF)).xofIn = some 0xFFFFFF) ∧
    (sampling [] none).eng = .sampling 7 [] 0x3B800000 ∧ (sampling [] none).xofIn = none :=
  ⟨⟨rfl, rfl, by decide +kernel, by decide +kernel⟩, ⟨rfl, rfl⟩, rfl, rfl⟩
theorem witness_SampcCompletes :
    ({ running 0x40002000 with buf := bytesOf [] 128 } : State).eng = .exec 0x40002000 ∧
    Holds { running 0x40002000 with buf := bytesOf [] 128 } (0 : BufAddr).toNat (64 * (2 : BitVec 4).toNat)
      (fun _ => 0) := ⟨rfl, by unfold Holds; decide +kernel⟩
theorem witness_CmprCompletes : 1 ≤ (11 : BitVec 4).toNat ∧ (11 : BitVec 4).toNat ≤ 11 ∧
    (twoCoef 0x4880B000).eng = .exec 0x4880B000 ∧ (twoCoef 0x4880B000).p[(0 : Reg)] = .coef (flat 3000) :=
  ⟨by decide, by decide, rfl, rfl⟩
theorem witness_DcmpCompletes : 1 ≤ (1 : BitVec 4).toNat ∧ (1 : BitVec 4).toNat ≤ 11 ∧
    ((running 0x50801000).setP 0 (.cmpr 1 (flat 1))).eng = .exec 0x50801000 ∧
    ((running 0x50801000).setP 0 (.cmpr 1 (flat 1))).p[(0 : Reg)] = .cmpr 1 (flat 1) ∧
    Below (2 ^ (1 : BitVec 4).toNat) (flat 1) :=
  ⟨by decide, by decide, rfl, rfl, below_flat (by decide)⟩
/-- `ENC P0, 12, 0xE80`: the range ends exactly at 4096. -/
theorem witness_EncCompletes : 1 ≤ (12 : BitVec 4).toNat ∧
    ((running 0x5800CE80).setP 0 (.ntt (flat 3328))).eng = .exec 0x5800CE80 ∧
    ((running 0x5800CE80).setP 0 (.ntt (flat 3328))).p[(0 : Reg)].coeffs = some (flat 3328) ∧
    (0xE80 : BufAddr).toNat + 32 * (12 : BitVec 4).toNat ≤ 4096 := ⟨by decide, rfl, rfl, by decide⟩
/-- The bytes of a constant string just written are held. -/
theorem holds_written (s : State) (addr : BufAddr) (m n : Nat) (v : Byte) (h : n ≤ (List.replicate m v).length) :
    Holds { s with buf := Memory.writeBytes [] addr.toNat (List.replicate m v) } addr.toNat n (fun _ => v) :=
  fun k hk => (Memory.read_writeBytes_inside _ _ _ k (Nat.lt_of_lt_of_le hk h)).trans
    (congrArg some (List.getElem_replicate _))
/-- D = 1 with T = CMPR, and D = 12 with T = COEF over bytes FF. -/
theorem witness_DecCompletes :
    ((Instr.dec 0 1 .cmpr 0).wellFormed = true ∧
      Holds { running 0x60031000 with buf := bytesOf [] 32 } (0 : BufAddr).toNat (32 * (1 : BitVec 4).toNat)
        (fun _ => 0)) ∧
    (Instr.dec 0 12 .coef 0).wellFormed = true ∧
      ({ running 0x6001C000 with buf := Memory.writeBytes [] (0 : BufAddr).toNat (List.replicate 384 0xFF) } : State).eng =
        .exec 0x6001C000 ∧
      Holds { running 0x6001C000 with buf := Memory.writeBytes [] (0 : BufAddr).toNat (List.replicate 384 0xFF) }
        (0 : BufAddr).toNat (32 * (12 : BitVec 4).toNat) (fun _ => 0xFF) :=
  ⟨⟨by decide, by unfold Holds; decide +kernel⟩, by decide, rfl,
    holds_written (running 0x6001C000) 0 384 _ 0xFF (by rw [List.length_replicate]; decide)⟩
theorem witness_UnwrittenByteStops :
    (running 0x6001C000).eng = .exec 0x6001C000 ∧
      Memory.read (running 0x6001C000).buf ((0 : BufAddr).toNat + 383) = none ∧
      383 < 32 * (12 : BitVec 4).toNat ∧ 127 < 64 * (2 : BitVec 4).toNat := ⟨rfl, rfl, by decide, by decide⟩
theorem witness_UnreachableCompletesStop :
    ((running 0x28800000).eng = .exec 0x28800000 ∧ (0 : Reg) ∈ sources (.ntt 1 0) ∧
      (running 0x28800000).p[(0 : Reg)] = .empty) ∧
    ((twoCoef 0x5800CE81).eng = .exec 0x5800CE81 ∧ (twoCoef 0x5800CE81).p[(0 : Reg)] ≠ .empty ∧
      4096 < (0xE81 : BufAddr).toNat + 32 * (12 : BitVec 4).toNat) ∧
    (running 0x68000000).schedule = [] ∧ (running 0x68000000).eng = .exec 0x68000000 ∧
      decode 0x68000000 = .error .illegalOpcode :=
  ⟨⟨rfl, by decide, rfl⟩, ⟨rfl, by decide +kernel, by decide⟩, rfl, rfl, by decide⟩
/-- A Complete of ADD, a Start of DEC, a Complete of DEC with D = 12 that sets RNG. -/
theorem witness_RegisterCommandFrame :
    (∃ t, exec (.add 2 0 1) (twoCoef 0x09008000) = .next t) ∧ (∃ t, exec (.dec 0 1 .cmpr 0) (ready 0x60031000) = .next t) ∧
    (after (exec (.dec 0 1 .cmpr 0) { running 0x60031000 with buf := bytesOf [] 32 }) fun _ => ()) = some () :=
  ⟨⟨_, rfl⟩, ⟨_, rfl⟩, by decide +kernel⟩
theorem witness_EncFrame :
    (∃ t, exec (.enc 0 12 0xE80) ((ready 0x5800CE80).setP 0 (.ntt (flat 3328))) = .next t) ∧
    ∃ t, exec (.enc 0 12 0xE80) ((running 0x5800CE80).setP 0 (.ntt (flat 3328))) = .next t := ⟨⟨_, rfl⟩, _, rfl⟩
theorem witness_SampuFrame :
    (∃ t, exec (.sampu 7) (ready 0x3B800000) = .next t) ∧
    ∃ t, exec (.sampu 7) (sampling [] (some 0x452301)) = .next t := ⟨⟨_, rfl⟩, _, rfl⟩
theorem witness_CommandsSetFlagsAsListed :
    (∃ t, exec (.ntt 1 0) (ready 0x28800000) = .next t) ∧ (∃ t, exec .nop (running 0) = .next t) ∧
    (∃ t, exec (.sampu 7) (sampling [] (some 0x452301)) = .next t) ∧
    after (exec (.dec 0 12 .coef 0)
      { running 0x6001C000 with buf := (List.range 384).map fun a => (a, 0xFF) })
      (fun t => (t.rng, t.done)) = some (true, true) :=
  ⟨⟨_, rfl⟩, ⟨_, rfl⟩, ⟨_, rfl⟩, by decide +kernel⟩

theorem reset_inv : State.reset.Inv where
  registers := fun r => by rw [show State.reset.p[r] = .empty from replicate_empty_get r]; trivial
  buffer := rfl
  queue := by decide
  exclusive := .inl rfl
  engine := trivial

/-- An executing NTT of a legal COEF register meets the invariant. -/
theorem executing_inv : ((running 0x28800000).setP 0 (.coef (flat 1))).Inv where
  registers := fun r => by
    by_cases h : r = 0
    · subst h
      rw [setP_get_same]
      exact below_flat (by decide)
    · rw [setP_get_ne _ _ h]
      rw [show (running 0x28800000).p[r] = .empty from replicate_empty_get r]
      trivial
  buffer := rfl
  queue := by decide
  exclusive := .inl rfl
  engine := ⟨rfl, .ntt 1 0, by decide, by simp, by decide +kernel⟩

theorem witness_StepKeepsInvariant :
    (State.reset.Inv ∧ ∃ t, step State.reset = .next t) ∧
    ((running 0x28800000).setP 0 (.coef (flat 1))).Inv ∧
      ∃ t, step ((running 0x28800000).setP 0 (.coef (flat 1))) = .next t :=
  ⟨⟨reset_inv, _, rfl⟩, executing_inv, _, rfl⟩
theorem witness_OnlyModelFaultsStop : State.reset.Inv := reset_inv
theorem witness_StepKeepsBufferCanonical :
    Memory.wf (turns [.hostWrite 0x1FFF 0x01020304]).buf = true ∧
      ∃ t, step (turns [.hostWrite 0x1FFF 0x01020304]) = .next t := ⟨rfl, _, rfl⟩
theorem witness_FaultClearedByResetOnly :
    (∃ t, ({ turns [.hostWrite 0x04 1] with flt := some .emptyOperand } : State).flt = some .emptyOperand ∧
      step { turns [.hostWrite 0x04 1] with flt := some .emptyOperand } = .next t ∧ t.flt ≠ some .emptyOperand) ∧
    ∃ t, step { turns [.powerOn] with flt := some .emptyOperand } = .next t ∧ t.flt ≠ some .emptyOperand :=
  ⟨⟨_, rfl, rfl, by decide⟩, _, rfl, by decide⟩
/-- Both resets, a completion, a refused Start. -/
theorem witness_CmdcntCountsCompletions :
    (∃ t, step (turns [.powerOn]) = .next t) ∧ (∃ t, step (turns [.hostWrite 0x0007 1]) = .next t) ∧
    ((0x0007 : Offset).toNat / 4 = 1 ∧ (1 : Word).getLsbD 0 = true) ∧
    ((running 0).eng ≠ .idle ∧ after (step (running 0)) (fun t => decide (t.eng = .idle)) = some true) ∧
    ((ready 0x68000000).eng = .idle ∧ ∃ t, step (ready 0x68000000) = .next t) :=
  ⟨⟨_, rfl⟩, ⟨_, rfl⟩, by decide, ⟨by simp [running], by decide⟩, rfl, next_of_after (by decide)⟩
theorem witness_QueueIsFifo : ∃ t, step (turns [.hostWrite 0x0C 0]) = .next t := ⟨_, rfl⟩
theorem witness_HostReadChangesNothing :
    (turns [.hostRead 0x0008]).schedule = .hostRead 0x0008 :: [] ∧
      ∃ t, step (turns [.hostRead 0x0008]) = .next t := ⟨rfl, _, rfl⟩
/-- The last register, the first and the last reserved offset; a write to ERRINFO. -/
theorem witness_RegisterMap : (∀ off ∈ [0x0028#13, 0x002C, 0x0FFF],
      (turns [.hostRead off]).schedule = .hostRead off :: [] ∧ off.toNat < 0x1000) ∧
    (turns [.hostWrite 0x0028 1]).schedule = .hostWrite 0x0028 1 :: [] ∧
      (5 ≤ (0x0028 : Offset).toNat / 4 ∧ (0x0028 : Offset).toNat / 4 < 0x400) :=
  ⟨fun off h => ⟨rfl, by
    simp only [List.mem_cons, List.not_mem_nil, or_false] at h
    rcases h with rfl | rfl | rfl <;> decide⟩, rfl, by decide⟩
/-- A step that lets the tests ask is no race. -/
theorem no_race_of_after {o : Host.Outcome State Fault Refusal} (h : (after o fun _ => ()) = some ()) :
    o ≠ .fault .bufRace := by
  rintro rfl; cases h
/-- The last word of the window written; the first word read; a first byte unwritten. -/
theorem witness_WindowIsLittleEndian :
    ((turns [.hostWrite 0x1FFF 1]).schedule = .hostWrite 0x1FFF 1 :: [] ∧ 0x1000 ≤ (0x1FFF : Offset).toNat ∧
      step (turns [.hostWrite 0x1FFF 1]) ≠ .fault .bufRace) ∧
    (∃ s : State, s.schedule = .hostRead 0x1000 :: [] ∧ step s ≠ .fault .bufRace ∧
      Memory.read s.buf 0 = some 0x23 ∧ Memory.read s.buf 1 = some 0x61 ∧ Memory.read s.buf 2 = some 0x45 ∧
      Memory.read s.buf 3 = some 0) ∧
    step (turns [.hostRead 0x1000]) ≠ .fault .bufRace ∧
      Memory.read (turns [.hostRead 0x1000]).buf ((0x1000 : Offset).toNat / 4 * 4 - 0x1000 + 0) = none :=
  ⟨⟨rfl, by decide, no_race_of_after (by decide)⟩,
    ⟨{ turns [.hostRead 0x1000] with buf := bytesOf [0x23, 0x61, 0x45, 0x00] 4 }, rfl, no_race_of_after (by decide),
      rfl, rfl, rfl, rfl⟩,
    by rw [show step (turns [.hostRead 0x1000]) = .fault .uninitRead from rfl]; simp, rfl⟩

/-- The first and the last word of ENC P2, 12, 0x180, read or written; the words before and after it are untouched. -/
theorem enc_touches : TouchesRange 0x5900C180 false 0x1180 ∧ TouchesRange 0x5900C180 true 0x12FC ∧
    ∀ writes, ¬TouchesRange 0x5900C180 writes 0x117C ∧ ¬TouchesRange 0x5900C180 writes 0x1300 := by
  have hd : decode 0x5900C180 = .ok (.enc 2 12 0x180) := by decide
  refine ⟨⟨0x180, 384, by decide, ⟨0x180, by decide, by decide, by unfold touches; decide⟩, .inl ⟨_, _, _, hd, rfl, rfl⟩⟩,
    ⟨0x180, 384, by decide, ⟨0x2FF, by decide, by decide, by unfold touches; decide⟩, .inl ⟨_, _, _, hd, rfl, rfl⟩⟩,
    fun writes => ⟨?_, ?_⟩⟩
  all_goals
    rintro ⟨addr, n, -, ⟨b, h1, h2, h3, h4⟩, ⟨p, d, a, h, rfl, rfl⟩ | ⟨-, ⟨p, d, t, a, h, -⟩ | ⟨p, d, a, h, -⟩⟩⟩ <;>
      rw [hd] at h <;> cases h
    simp at h1 h2 h3 h4
    omega

theorem encQueued_ready : ReadyToStart encQueued := ⟨rfl, rfl, by simp [encQueued, ready], rfl, rfl⟩

/-- An untouched ENC; an executing one and one about to begin; a refused one; one held by ERR; a Complete of the
invariant, on the engine's turn. -/
theorem witness_RacesAreFound :
    (∀ w ∈ encQueued.queue, ¬TouchesRange w true 0x117C) ∧
    ((running 0x5900C180).queue.head? = some 0x5900C180 ∧ TouchesRange 0x5900C180 true 0x12FC ∧
      (running 0x5900C180).eng ≠ .idle) ∧
    (encQueued.queue.head? = some 0x5900C180 ∧ TouchesRange 0x5900C180 false 0x1180 ∧ ReadyToStart encQueued ∧
      (after (step encQueued) fun t => decide (t.eng = .idle)) = some false) ∧
    (ReadyToStart (ready 0x5900C180) ∧ ((after (step (ready 0x5900C180)) fun t => decide (t.eng = .idle)) = some true) ∧
      ∀ w ∈ (ready 0x5900C180).queue.tail, ¬TouchesRange w true 0x1180) ∧
    (0x5900C180#32 ∈ ({ ready 0x5900C180 with err := some .cqOverflow } : State).queue ∧
      ({ ready 0x5900C180 with err := some .cqOverflow } : State).err ≠ none) ∧
    (((running 0x28800000).setP 0 (.coef (flat 1))).Inv ∧
      ((running 0x28800000).setP 0 (.coef (flat 1))).schedule = [] ∧
      ∃ t, step ((running 0x28800000).setP 0 (.coef (flat 1))) = .next t) :=
  ⟨fun w hw => by cases List.mem_singleton.1 hw; exact (enc_touches.2.2 true).1,
    ⟨rfl, enc_touches.2.1, by simp [running]⟩,
    ⟨rfl, enc_touches.1, encQueued_ready, by decide +kernel⟩,
    ⟨ready_ready _, by decide, by simp [ready]⟩,
    ⟨by simp [ready], by simp⟩,
    executing_inv, rfl, _, rfl⟩
theorem witness_CtrlWriteEffects :
    (turns [.hostWrite 0x0004 6]).schedule = .hostWrite 0x0004 6 :: [] ∧ (0x0004 : Offset).toNat / 4 = 1 ∧
      (6 : Word).getLsbD 0 = false ∧ (7 : Word).getLsbD 0 = true := ⟨rfl, by decide, by decide, by decide⟩
theorem witness_PowerOnEffects :
    (turns [.powerOn]).schedule = .powerOn :: [] ∧ ∃ t, step (turns [.powerOn]) = .next t := ⟨rfl, _, rfl⟩
theorem witness_StatusWriteEffects :
    (turns [.hostWrite 0x0008 4]).schedule = .hostWrite 0x0008 4 :: [] ∧ (0x0008 : Offset).toNat / 4 = 2 :=
  ⟨rfl, by decide⟩
/-- Under ERR, on a full queue, and on a queue of 15. -/
theorem witness_CmdWriteEffects :
    (turns [.hostWrite 0x000C 0]).schedule = .hostWrite 0x000C 0 :: [] ∧ (0x000C : Offset).toNat / 4 = 3 ∧
    (∃ s : State, s.queue.length ≤ 16 ∧ s.err ≠ none) ∧
    (∃ s : State, s.queue.length = 16 ∧ s.flt = none ∧ s.err = none) ∧
    ∃ s : State, s.queue.length = 15 ∧ s.flt = none ∧ s.err = none :=
  ⟨rfl, by decide, ⟨{ State.reset with err := some .illegalField }, by decide, by decide⟩,
    ⟨{ State.reset with queue := List.replicate 16 0 }, rfl, rfl, rfl⟩,
    { State.reset with queue := List.replicate 15 0 }, rfl, rfl, rfl⟩
theorem witness_XofAnswers : (0x0010 : Offset).toNat / 4 = 4 ∧
    (sampling [] none).eng = .sampling 7 [] 0x3B800000 ∧ State.reset.xreq = false ∧
    (turns [.xof 0x452301]).schedule = .xof 0x452301 :: [] := ⟨by decide, rfl, rfl, rfl⟩
theorem witness_HostCannotWriteRegisters :
    (∃ t, step (turns [.hostRead 0x0018]) = .next t) ∧
    (∃ t, step (turns [.hostWrite 0x0004 6]) = .next t) ∧ (0x0004 : Offset).toNat / 4 ≠ 4 ∧
      ¬((0x0004 : Offset).toNat / 4 = 1 ∧ (6 : Word).getLsbD 0 = true) := ⟨⟨_, rfl⟩, ⟨_, rfl⟩, by decide, by decide⟩
theorem witness_StatusFieldsAndIrq : ({ State.reset with queue := List.replicate 16 0 } : State).queue.length ≤ 16 := by
  decide
theorem witness_RingLaws : Below 3329 (flat 3328) := below_flat (by decide)
/-- `NTT P1, P0` executing, and `INTT P2, P1` executing later. -/
theorem witness_NttRoundTrip : Below 3329 (flat 3000) ∧ (twoCoef 0x28800000).eng = .exec 0x28800000 ∧
    (twoCoef 0x28800000).p[(0 : Reg)] = .coef (flat 3000) ∧
    ((running 0x31080000).setP 1 (.ntt (nttCoeffs (flat 3000)))).eng = .exec 0x31080000 :=
  ⟨below_flat (by decide), rfl, rfl, rfl⟩
theorem witness_NttProductIsNegacyclic : Below 3329 (flat 3328) ∧ Below 3329 (flat 1) ∧ 255 < 256 :=
  ⟨below_flat (by decide), below_flat (by decide), by decide⟩
theorem witness_CompressionLaws : 1 ≤ 11 ∧ 11 ≤ 11 ∧ Below (2 ^ 11) (flat 2047) ∧ Below 3329 (flat 3328) :=
  ⟨by decide, by decide, below_flat (by decide), below_flat (by decide)⟩
/-- ENC with D = 12 of an NTT register and with D = 1 of a CMPR register, both ending at 4096; DEC with D = 1, and
with D = 12 of bytes FF, whose fields are all at least Q. -/
theorem witness_EncodeDecodeRoundTrips :
    (((running 0x5800CE80).setP 0 (.ntt (flat 3328))).eng = .exec 0x5800CE80 ∧
      ((running 0x5800CE80).setP 0 (.ntt (flat 3328))).p[(0 : Reg)].Valid ∧
      (0xE80 : BufAddr).toNat + 32 * (12 : BitVec 4).toNat ≤ 4096 ∧
      ((running 0x5800CE80).setP 0 (.ntt (flat 3328))).p[(0 : Reg)].tag = .ntt) ∧
    (((running 0x58001FE0).setP 0 (.cmpr 1 (flat 1))).eng = .exec 0x58001FE0 ∧
      ((running 0x58001FE0).setP 0 (.cmpr 1 (flat 1))).p[(0 : Reg)].Valid ∧
      (0xFE0 : BufAddr).toNat + 32 * (1 : BitVec 4).toNat ≤ 4096 ∧
      ((running 0x58001FE0).setP 0 (.cmpr 1 (flat 1))).p[(0 : Reg)].tag = .cmpr ∧
      ((running 0x58001FE0).setP 0 (.cmpr 1 (flat 1))).p[(0 : Reg)].cw = 1) ∧
    ((Instr.dec 0 1 .cmpr 0).wellFormed = true ∧
      Holds { running 0x60031000 with buf := bytesOf [] 32 } (0 : BufAddr).toNat (32 * (1 : BitVec 4).toNat)
        (fun _ => 0)) ∧
    ((Instr.dec 0 12 .coef 0).wellFormed = true ∧
      Holds { running 0x6001C000 with buf := Memory.writeBytes [] (0 : BufAddr).toNat (List.replicate 384 0xFF) }
        (0 : BufAddr).toNat (32 * (12 : BitVec 4).toNat) (fun _ => 0xFF)) :=
  ⟨⟨rfl, below_flat (by decide), by decide, rfl⟩,
    ⟨rfl, ⟨by decide, by decide, below_flat (by decide)⟩, by decide, rfl, rfl⟩,
    ⟨by decide, by unfold Holds; decide +kernel⟩,
    by decide, holds_written (running 0x6001C000) 0 384 _ 0xFF (by rw [List.length_replicate]; decide)⟩

end Sys2Proof.Tests
end

/-! ### The step, turn by turn

What `step` and the engine's turn are in each case of their definitions; the obligation on `step` is read off them. -/

namespace Sys2Proof.Machine

section
variable {s : State}

/-- With no turn scheduled, the engine has the turn (log 1). -/
theorem step_of_schedule_nil (h : s.schedule = []) : step s = engineTurn s := by
  simp only [step, nextTurn, h]

/-- A scheduled turn is taken on the state with that turn dropped (spec/00_scope.md R11). -/
theorem step_of_schedule_cons {t : Turn} {rest : List Turn} (h : s.schedule = t :: rest) :
    step s = takeTurn t (withTurns rest s) := by
  simp only [step, nextTurn, h]

/-- The Start of a head that decodes (spec/10_state.md R38, spec/60_exceptions.md R160). -/
theorem engineTurn_start {i : Instr} (h : canStart s = true) (hd : decode s.head = .ok i) :
    engineTurn s = exec i s := by
  obtain ⟨heng, -⟩ := (canStart_iff s).1 h
  simp only [engineTurn, heng, h, if_true, hd]

/-- The Complete of an executing word (spec/60_exceptions.md R161). -/
theorem engineTurn_complete {w : Word} {i : Instr} (heng : s.eng = .exec w) (hd : decode w = .ok i) :
    engineTurn s = exec i s := by
  simp only [engineTurn, heng, hd]

/-- The Chunk step of a sampling SAMPU, or its wait (spec/42_sampling.md R118). -/
theorem engineTurn_sample {rd : Reg} {acc : List Coeff} {w : Word} (heng : s.eng = .sampling rd acc w) :
    engineTurn s = exec (.sampu rd) s := by
  simp only [engineTurn, heng]

/-- A state about to start its head has the engine's turn. -/
theorem ReadyToStart.step_eq (h : ReadyToStart s) : step s = engineTurn s :=
  step_of_schedule_nil h.turn

/-- A state about to start its head meets the four conditions of R38. -/
theorem ReadyToStart.canStart (h : ReadyToStart s) : canStart s = true :=
  (canStart_iff s).2 ⟨h.eng, h.queue, h.err, h.flt⟩

end

/-- Settles O7, by the equations of the engine's turn for an empty schedule and those of a scheduled turn. -/
theorem stepRunsTheCommand : Obligations.StepRunsTheCommand := by
  unfold Obligations.StepRunsTheCommand
  refine ⟨?start, ?complete, ?sample, ?unscheduled, ?engine, ?hostRead, ?hostWrite, ?xof, ?powerOn⟩
  case start => exact fun s i hready hd => hready.step_eq.trans (engineTurn_start hready.canStart hd)
  case complete => exact fun s w i hs heng hd => (step_of_schedule_nil hs).trans (engineTurn_complete heng hd)
  case sample => exact fun s rd acc w hs heng => (step_of_schedule_nil hs).trans (engineTurn_sample heng)
  case unscheduled => exact fun s => step_of_schedule_nil
  -- `takeTurn` of each agent's turn is that agent's function, by its definition.
  case engine => exact fun s rest => step_of_schedule_cons
  case hostRead => exact fun s off rest => step_of_schedule_cons
  case hostWrite => exact fun s off v rest => step_of_schedule_cons
  case xof => exact fun s chunk rest => step_of_schedule_cons
  case powerOn => exact fun s rest => step_of_schedule_cons

end Sys2Proof.Machine

/-! ### What a Complete writes

The result of each command's Complete, read off its meaning once; the frame, the flags and the invariant follow from
it. -/

namespace Sys2Proof.Machine

/-- The content that the Complete of a command writes to its destination register, where `s` holds its sources. -/
inductive ResultOf (s : State) : Instr → Poly → Prop where
  | add {rd ra rb : Reg} {a b : Coeffs} (ha : s.p[ra].coeffs = some a) (hb : s.p[rb].coeffs = some b) :
      ResultOf s (.add rd ra rb) (.make s.p[ra].tag 0 (addCoeffs a b))
  | sub {rd ra rb : Reg} {a b : Coeffs} (ha : s.p[ra].coeffs = some a) (hb : s.p[rb].coeffs = some b) :
      ResultOf s (.sub rd ra rb) (.make s.p[ra].tag 0 (subCoeffs a b))
  | smul {rd ra : Reg} {imm : BitVec 12} {a : Coeffs} (ha : s.p[ra].coeffs = some a) :
      ResultOf s (.smul rd ra imm) (.make s.p[ra].tag 0 (scaleCoeffs a imm.toNat))
  | pmul {rd ra rb : Reg} {a b : Coeffs} (ha : s.p[ra].coeffs = some a) (hb : s.p[rb].coeffs = some b) :
      ResultOf s (.pmul rd ra rb) (.ntt (mulPairs a b))
  | ntt {rd ra : Reg} {a : Coeffs} (ha : s.p[ra].coeffs = some a) : ResultOf s (.ntt rd ra) (.ntt (nttCoeffs a))
  | intt {rd ra : Reg} {a : Coeffs} (ha : s.p[ra].coeffs = some a) : ResultOf s (.intt rd ra) (.coef (inttCoeffs a))
  | sampc {p : Reg} {eta : BitVec 4} {addr : BufAddr} {bs : List Byte}
      (hbs : Memory.readBytes s.buf addr.toNat (cbdBytes eta) = some bs) :
      ResultOf s (.sampc p eta addr) (.coef (cbdCoeffs eta.toNat (bitString bs)))
  | cmpr {rd ra : Reg} {d : BitVec 4} {a : Coeffs} (ha : s.p[ra].coeffs = some a) :
      ResultOf s (.cmpr rd ra d) (.cmpr d (compressCoeffs d.toNat a))
  | dcmp {rd ra : Reg} {d : BitVec 4} {a : Coeffs} (ha : s.p[ra].coeffs = some a) :
      ResultOf s (.dcmp rd ra d) (.coef (decompressCoeffs d.toNat a))
  | dec {p : Reg} {d : BitVec 4} {tag : Tag} {addr : BufAddr} {bs : List Byte}
      (hbs : Memory.readBytes s.buf addr.toNat (packedBytes d) = some bs) :
      ResultOf s (.dec p d tag addr)
        (if d.toNat = 12 then .make tag 0 (coeffsOfNats ((decodeFields d.toNat bs).map (· % Config.modulus)))
          else .cmpr d (coeffsOfNats (decodeFields d.toNat bs)))

/-- The ways a Complete of a command other than SAMPU can answer a next state: NOP's bookkeeping alone, a register
result, and ENC's bytes. RNG is set by a DEC with D = 12 only (spec/44_serialize.md R140). -/
inductive CompleteCases (i : Instr) (s t : State) : Prop where
  | nop (ht : t = retire s)
  | register (rd : Reg) (v : Poly) (rng : Bool) (hd : destination i = some rd) (hv : ResultOf s i v)
      (hr : rng = s.rng ∨ rng = true ∧ ∃ p d tag addr, i = .dec p d tag addr ∧ d.toNat = 12)
      (ht : t = retire { s with p := s.p.set rd v, rng := rng })
  | enc (p : Reg) (d : BitVec 4) (addr : BufAddr) (bs : List Byte) (hi : i = .enc p d addr)
      (hr : addr.toNat + bs.length ≤ Config.bufSize)
      (ht : t = retire { s with buf := Memory.writeBytes s.buf addr.toNat bs })

/-- A register result under which RNG stays. -/
theorem CompleteCases.of_setP {i : Instr} {s : State} {rd : Reg} {v : Poly} (hd : destination i = some rd)
    (hv : ResultOf s i v) : CompleteCases i s (retire (s.setP rd v)) :=
  .register rd v s.rng hd hv (.inl rfl) rfl

@[simp] theorem streamBytes_length (stream n : Nat) : (streamBytes stream n).length = n := by
  induction n generalizing stream with
  | zero => rfl
  | succ n ih => simp [streamBytes, ih]

/-- byte_encode_D gives 32·D bytes (spec/44_serialize.md R137). -/
@[simp] theorem encodeBytes_length (d : Nat) (c : Coeffs) : (encodeBytes d c).length = 32 * d :=
  streamBytes_length _ _

/-- DEC leaves RNG, or sets it, and then D = 12. -/
theorem decodeInto_rng_cases (p : Reg) (d : BitVec 4) (t : Tag) (fields : List Nat) (s : State) :
    (decodeInto p d t fields s).rng = s.rng ∨ (decodeInto p d t fields s).rng = true ∧ d.toNat = 12 := by
  rw [decodeInto_rng]
  by_cases hd : d.toNat = 12 <;> cases someOutOfRange fields <;> simp [hd]

/-- A Complete of two sources that answers a next state has written the result of their coefficients. -/
theorem completeBinary_next {s u : State} {rd ra rb : Reg} {t : Tag} {f : Coeffs → Coeffs → Coeffs}
    (h : completeBinary rd ra rb t f s = .next u) : ∃ a b, s.p[ra].coeffs = some a ∧ s.p[rb].coeffs = some b ∧
      u = retire (s.setP rd (.make t 0 (f a b))) := by
  unfold completeBinary at h
  obtain ⟨a, ha, h⟩ := withSource_next h
  obtain ⟨b, hb, h⟩ := withSource_next h
  cases h
  exact ⟨a, b, ha, hb, rfl⟩

/-- What the Complete of a command other than SAMPU does. -/
theorem exec_completeCases {i : Instr} {s t : State} {w : Word} (he : s.eng = .exec w) (hi : ∀ rd, i ≠ .sampu rd)
    (h : exec i s = .next t) : CompleteCases i s t := by
  cases i with
  | sampu rd => exact absurd rfl (hi rd)
  | nop =>
    simp only [exec, execNop, twoPhase_exec he] at h
    cases h; exact .nop rfl
  | add =>
    simp only [exec, execAdd, twoPhase_exec he] at h
    obtain ⟨a, b, ha, hb, rfl⟩ := completeBinary_next h
    exact .of_setP rfl (.add ha hb)
  | sub =>
    simp only [exec, execSub, twoPhase_exec he] at h
    obtain ⟨a, b, ha, hb, rfl⟩ := completeBinary_next h
    exact .of_setP rfl (.sub ha hb)
  | pmul =>
    simp only [exec, execPmul, twoPhase_exec he] at h
    obtain ⟨a, b, ha, hb, rfl⟩ := completeBinary_next h
    exact .of_setP rfl (.pmul ha hb)
  | smul =>
    simp only [exec, execSmul, twoPhase_exec he] at h
    obtain ⟨a, ha, h⟩ := withSource_next h
    cases h; exact .of_setP rfl (.smul ha)
  | ntt =>
    simp only [exec, execNtt, twoPhase_exec he] at h
    obtain ⟨a, ha, h⟩ := withSource_next h
    cases h; exact .of_setP rfl (.ntt ha)
  | intt =>
    simp only [exec, execIntt, twoPhase_exec he] at h
    obtain ⟨a, ha, h⟩ := withSource_next h
    cases h; exact .of_setP rfl (.intt ha)
  | cmpr =>
    simp only [exec, execCmpr, twoPhase_exec he] at h
    obtain ⟨a, ha, h⟩ := withSource_next h
    cases h; exact .of_setP rfl (.cmpr ha)
  | dcmp =>
    simp only [exec, execDcmp, twoPhase_exec he] at h
    obtain ⟨a, ha, h⟩ := withSource_next h
    cases h; exact .of_setP rfl (.dcmp ha)
  | sampc =>
    simp only [exec, execSampc, twoPhase_exec he] at h
    obtain ⟨bs, hbs, h⟩ := withBytes_next h
    cases h; exact .of_setP rfl (.sampc hbs)
  | dec p d tag addr =>
    simp only [exec, execDec, twoPhase_exec he] at h
    obtain ⟨bs, hbs, h⟩ := withBytes_next h
    cases h
    rw [decodeInto_rest, decodeInto_p]
    refine .register p _ _ rfl (.dec hbs) ?_ rfl
    exact (decodeInto_rng_cases ..).imp_right fun ⟨hr, hd⟩ => ⟨hr, p, d, tag, addr, rfl, hd⟩
  | enc p d addr =>
    simp only [exec, execEnc, twoPhase_exec he] at h
    obtain ⟨a, -, h⟩ := withSource_next h
    split at h
    · next hr => cases h; exact .enc p d addr _ rfl (by rwa [encodeBytes_length]) rfl
    · cases h

end Sys2Proof.Machine

/-! ### What a turn can do

The effects of a turn of any agent in one list: each statement about every step is a case analysis on it. -/

namespace Sys2Proof.Machine

/-- The ways a turn can take the state `s`, with that turn taken off the schedule, to a next state. -/
inductive TurnEffect (turn : Turn) (s t : State) : Prop where
  /-- No step is enabled, or the access is ignored. -/
  | nothing (ht : t = s)
  /-- A host read. -/
  | answers (v : Word) (ht : t = { s with answer := some v })
  /-- A Start that takes an exception. -/
  | refuses (e : Exc) (hs : canStart s = true) (ht : t = takeExc e s)
  /-- The Start of a command other than SAMPU. -/
  | begins (i : Instr) (hs : canStart s = true) (hd : decode s.head = .ok i) (hi : ∀ rd, i ≠ .sampu rd)
      (hc : firstFailing (startChecks i s.kinds) = none) (ht : t = beginExec s)
  /-- The Start of SAMPU. -/
  | samples (rd : Reg) (hs : canStart s = true) (hd : decode s.head = .ok (.sampu rd)) (ht : t = beginSampling rd s)
  /-- A Complete. -/
  | completes (w : Word) (i : Instr) (he : s.eng = .exec w) (hd : decode w = .ok i) (hi : ∀ rd, i ≠ .sampu rd)
      (h : exec i s = .next t)
  /-- A Chunk step. -/
  | chunk (rd : Reg) (acc : List Coeff) (w : Word) (c : Chunk) (he : s.eng = .sampling rd acc w)
      (ht : t = chunkStep rd acc w c s)
  /-- A host write to CTRL. -/
  | ctrl (off : Offset) (v : Word) (hturn : turn = .hostWrite off v) (ho : wordOffset off = 0x04)
      (ht : t = writeCtrl v s)
  /-- A host write to STATUS. -/
  | status (v : Word) (ht : t = writeStatus v s)
  /-- A host write to CMD. -/
  | cmd (w : Word) (ht : t = writeCmd w s)
  /-- A host write to XDATA with no chunk requested. -/
  | spurious (ht : t = { s with xspur := true })
  /-- A host write to the window, inside BUF. -/
  | window (a : Nat) (v : Word) (ha : a + 4 ≤ Config.bufSize) (ht : t = { s with buf := writeWindow s.buf a v })
  /-- The reset input. -/
  | powerOn (hturn : turn = .powerOn) (ht : t = powerOnReset s)

variable {turn : Turn} {s t : State}

/-- The Start of a decoded head is refused, begins it, or begins to sample. -/
theorem TurnEffect.of_start {i : Instr} (hs : canStart s = true) (hd : decode s.head = .ok i)
    (h : exec i s = .next t) : TurnEffect turn s t := by
  obtain ⟨heng, -⟩ := (canStart_iff s).1 hs
  cases exec_cases h with
  | refusedStart e _ _ ht => exact .refuses e hs ht
  | begins _ hc hi ht => exact .begins i hs hd hi hc ht
  | samples rd _ hi ht => exact .samples rd hs (hi ▸ hd) ht
  | completes w he => rw [heng] at he; cases he
  | chunk rd acc w c he => rw [heng] at he; cases he
  | waits he => exact absurd heng he

/-- An executing word's own step is its Complete; the word of a SAMPU has none there (log 11). -/
theorem TurnEffect.of_exec {w : Word} {i : Instr} (he : s.eng = .exec w) (hd : decode w = .ok i)
    (h : exec i s = .next t) : TurnEffect turn s t := by
  cases exec_cases h with
  | completes _ _ hi => exact .completes w i he hd hi h
  | waits _ ht => exact .nothing ht
  | refusedStart _ he' => rw [he] at he'; cases he'
  | begins he' => rw [he] at he'; cases he'
  | samples _ he' => rw [he] at he'; cases he'
  | chunk _ _ _ _ he' => rw [he] at he'; cases he'

/-- A sampling SAMPU takes the chunk at the port, or waits. -/
theorem TurnEffect.of_sampling {rd : Reg} {acc : List Coeff} {w : Word} (he : s.eng = .sampling rd acc w)
    (h : exec (.sampu rd) s = .next t) : TurnEffect turn s t := by
  cases hx : s.xofIn with
  | none => rw [exec_sampu_wait he hx] at h; cases h; exact .nothing rfl
  | some c => rw [exec_sampu_chunk he hx] at h; cases h; exact .chunk rd acc w c he rfl

/-- A chunk just offered is the one taken, for the Chunk step empties the port. -/
theorem TurnEffect.of_offered {rd : Reg} {acc : List Coeff} {w : Word} {c : Chunk} (he : s.eng = .sampling rd acc w)
    (h : exec (.sampu rd) (offerChunk c s) = .next t) : TurnEffect turn s t := by
  rw [exec_sampu_chunk (s := offerChunk c s) he rfl] at h
  cases h
  exact .chunk rd acc w c he rfl

/-- What the engine's turn can do. -/
theorem engineTurn_effect (h : engineTurn s = .next t) : TurnEffect turn s t := by
  cases engineTurn_cases h with
  | idles ht => exact .nothing ht
  | notACommand e hs hd ht => exact .refuses (decodeExc e) hs ht
  | starts i hs hd h => exact .of_start hs hd h
  | completes w i he hd h => exact .of_exec he hd h
  | samples rd acc w he h => exact .of_sampling he h

/-- What a host write can do. -/
theorem hostWrite_effect {off : Offset} {v : Word} (h : hostWrite off v s = .next t) :
    TurnEffect (.hostWrite off v) s t := by
  cases hostWrite_cases h with
  | ctrl ho ht => exact .ctrl off v rfl ho ht
  | status ho ht => exact .status v ht
  | cmd ho ht => exact .cmd v ht
  | xdataAnswer rd acc w ho he h => exact .of_offered he h
  | xdataSpurious ho hx ht => exact .spurious ht
  | ignored ho hc ht => exact .nothing ht
  | window ho hc ht =>
    have hlt := off.isLt
    exact .window _ v (by unfold wordOffset Config.bufSize at *; omega) ht

/-- What a turn can do when it answers a next state. -/
theorem takeTurn_effect (h : takeTurn turn s = .next t) : TurnEffect turn s t := by
  cases turn with
  | engine => exact engineTurn_effect h
  | hostRead off =>
    obtain ⟨v, ht⟩ := hostRead_cases h
    exact .answers v ht
  | hostWrite off v => exact hostWrite_effect h
  | xof c =>
    rcases answerXof_cases h with ⟨rd, acc, w, he, h⟩ | ⟨-, ht⟩
    · exact .of_offered he h
    · exact .nothing ht
  | powerOn => cases h; exact .powerOn rfl rfl

/-- A step is the first turn of the schedule, and the engine's turn with an empty one, on the state with that turn
dropped. -/
theorem step_effect (h : step s = .next t) :
    ∃ turn rest, (s.schedule = turn :: rest ∨ s.schedule = [] ∧ turn = .engine) ∧
      TurnEffect turn (withTurns rest s) t := by
  cases hs : s.schedule with
  | nil =>
    have hself : withTurns [] s = s := by rw [← hs]; rfl
    rw [step_of_schedule_nil hs] at h
    exact ⟨.engine, [], .inr ⟨rfl, rfl⟩, hself.symm ▸ engineTurn_effect h⟩
  | cons turn rest =>
    rw [step_of_schedule_cons hs] at h
    exact ⟨turn, rest, .inl rfl, takeTurn_effect h⟩

end Sys2Proof.Machine

/-! ### The host's writes to the registers of the port

What a write to CTRL, STATUS and CMD does (spec/10_state.md R28, R30, R31, R35), an equation per case. -/

namespace Sys2Proof.Machine

section
variable {v : Word} {s : State}

theorem writeCtrl_reset (hv : v.getLsbD 0 = true) : writeCtrl v s = softReset s := by
  simp only [writeCtrl, hv, if_true]

theorem writeCtrl_enables (hv : v.getLsbD 0 = false) :
    writeCtrl v s = { s with ieDone := v.getLsbD 1, ieErr := v.getLsbD 2 } := by
  simp only [writeCtrl, hv, Bool.false_eq_true, if_false]

/-- Under ERR or FAULT a write to CMD is ignored. -/
theorem writeCmd_held (h : s.flt ≠ none ∨ s.err ≠ none) : writeCmd v s = s :=
  if_pos (by simpa [Option.isSome_iff_ne_none] using h)

/-- On a full queue a write to CMD raises CQ_OVERFLOW and drops its word (spec/60_exceptions.md R157). -/
theorem writeCmd_full (hflt : s.flt = none) (herr : s.err = none) (hfull : Config.queueDepth ≤ s.queue.length) :
    writeCmd v s = { s with err := some .cqOverflow, errinfo := v } := by
  unfold writeCmd
  rw [if_neg (by simp [hflt, herr])]
  exact if_pos hfull

/-- Else a write to CMD appends its word. -/
theorem writeCmd_room (hflt : s.flt = none) (herr : s.err = none) (hroom : s.queue.length < Config.queueDepth) :
    writeCmd v s = { s with queue := s.queue ++ [v] } := by
  unfold writeCmd
  rw [if_neg (by simp [hflt, herr])]
  exact if_neg (Nat.not_le.2 hroom)

end

section
variable (v : Word) (s : State)

/-- The three cases of a write to CMD. -/
theorem writeCmd_cases : writeCmd v s = s ∨
    (s.flt = none ∧ writeCmd v s = { s with err := some .cqOverflow, errinfo := v }) ∨
    (s.queue.length < Config.queueDepth ∧ writeCmd v s = { s with queue := s.queue ++ [v] }) := by
  by_cases hheld : s.flt ≠ none ∨ s.err ≠ none
  · exact .inl (writeCmd_held hheld)
  obtain ⟨hflt, herr⟩ : s.flt = none ∧ s.err = none := by simpa using hheld
  rcases Nat.lt_or_ge s.queue.length Config.queueDepth with hroom | hfull
  · exact .inr (.inr ⟨hroom, writeCmd_room hflt herr hroom⟩)
  · exact .inr (.inl ⟨hflt, writeCmd_full hflt herr hfull⟩)

/-- A write to STATUS field by field; with ERR = 0 the bit of ERR does nothing. -/
theorem writeStatus_eq : writeStatus v s =
    { s with
      done := if v.getLsbD 1 then false else s.done
      rng := if v.getLsbD 4 then false else s.rng
      xspur := if v.getLsbD 5 then false else s.xspur
      err := if v.getLsbD 2 then none else s.err
      queue := if v.getLsbD 2 = true ∧ s.err ≠ none then (if s.eng = .idle then [] else s.queue.take 1)
        else s.queue } := by
  have hbit : ∀ b c : Bool, (b && !c) = if c then false else b := by decide
  unfold writeStatus
  cases h2 : v.getLsbD 2 <;> cases herr : s.err <;> simp [clearErr, hbit]

@[simp] theorem writeCtrl_buf : (writeCtrl v s).buf = s.buf := by
  unfold writeCtrl; split <;> rfl

@[simp] theorem writeStatus_buf : (writeStatus v s).buf = s.buf := by
  rw [writeStatus_eq]

@[simp] theorem writeCmd_buf : (writeCmd v s).buf = s.buf := by
  rcases writeCmd_cases v s with h | ⟨-, h⟩ | ⟨-, h⟩ <;> rw [h]

end

end Sys2Proof.Machine

/-! ### Legal register contents

The result of every command is a legal register content when its sources are and its Start checks passed
(spec/10_state.md R15, R16). -/

namespace Sys2Proof.Machine

/-- A built polynomial is below `n` where its values are. -/
theorem below_coeffsOfFn {n : Nat} {f : Nat → Nat} (h : ∀ i, i < 256 → f i < n) : Below n (coeffsOfFn f) := by
  intro i hi
  rw [coeffAt_coeffsOfFn f hi]
  exact (Nat.mod_le _ _).trans_lt (h i hi)

/-- A polynomial of a sequence of values below `n` is below `n`. -/
theorem below_coeffsOfNats {n : Nat} {l : List Nat} (hn : 0 < n) (h : ∀ x ∈ l, x < n) :
    Below n (coeffsOfNats l) := by
  refine below_coeffsOfFn fun i _ => ?_
  rcases Nat.lt_or_ge i l.length with hi | hi
  · rw [List.getD_eq_getElem _ _ hi]; exact h _ (List.getElem_mem hi)
  · rwa [List.getD_eq_default _ _ hi]

/-- The values of a polynomial below `n`, as a sequence. -/
theorem coeffNats_lt {n : Nat} {a : Coeffs} (h : Below n a) : ∀ x ∈ coeffNats a, x < n := by
  intro x hx
  obtain ⟨i, hi, rfl⟩ := List.mem_iff_getElem.1 hx
  have hi' : i < 256 := by simpa using hi
  rw [← List.getD_eq_getElem _ 0 hi, coeffNats_getD a hi']
  exact h i hi'

/-- The forward levels keep values below Q. -/
theorem forwardLevels_lt (lens : List Nat) (k : Nat) (f : List Nat) (hf : ∀ x ∈ f, x < Config.modulus) :
    ∀ x ∈ forwardLevels lens k f, x < Config.modulus := by
  induction lens generalizing k f with
  | nil => exact hf
  | cons len lens ih => exact ih _ _ (forwardLevel_lt len _ k f hf)

theorem below_nttCoeffs {a : Coeffs} (h : Below Config.modulus a) : Below Config.modulus (nttCoeffs a) :=
  below_coeffsOfNats (by decide) (forwardLevels_lt _ _ _ (coeffNats_lt h))

/-- The final scaling brings every value of the inverse transform below Q (spec/41_ntt.md R110). -/
theorem below_inttCoeffs (a : Coeffs) : Below Config.modulus (inttCoeffs a) := by
  refine below_coeffsOfNats (by decide) fun x hx => ?_
  obtain ⟨y, -, rfl⟩ := List.mem_map.1 hx
  exact mulQ_lt _ _

theorem below_mulPairs (a b : Coeffs) : Below Config.modulus (mulPairs a b) := by
  refine below_coeffsOfFn fun i _ => ?_
  dsimp only
  split <;> exact Nat.mod_lt _ (by decide)

theorem below_compressCoeffs (d : Nat) (a : Coeffs) : Below (2 ^ d) (compressCoeffs d a) :=
  below_coeffsOfFn fun _ _ => Nat.mod_lt _ (Nat.two_pow_pos d)

/-- A decompressed value is below Q (spec/43_compress.md R132). -/
theorem decompress_lt {d y : Nat} (hd : 1 ≤ d) (hd' : d ≤ 11) (hy : y < 2 ^ d) :
    decompress d y < Config.modulus := by
  have hhalf : 2 ^ d = 2 * 2 ^ (d - 1) := by rw [← Nat.pow_succ', Nat.succ_eq_add_one, Nat.sub_add_cancel hd]
  have hsmall : 2 ^ (d - 1) ≤ 2 ^ 10 := Nat.pow_le_pow_right (by decide) (by omega)
  unfold decompress Config.modulus
  exact Nat.div_lt_of_lt_mul (by omega)

theorem below_decompressCoeffs {d : Nat} {a : Coeffs} (hd : 1 ≤ d) (hd' : d ≤ 11) (h : Below (2 ^ d) a) :
    Below Config.modulus (decompressCoeffs d a) :=
  below_coeffsOfFn fun i hi => decompress_lt hd hd' (h i hi)

/-- A field of D bits is below 2^D (spec/44_serialize.md R139). -/
theorem decodeFields_lt (d : Nat) (bs : List Byte) : ∀ x ∈ decodeFields d bs, x < 2 ^ d := by
  intro x hx
  obtain ⟨i, -, rfl⟩ := List.mem_map.1 hx
  exact Nat.mod_lt _ (Nat.two_pow_pos d)

/-- An uncompressed content with coefficients below Q is legal. -/
theorem Poly.valid_make {t : Tag} {cw : BitVec 4} {c : Coeffs} (ht : t = .coef ∨ t = .ntt)
    (hc : Below Config.modulus c) : (Poly.make t cw c).Valid := by
  rcases ht with rfl | rfl <;> exact hc

/-- A legal content that is uncompressed has coefficients below Q. -/
theorem Poly.Valid.below {v : Poly} {a : Coeffs} (hv : v.Valid) (ha : v.coeffs = some a)
    (ht : v.tag = .coef ∨ v.tag = .ntt) : Below Config.modulus a := by
  cases v with
  | empty => cases ha
  | coef c | ntt c => cases ha; exact hv
  | cmpr cw c => rcases ht with ht | ht <;> cases ht

/-- A legal content that is compressed has a width of 1 to 11 and coefficients below 2^cw. -/
theorem Poly.Valid.compressed {v : Poly} {a : Coeffs} (hv : v.Valid) (ha : v.coeffs = some a) (ht : v.tag = .cmpr) :
    1 ≤ v.cw.toNat ∧ v.cw.toNat ≤ 11 ∧ Below (2 ^ v.cw.toNat) a := by
  cases v with
  | empty | coef | ntt => cases ht
  | cmpr cw c => cases ha; exact hv

/-! What the Start checks of the source tags and widths ask (spec/60_exceptions.md R159, R160). -/

@[simp] theorem domainCheck_passes (allowed : Bool) : (domainCheck allowed).1 = allowed := rfl

@[simp] theorem widthCheck_passes (s : State) (r : Reg) (d : BitVec 4) :
    (widthCheck s.kinds r d).1 = true ↔ s.p[r].cw = d :=
  decide_eq_true_iff

@[simp] theorem uncompressed_iff (t : Tag) : uncompressed t = true ↔ t = .coef ∨ t = .ntt :=
  decide_eq_true_iff

/-- The result of a well-formed command that passed its Start checks is legal where its sources are. -/
theorem ResultOf.valid {s : State} {i : Instr} {v : Poly} (h : ResultOf s i v) (hw : i.wellFormed = true)
    (hc : firstFailing (startChecks i s.kinds) = none) (hs : ∀ r : Reg, s.p[r].Valid) : v.Valid := by
  rw [firstFailing_none_iff] at hc
  cases h with
  | add =>
    simp only [startChecks, List.forall_mem_cons, domainCheck_passes, Bool.and_eq_true, uncompressed_iff] at hc
    obtain ⟨-, -, ⟨htag, -⟩, -⟩ := hc
    exact Poly.valid_make htag (below_coeffsOfFn fun _ _ => addQ_lt _ _)
  | sub =>
    simp only [startChecks, List.forall_mem_cons, domainCheck_passes, Bool.and_eq_true, uncompressed_iff] at hc
    obtain ⟨-, -, ⟨htag, -⟩, -⟩ := hc
    exact Poly.valid_make htag (below_coeffsOfFn fun _ _ => subQ_lt _ _)
  | smul =>
    simp only [startChecks, List.forall_mem_cons, domainCheck_passes, uncompressed_iff] at hc
    obtain ⟨-, htag, -⟩ := hc
    exact Poly.valid_make htag (below_coeffsOfFn fun _ _ => mulQ_lt _ _)
  | pmul => exact below_mulPairs _ _
  | ntt ha =>
    simp only [startChecks, List.forall_mem_cons, domainCheck_passes, decide_eq_true_eq] at hc
    obtain ⟨-, htag, -⟩ := hc
    exact below_nttCoeffs ((hs _).below ha (.inl htag))
  | intt => exact below_inttCoeffs _
  | sampc => exact below_coeffsOfFn fun i _ => subQ_lt _ _
  | cmpr =>
    obtain ⟨hd, hd'⟩ := of_decide_eq_true hw
    exact ⟨hd, hd', below_compressCoeffs _ _⟩
  | dcmp ha =>
    simp only [startChecks, List.forall_mem_cons, domainCheck_passes, widthCheck_passes, decide_eq_true_eq] at hc
    obtain ⟨-, htag, rfl, -⟩ := hc
    obtain ⟨hd, hd', ha'⟩ := (hs _).compressed ha htag
    exact below_decompressCoeffs hd hd' ha'
  | dec hbs =>
    simp only [Instr.wellFormed, decTagLegal, Bool.and_eq_true, decide_eq_true_eq] at hw
    obtain ⟨⟨hd, hd'⟩, htag⟩ := hw
    split
    · next h12 =>
      rw [if_pos h12, decide_eq_true_eq] at htag
      refine Poly.valid_make htag (below_coeffsOfNats (by decide) fun x hx => ?_)
      obtain ⟨y, -, rfl⟩ := List.mem_map.1 hx
      exact Nat.mod_lt _ (by decide)
    · next h12 => exact ⟨hd, by omega, below_coeffsOfNats (Nat.two_pow_pos _) (decodeFields_lt _ _)⟩

/-- The decoder gives well-formed commands only (spec/30_encoding.md R84). -/
theorem wellFormed_of_decode {w : Word} {i : Instr} (h : decode w = .ok i) : i.wellFormed = true := by
  unfold decode at h
  split at h
  · cases h
  · split at h
    · cases h
    · split at h
      · next hw => cases h; exact hw
      · cases h

/-- A register file stays legal when a legal content is written. -/
theorem setP_valid {s : State} {rd : Reg} {v : Poly} (hs : ∀ r : Reg, s.p[r].Valid) (hv : v.Valid) :
    ∀ r : Reg, (s.setP rd v).p[r].Valid := by
  intro r
  by_cases hr : r = rd
  · rw [hr, setP_get_same]; exact hv
  · rw [setP_get_ne s v hr]; exact hs r

end Sys2Proof.Machine

/-! ### The canonical form of BUF -/

namespace Sys2Proof.Machine

variable {turn : Turn} {s t : State}

/-- A window write inside BUF keeps the canonical form. -/
theorem Memory.wf_writeWindow {m : List Host.Cell} {a : Nat} (v : Word) (h : Memory.wf m = true)
    (ha : a + 4 ≤ Config.bufSize) : Memory.wf (writeWindow m a v) = true :=
  Memory.wf_writeBytes _ h ha

/-- A Complete keeps BUF canonical: ENC alone writes it, and inside it. -/
theorem CompleteCases.keeps_wf {i : Instr} (h : CompleteCases i s t) (hs : Memory.wf s.buf = true) :
    Memory.wf t.buf = true := by
  cases h with
  | nop ht => subst ht; exact hs
  | register _ _ _ _ _ _ ht => subst ht; exact hs
  | enc _ _ _ _ _ hr ht => subst ht; exact Memory.wf_writeBytes _ hs hr

@[simp] theorem chunkStep_buf (rd : Reg) (acc : List Coeff) (w : Word) (c : Chunk) (s : State) :
    (chunkStep rd acc w c s).buf = s.buf := by
  rcases chunkStep_cases rd acc w c s with ⟨-, h⟩ | ⟨-, h⟩ <;> simp [h]

/-- A turn keeps BUF canonical: it is written by a Complete and by the host's window, and cleared by power-on. -/
theorem TurnEffect.keeps_wf (h : TurnEffect turn s t) (hs : Memory.wf s.buf = true) : Memory.wf t.buf = true := by
  cases h with
  | nothing ht | answers _ ht | spurious ht => subst ht; exact hs
  | refuses _ _ ht => subst ht; rwa [takeExc_buf]
  | begins _ _ _ _ _ ht | samples _ _ _ ht => subst ht; exact hs
  | completes w i he hd hi h => exact (exec_completeCases he hi h).keeps_wf hs
  | chunk _ _ _ _ _ ht => subst ht; rwa [chunkStep_buf]
  | ctrl _ _ _ _ ht => subst ht; rwa [writeCtrl_buf]
  | status _ ht => subst ht; rwa [writeStatus_buf]
  | cmd _ ht => subst ht; rwa [writeCmd_buf]
  | window _ _ ha ht => subst ht; exact Memory.wf_writeWindow _ hs ha
  | powerOn _ ht => subst ht; rfl

/-- Settles O37, by the effects of a turn. -/
theorem stepKeepsBufferCanonical : Obligations.StepKeepsBufferCanonical := by
  intro s t hs h
  obtain ⟨turn, rest, -, h⟩ := step_effect h
  exact h.keeps_wf hs

end Sys2Proof.Machine

/-! ### The invariant of every run

Each operation of a turn keeps the invariant; the step lemma is the case analysis on the effects of a turn. -/

namespace Sys2Proof.Machine

section
variable {turn : Turn} {s t : State}

/-- With the engine idle, no command is under way. -/
theorem engineValid_of_idle (h : s.eng = .idle) : EngineValid s := by
  simp only [EngineValid, h]

/-- The command under way depends on the queue by its head only. -/
theorem EngineValid.of_head (h : EngineValid s) (he : t.eng = s.eng) (hp : t.p = s.p)
    (hq : ∀ w, s.queue.head? = some w → t.queue.head? = some w) : EngineValid t := by
  have hk : t.kinds = s.kinds := by unfold State.kinds; rw [hp]
  unfold EngineValid at *
  rw [he, hk, hp]
  split at h
  · trivial
  · exact ⟨hq _ h.1, h.2⟩
  · exact ⟨hq _ h.1, h.2⟩

/-- The head of a queue that is not empty is its first word. -/
theorem head?_eq_head (h : s.queue ≠ []) : s.queue.head? = some s.head := by
  obtain ⟨w, ws, hq⟩ := List.exists_cons_of_ne_nil h
  simp [State.head, hq]

/-- After a reset the invariant holds: no command is under way and every register is EMPTY. -/
theorem State.Inv.of_reset (hp : s.p = Vector.replicate 16 .empty) (hb : Memory.wf s.buf = true)
    (hq : s.queue = []) (he : s.eng = .idle) (herr : s.err = none) : s.Inv where
  registers r := by rw [hp, replicate_empty_get]; trivial
  buffer := hb
  queue := by simp [hq]
  exclusive := .inl herr
  engine := engineValid_of_idle he

/-- Settles O34: the reset state is as a reset leaves it, with no byte written. -/
theorem resetMeetsInvariant : Obligations.ResetMeetsInvariant :=
  .of_reset rfl rfl rfl rfl rfl

/-- Taking an exception at a Start, which ERR = 0 and FAULT = 0 allow. -/
theorem State.Inv.takeExc (hs : s.Inv) (hc : canStart s = true) (e : Exc) : (Machine.takeExc e s).Inv := by
  obtain ⟨heng, -, herr, hflt⟩ := (canStart_iff s).1 hc
  exact {
    registers := by simpa using hs.registers
    buffer := by simpa using hs.buffer
    queue := by rw [takeExc_queue, List.length_tail]; exact (Nat.sub_le _ _).trans hs.queue
    exclusive := by cases e <;> simp [herr, hflt]
    engine := engineValid_of_idle (by simpa using heng) }

/-- Beginning a command that decodes and passed its Start checks. -/
theorem State.Inv.beginExec {i : Instr} (hs : s.Inv) (hc : canStart s = true) (hd : decode s.head = .ok i)
    (hi : ∀ rd, i ≠ .sampu rd) (hpass : firstFailing (startChecks i s.kinds) = none) :
    (Machine.beginExec s).Inv := by
  obtain ⟨-, hq, -, -⟩ := (canStart_iff s).1 hc
  exact { hs with engine := ⟨head?_eq_head hq, i, hd, hi, hpass⟩ }

/-- Beginning to sample: the destination becomes EMPTY and nothing is accepted. -/
theorem State.Inv.beginSampling {rd : Reg} (hs : s.Inv) (hc : canStart s = true)
    (hd : decode s.head = .ok (.sampu rd)) : (Machine.beginSampling rd s).Inv := by
  obtain ⟨-, hq, -, -⟩ := (canStart_iff s).1 hc
  exact { hs with
    registers := setP_valid (v := .empty) hs.registers trivial
    engine := ⟨head?_eq_head hq, hd, setP_get_same s rd .empty, by decide, by simp⟩ }

/-- The bookkeeping of a Complete keeps the invariant of the state with the command's result. -/
theorem State.Inv.retire (hp : ∀ r : Reg, s.p[r].Valid) (hb : Memory.wf s.buf = true)
    (hq : s.queue.length ≤ Config.queueDepth) (hx : s.err = none ∨ s.flt = none) : (Machine.retire s).Inv where
  registers := hp
  buffer := hb
  queue := by rw [retire_queue, List.length_tail]; exact (Nat.sub_le _ _).trans hq
  exclusive := hx
  engine := engineValid_of_idle rfl

/-- A Complete of a command that decodes and passed its Start checks. -/
theorem State.Inv.complete {w : Word} {i : Instr} (hs : s.Inv) (he : s.eng = .exec w) (hd : decode w = .ok i)
    (h : CompleteCases i s t) : t.Inv := by
  have hbuf := h.keeps_wf hs.buffer
  have heng := hs.engine
  simp only [EngineValid, he] at heng
  obtain ⟨-, i', hd', -, hpass⟩ := heng
  obtain rfl : i = i' := Except.ok.inj (hd.symm.trans hd')
  cases h with
  | nop ht => subst ht; exact .retire hs.registers hbuf hs.queue hs.exclusive
  | register rd v rng _ hv _ ht =>
    subst ht
    have hvalid := hv.valid (wellFormed_of_decode hd) hpass hs.registers
    exact .retire (setP_valid hs.registers hvalid) hbuf hs.queue hs.exclusive
  | enc _ _ _ _ _ _ ht => subst ht; exact .retire hs.registers hbuf hs.queue hs.exclusive

/-- A candidate fills at most the 256 slots. -/
theorem accept_length_le {acc : List Coeff} (d : Coeff) (h : acc.length ≤ 256) : (accept acc d).length ≤ 256 := by
  unfold accept
  split
  · next hd => rw [List.length_append]; exact hd.1
  · exact h

/-- Accepted values are below Q. -/
theorem accept_lt {acc : List Coeff} (d : Coeff) (h : ∀ x ∈ acc, x.toNat < Config.modulus) :
    ∀ x ∈ accept acc d, x.toNat < Config.modulus := by
  unfold accept
  split
  · next hd =>
    intro x hx
    rcases List.mem_append.1 hx with hx | hx
    · exact h x hx
    · rw [List.mem_singleton.1 hx]; exact hd.2
  · exact h

/-- A polynomial of accepted values is below Q. -/
theorem below_coeffsOfSlots {acc : List Coeff} (h : ∀ x ∈ acc, x.toNat < Config.modulus) :
    Below Config.modulus (coeffsOfSlots acc) := by
  refine below_coeffsOfNats (by decide) fun x hx => ?_
  obtain ⟨d, hd, rfl⟩ := List.mem_map.1 hx
  exact h d hd

/-- A Chunk step accepts values below Q, and completes at the 256th. -/
theorem State.Inv.chunkStep {rd : Reg} {acc : List Coeff} {w : Word} (hs : s.Inv) (he : s.eng = .sampling rd acc w)
    (c : Chunk) : (Machine.chunkStep rd acc w c s).Inv := by
  have heng := hs.engine
  simp only [EngineValid, he] at heng
  obtain ⟨hhead, hd, hempty, hlen, hlt⟩ := heng
  have hlen' := accept_length_le (secondCandidate c) (accept_length_le (firstCandidate c) hlen.le)
  have hlt' := accept_lt (secondCandidate c) (accept_lt (firstCandidate c) hlt)
  rcases chunkStep_cases rd acc w c s with ⟨hmore, ht⟩ | ⟨-, ht⟩ <;> rw [ht]
  · exact { hs with engine := ⟨hhead, hd, hempty, lt_of_le_of_ne hlen' hmore, hlt'⟩ }
  · exact .retire (setP_valid (s := s) hs.registers (v := .ntt _) (below_coeffsOfSlots hlt')) hs.buffer hs.queue
      hs.exclusive

/-- A host write to CTRL: a soft reset, or the interrupt enables alone. -/
theorem State.Inv.writeCtrl (hs : s.Inv) (v : Word) : (Machine.writeCtrl v s).Inv := by
  cases hv : v.getLsbD 0 with
  | true => rw [writeCtrl_reset hv]; exact .of_reset rfl hs.buffer rfl rfl rfl
  | false => rw [writeCtrl_enables hv]; exact { hs with }

/-- A host write to STATUS: the executing command stays the head of what it leaves in the queue. -/
theorem State.Inv.writeStatus (hs : s.Inv) (v : Word) : (Machine.writeStatus v s).Inv := by
  rw [writeStatus_eq]
  exact {
    registers := hs.registers
    buffer := hs.buffer
    queue := by
      refine le_trans ?_ hs.queue
      dsimp only
      split
      · split <;> simp
      · rfl
    exclusive := by
      refine hs.exclusive.imp_left fun herr => ?_
      simp [herr]
    engine := by
      by_cases heng : s.eng = .idle
      · exact engineValid_of_idle heng
      · refine hs.engine.of_head rfl rfl fun w hw => ?_
        dsimp only
        rw [if_neg heng]
        split
        · simpa [List.head?_take] using hw
        · exact hw }

/-- A host write to CMD: a word is appended only below the depth, and CQ_OVERFLOW is raised with FAULT = 0 only. -/
theorem State.Inv.writeCmd (hs : s.Inv) (w : Word) : (Machine.writeCmd w s).Inv := by
  rcases writeCmd_cases w s with h | ⟨hflt, h⟩ | ⟨hlt, h⟩ <;> rw [h]
  · exact hs
  · exact { hs with exclusive := .inr hflt }
  · exact { hs with
      queue := by rw [List.length_append]; exact hlt
      engine := hs.engine.of_head rfl rfl fun w hw => by simp [hw] }

/-- Every effect of a turn keeps the invariant. -/
theorem TurnEffect.keeps_inv (h : TurnEffect turn s t) (hs : s.Inv) : t.Inv := by
  cases h with
  | nothing ht => exact ht ▸ hs
  | answers _ ht => subst ht; exact { hs with }
  | refuses e hc ht => subst ht; exact hs.takeExc hc e
  | begins i hc hd hi hpass ht => subst ht; exact hs.beginExec hc hd hi hpass
  | samples rd hc hd ht => subst ht; exact hs.beginSampling hc hd
  | completes w i he hd hi h => exact hs.complete he hd (exec_completeCases he hi h)
  | chunk rd acc w c he ht => subst ht; exact hs.chunkStep he c
  | ctrl _ v _ _ ht => subst ht; exact hs.writeCtrl v
  | status v ht => subst ht; exact hs.writeStatus v
  | cmd w ht => subst ht; exact hs.writeCmd w
  | spurious ht => subst ht; exact { hs with }
  | window a v ha ht => subst ht; exact { hs with buffer := Memory.wf_writeWindow v hs.buffer ha }
  | powerOn _ ht => subst ht; exact .of_reset rfl rfl rfl rfl rfl

end

/-- Settles O35, by the effects of a turn: the schedule is no part of the invariant. -/
theorem stepKeepsInvariant : Obligations.StepKeepsInvariant := by
  intro s t hs h
  obtain ⟨turn, rest, -, h⟩ := step_effect h
  exact h.keeps_inv { hs with }

end Sys2Proof.Machine

/-! ### The execution state, the fault, the count and the queue along a step -/

namespace Sys2Proof.Machine

/-- A turn that resets: the reset input, or a host write to CTRL with bit 0 set (spec/70_reset_and_hazards.md R169,
R170). -/
def Turn.IsReset (turn : Turn) : Prop :=
  turn = .powerOn ∨ ∃ off v, turn = .hostWrite off v ∧ off.toNat / 4 = 1 ∧ v.getLsbD 0 = true

section
variable {turn : Turn} {s t : State}

/-- A write at word index 1 is a write to CTRL. -/
theorem hostWrite_ctrl {off : Offset} (v : Word) (s : State) (ho : off.toNat / 4 = 1) :
    hostWrite off v s = .next (writeCtrl v s) := by
  simp [hostWrite, wordOffset, ho]

/-- A step whose turn resets is one of the two resets. -/
theorem step_reset {rest : List Turn} (hr : turn.IsReset) (hs : s.schedule = turn :: rest) (h : step s = .next t) :
    t = powerOnReset (withTurns rest s) ∨ t = softReset (withTurns rest s) := by
  rw [step_of_schedule_cons hs] at h
  rcases hr with rfl | ⟨off, v, rfl, ho, hv⟩
  · cases h; exact .inl rfl
  · rw [takeTurn, hostWrite_ctrl v _ ho, writeCtrl_reset hv] at h
    cases h; exact .inr rfl

/-- A reset turn is not the engine's, so it is the first turn of the schedule. -/
theorem Turn.IsReset.scheduled {rest : List Turn} (h : turn.IsReset)
    (hs : s.schedule = turn :: rest ∨ s.schedule = [] ∧ turn = .engine) : s.schedule = turn :: rest := by
  refine hs.resolve_right ?_
  rintro ⟨-, rfl⟩
  simp [Turn.IsReset] at h

/-- A write to CTRL in a turn that is no reset sets the interrupt enables alone. -/
theorem writeCtrl_of_not_reset {off : Offset} {v : Word} (h : ¬(Turn.hostWrite off v).IsReset)
    (ho : wordOffset off = 0x04) : writeCtrl v s = { s with ieDone := v.getLsbD 1, ieErr := v.getLsbD 2 } := by
  refine writeCtrl_enables (Bool.eq_false_iff.2 fun hv => h (.inr ⟨off, v, rfl, ?_, hv⟩))
  unfold wordOffset at ho
  omega

/-! The host's writes to STATUS and CMD leave the execution state, the fault and the count. -/

@[simp] theorem writeStatus_eng (v : Word) (s : State) : (writeStatus v s).eng = s.eng := by rw [writeStatus_eq]
@[simp] theorem writeStatus_flt (v : Word) (s : State) : (writeStatus v s).flt = s.flt := by rw [writeStatus_eq]
@[simp] theorem writeStatus_cmdcnt (v : Word) (s : State) : (writeStatus v s).cmdcnt = s.cmdcnt := by
  rw [writeStatus_eq]
@[simp] theorem writeStatus_p (v : Word) (s : State) : (writeStatus v s).p = s.p := by rw [writeStatus_eq]

@[simp] theorem writeCmd_eng (w : Word) (s : State) : (writeCmd w s).eng = s.eng := by
  rcases writeCmd_cases w s with h | ⟨-, h⟩ | ⟨-, h⟩ <;> rw [h]
@[simp] theorem writeCmd_flt (w : Word) (s : State) : (writeCmd w s).flt = s.flt := by
  rcases writeCmd_cases w s with h | ⟨-, h⟩ | ⟨-, h⟩ <;> rw [h]
@[simp] theorem writeCmd_cmdcnt (w : Word) (s : State) : (writeCmd w s).cmdcnt = s.cmdcnt := by
  rcases writeCmd_cases w s with h | ⟨-, h⟩ | ⟨-, h⟩ <;> rw [h]
@[simp] theorem writeCmd_p (w : Word) (s : State) : (writeCmd w s).p = s.p := by
  rcases writeCmd_cases w s with h | ⟨-, h⟩ | ⟨-, h⟩ <;> rw [h]

@[simp] theorem chunkStep_flt (rd : Reg) (acc : List Coeff) (w : Word) (c : Chunk) (s : State) :
    (chunkStep rd acc w c s).flt = s.flt := by
  rcases chunkStep_cases rd acc w c s with ⟨-, h⟩ | ⟨-, h⟩ <;> simp [h]

/-- A turn leaves an idle engine executing only by the Start of the head (spec/10_state.md R38). -/
theorem TurnEffect.starts_head (h : TurnEffect turn s t) (he : s.eng = .idle) (ht' : t.eng ≠ .idle) :
    canStart s = true ∧ executingWord t.eng = some s.head := by
  cases h with
  | begins _ hs _ _ _ ht | samples _ hs _ ht => subst ht; exact ⟨hs, rfl⟩
  | nothing ht | answers _ ht | spurious ht | window _ _ _ ht => subst ht; exact absurd he ht'
  | refuses _ _ ht | status _ ht | cmd _ ht => subst ht; simp [he] at ht'
  | completes _ _ he' | chunk _ _ _ _ he' => rw [he] at he'; cases he'
  | ctrl _ v _ _ ht => subst ht; unfold writeCtrl at ht'; split at ht' <;> simp [he] at ht'
  | powerOn _ ht => subst ht; simp at ht'

/-- A turn leaves the engine executing the command it was executing, or idle. -/
theorem TurnEffect.keeps_executing (h : TurnEffect turn s t) (he : s.eng ≠ .idle) :
    t.eng = .idle ∨ executingWord t.eng = executingWord s.eng := by
  cases h with
  | nothing ht | answers _ ht | spurious ht | window _ _ _ ht => subst ht; exact .inr rfl
  | refuses _ hs | begins _ hs | samples _ hs => exact absurd ((canStart_iff s).1 hs).1 he
  | completes w i he' _ hi h => obtain ⟨p, buf, rng, rfl⟩ := exec_complete he' hi h; exact .inl rfl
  | chunk rd acc w c he' ht =>
    subst ht
    rcases chunkStep_cases rd acc w c s with ⟨-, ht⟩ | ⟨-, ht⟩ <;> rw [ht]
    · exact .inr (by rw [he']; rfl)
    · exact .inl rfl
  | ctrl _ v _ _ ht =>
    subst ht
    unfold writeCtrl
    split
    · exact .inl rfl
    · exact .inr rfl
  | status _ ht | cmd _ ht => subst ht; exact .inr (by simp)
  | powerOn _ ht => subst ht; exact .inl rfl

/-- A turn that is no reset leaves FAULT where it is set: no command starts under it (spec/60_exceptions.md R158). -/
theorem TurnEffect.keeps_fault {cause : FaultCause} (h : TurnEffect turn s t) (hr : ¬turn.IsReset)
    (hf : s.flt = some cause) : t.flt = some cause := by
  cases h with
  | nothing ht | answers _ ht | spurious ht | window _ _ _ ht => subst ht; exact hf
  | refuses _ hs | begins _ hs | samples _ hs =>
    obtain ⟨-, -, -, hnone⟩ := (canStart_iff s).1 hs
    rw [hf] at hnone
    cases hnone
  | completes w i he hd hi h => obtain ⟨p, buf, rng, rfl⟩ := exec_complete he hi h; exact hf
  | chunk _ _ _ _ _ ht => subst ht; simpa using hf
  | ctrl off v hturn ho ht => subst ht hturn; rw [writeCtrl_of_not_reset hr ho]; exact hf
  | status _ ht | cmd _ ht => subst ht; simpa using hf
  | powerOn hturn => exact absurd (.inl hturn) hr

/-- A turn that is no reset either completes a command, counting it and removing it from the queue
(spec/60_exceptions.md R161), or leaves the count and the engine executing if it was. -/
theorem TurnEffect.completes_or_keeps_count (h : TurnEffect turn s t) (hr : ¬turn.IsReset) :
    (s.eng ≠ .idle ∧ t.eng = .idle ∧ t.cmdcnt = s.cmdcnt + 1 ∧ t.queue = s.queue.tail) ∨
      (t.cmdcnt = s.cmdcnt ∧ (t.eng = .idle → s.eng = .idle)) := by
  cases h with
  | nothing ht | answers _ ht | spurious ht | window _ _ _ ht => subst ht; exact .inr ⟨rfl, id⟩
  | refuses _ _ ht => subst ht; exact .inr (by simp)
  | begins _ hs _ _ _ ht | samples _ hs _ ht => subst ht; exact .inr ⟨rfl, fun _ => ((canStart_iff s).1 hs).1⟩
  | completes w i he hd hi h =>
    obtain ⟨p, buf, rng, rfl⟩ := exec_complete he hi h
    exact .inl ⟨by simp [he], rfl, rfl, rfl⟩
  | chunk rd acc w c he ht =>
    subst ht
    rcases chunkStep_cases rd acc w c s with ⟨-, ht⟩ | ⟨-, ht⟩ <;> rw [ht]
    · exact .inr (by simp)
    · exact .inl ⟨by simp [he], rfl, rfl, rfl⟩
  | ctrl off v hturn ho ht => subst ht hturn; rw [writeCtrl_of_not_reset hr ho]; exact .inr ⟨rfl, id⟩
  | status _ ht | cmd _ ht => subst ht; exact .inr (by simp)
  | powerOn hturn => exact absurd (.inl hturn) hr

/-- A turn leaves the queue, appends a word, drops the head, keeps the head alone, or empties it. -/
theorem TurnEffect.queue_cases (h : TurnEffect turn s t) :
    t.queue = s.queue ∨ (∃ w, t.queue = s.queue ++ [w]) ∨ t.queue = s.queue.tail ∨
      t.queue = s.queue.take 1 ∨ t.queue = [] := by
  cases h with
  | nothing ht | answers _ ht | spurious ht | window _ _ _ ht | begins _ _ _ _ _ ht | samples _ _ _ ht =>
    subst ht; exact .inl rfl
  | refuses _ _ ht => subst ht; exact .inr (.inr (.inl (takeExc_queue ..)))
  | completes w i he hd hi h =>
    obtain ⟨p, buf, rng, rfl⟩ := exec_complete he hi h
    exact .inr (.inr (.inl rfl))
  | chunk rd acc w c he ht =>
    subst ht
    rcases chunkStep_cases rd acc w c s with ⟨-, ht⟩ | ⟨-, ht⟩ <;> rw [ht]
    · exact .inl rfl
    · exact .inr (.inr (.inl rfl))
  | ctrl off v hturn ho ht =>
    subst ht
    unfold writeCtrl
    split
    · exact .inr (.inr (.inr (.inr rfl)))
    · exact .inl rfl
  | status v ht =>
    subst ht
    rw [writeStatus_eq]
    dsimp only
    split
    · split
      · exact .inr (.inr (.inr (.inr rfl)))
      · exact .inr (.inr (.inr (.inl rfl)))
    · exact .inl rfl
  | cmd w ht =>
    subst ht
    rcases writeCmd_cases w s with h | ⟨-, h⟩ | ⟨-, h⟩ <;> rw [h]
    · exact .inl rfl
    · exact .inl rfl
    · exact .inr (.inl ⟨w, rfl⟩)
  | powerOn _ ht => subst ht; exact .inr (.inr (.inr (.inr rfl)))

end

/-- Settles O8: an idle turn by the quiescent states, the others by the effects of a turn. -/
theorem startsOnlyWhenEnabled : Obligations.StartsOnlyWhenEnabled := by
  unfold Obligations.StartsOnlyWhenEnabled
  refine ⟨?idles, ?starts, ?executes⟩
  case idles =>
    intro s hs heng hwhy
    have hq : quiescent s := ⟨heng, by simpa [State.qcount, Option.isSome_iff_ne_none] using hwhy⟩
    exact (step_of_schedule_nil hs).trans (engineTurn_quiescent hq)
  case starts =>
    intro s t heng h ht
    obtain ⟨turn, rest, -, h⟩ := step_effect h
    obtain ⟨hcan, hword⟩ := h.starts_head heng ht
    obtain ⟨-, hq, herr, hflt⟩ := (canStart_iff (withTurns rest s)).1 hcan
    exact ⟨hq, herr, hflt, hword⟩
  case executes =>
    intro s t heng h
    obtain ⟨turn, rest, -, h⟩ := step_effect h
    exact h.keeps_executing heng

/-- Settles O38: a turn that changes FAULT is a reset, which clears it. -/
theorem faultClearedByResetOnly : Obligations.FaultClearedByResetOnly := by
  intro s t cause hf h ht
  obtain ⟨turn, rest, hs, heff⟩ := step_effect h
  have hreset : turn.IsReset := by
    by_contra hr
    exact ht (heff.keeps_fault hr hf)
  have hs := hreset.scheduled hs
  constructor
  · rcases step_reset hreset hs h with rfl | rfl <;> rfl
  · rcases hreset with rfl | ⟨off, v, rfl, ho, hv⟩
    · exact ⟨rest, .inl hs⟩
    · exact ⟨rest, .inr ⟨off, v, hs, ho, hv⟩⟩

/-- Settles O39, by the two resets and the completions among the effects of a turn. -/
theorem cmdcntCountsCompletions : Obligations.CmdcntCountsCompletions := by
  intro s t h resets
  have hresets : resets ↔ ∃ turn rest, s.schedule = turn :: rest ∧ turn.IsReset := by
    constructor
    · rintro (⟨rest, hs⟩ | ⟨off, v, rest, hs, ho, hv⟩)
      · exact ⟨_, rest, hs, .inl rfl⟩
      · exact ⟨_, rest, hs, .inr ⟨off, v, rfl, ho, hv⟩⟩
    · rintro ⟨turn, rest, hs, rfl | ⟨off, v, rfl, ho, hv⟩⟩
      · exact .inl ⟨rest, hs⟩
      · exact .inr ⟨off, v, rest, hs, ho, hv⟩
  have hother : ¬resets →
      (s.eng ≠ .idle ∧ t.eng = .idle ∧ t.cmdcnt = s.cmdcnt + 1 ∧ t.queue = s.queue.tail) ∨
        (t.cmdcnt = s.cmdcnt ∧ (t.eng = .idle → s.eng = .idle)) := by
    intro hr
    obtain ⟨turn, rest, hs, heff⟩ := step_effect h
    exact heff.completes_or_keeps_count fun hturn => hr (hresets.2 ⟨turn, rest, hturn.scheduled hs, hturn⟩)
  refine ⟨fun hr => ?reset, fun hr hs ht => ?completion, fun hr hkeep => ?other⟩
  case reset =>
    obtain ⟨turn, rest, hs, hturn⟩ := hresets.1 hr
    rcases step_reset hturn hs h with rfl | rfl <;> rfl
  case completion =>
    rcases hother hr with ⟨-, -, hcount, hqueue⟩ | ⟨-, hidle⟩
    · exact ⟨hcount, hqueue⟩
    · exact absurd (hidle ht) hs
  case other =>
    rcases hother hr with ⟨hs, ht, -, -⟩ | ⟨hcount, -⟩
    · exact (hkeep.elim hs (fun h => h ht)).elim
    · exact hcount

/-- Settles O40, by the effects of a turn. -/
theorem queueIsFifo : Obligations.QueueIsFifo := by
  intro s t h
  obtain ⟨turn, rest, -, h⟩ := step_effect h
  exact h.queue_cases

end Sys2Proof.Machine

/-! ### Completes that stop, and the frame of a command -/

namespace Sys2Proof.Machine

/-- MemRead finds an unwritten byte of its range. -/
theorem Memory.readBytes_eq_none {m : List Host.Cell} {a n k : Nat} (hk : k < n)
    (h : Memory.read m (a + k) = none) : Memory.readBytes m a n = none := by
  induction n generalizing a k with
  | zero => exact absurd hk (Nat.not_lt_zero k)
  | succ n ih =>
    rw [Memory.readBytes]
    cases k with
    | zero => rw [show Memory.read m a = none from h]
    | succ k =>
      rw [ih (Nat.lt_of_succ_lt_succ hk) (by rwa [Nat.add_right_comm, Nat.add_assoc])]
      cases Memory.read m a <;> rfl

section
variable {s : State} {k : List Byte → Host.Outcome State Fault Refusal}

/-- A Complete that reads BUF stops at an unwritten byte of its range (spec/10_state.md R21). -/
theorem withBytes_unwritten {addr : BufAddr} {n j : Nat} (hj : j < n) (h : Memory.read s.buf (addr.toNat + j) = none) :
    withBytes s addr n k = .fault .uninitRead := by
  simp only [withBytes, Memory.readBytes_eq_none hj h]

end

section
variable {s : State} {r : Reg} {k : Coeffs → Host.Outcome State Fault Refusal}

/-- A Complete with an EMPTY source stops (spec/10_state.md R18; log 6). -/
theorem withSource_empty (h : s.p[r] = .empty) : withSource s r k = .fault .emptyRead := by
  simp only [withSource, h, Poly.coeffs]

/-- A Complete that stops with an EMPTY source whatever a first source holds, stops so. -/
theorem withSource_emptyRead (h : ∀ a, k a = .fault .emptyRead) : withSource s r k = .fault .emptyRead := by
  unfold withSource
  split
  · exact h _
  · rfl

end

/-- A Complete of two sources stops if one of them is EMPTY. -/
theorem completeBinary_empty {s : State} {rd ra rb r : Reg} {t : Tag} {f : Coeffs → Coeffs → Coeffs}
    (hr : r ∈ [ra, rb]) (h : s.p[r] = .empty) : completeBinary rd ra rb t f s = .fault .emptyRead := by
  simp only [List.mem_cons, List.not_mem_nil, or_false] at hr
  rcases hr with rfl | rfl
  · exact withSource_empty h
  · exact withSource_emptyRead fun _ => withSource_empty h

/-- Settles O28: the Complete reads its whole range first. -/
theorem unwrittenByteStops : Obligations.UnwrittenByteStops := by
  intro s w p d tag addr k he hk
  constructor <;> intro hlt
  · simp only [exec, execDec, twoPhase_exec he]
    exact withBytes_unwritten hlt hk
  · simp only [exec, execSampc, twoPhase_exec he]
    exact withBytes_unwritten hlt hk

/-- Settles O29, command by command for the EMPTY sources. -/
theorem unreachableCompletesStop : Obligations.UnreachableCompletesStop := by
  unfold Obligations.UnreachableCompletesStop
  refine ⟨?emptySource, ?pastBuf, ?noCommand⟩
  case emptySource =>
    intro i s w r he hr h
    have hsource : ∀ ra, r ∈ [ra] → s.p[ra] = .empty := fun ra hra => List.mem_singleton.1 hra ▸ h
    cases i with
    | nop | sampu | sampc | dec => cases hr
    | add | sub | pmul =>
      simp only [exec, execAdd, execSub, execPmul, twoPhase_exec he]
      exact completeBinary_empty hr h
    | smul | ntt | intt | cmpr | dcmp | enc =>
      simp only [exec, execSmul, execNtt, execIntt, execCmpr, execDcmp, execEnc, twoPhase_exec he]
      exact withSource_empty (hsource _ hr)
  case pastBuf =>
    intro s w p d addr he hp hpast
    obtain ⟨a, ha⟩ : ∃ a, s.p[p].coeffs = some a := by
      cases hv : s.p[p] with
      | empty => exact absurd hv hp
      | coef a | ntt a | cmpr _ a => exact ⟨a, rfl⟩
    simp only [exec, execEnc, twoPhase_exec he]
    rw [withSource_some ha]
    exact if_neg (Nat.not_le.2 hpast)
  case noCommand =>
    intro s w e hs he hd
    rw [step_of_schedule_nil hs]
    simp only [engineTurn, he, hd]

/-- Settles O30: a Start and a waiting command by the cases of exec, a Complete by what it writes. -/
theorem registerCommandFrame : Obligations.RegisterCommandFrame := by
  intro i s t hsampu henc h
  cases exec_cases h with
  | refusedStart e _ _ ht => subst ht; simp [SameBuf]
  | begins _ _ _ ht => subst ht; simp [SameBuf]
  | samples rd _ hi => exact absurd hi (hsampu rd)
  | chunk _ _ _ _ he =>
    rw [exec_sampling he hsampu] at h
    cases h
    simp [SameBuf]
  | waits _ ht => subst ht; simp [SameBuf]
  | completes w he _ _ =>
    cases exec_completeCases he hsampu h with
    | nop ht => subst ht; simp [SameBuf]
    | enc p d addr _ hi => exact absurd hi (henc p d addr)
    | register rd v rng hd _ hr ht =>
      subst ht
      have hothers : ∀ r : Reg, destination i ≠ some r → (s.setP rd v).p[r] = s.p[r] :=
        fun r hne => setP_get_ne s v fun e => hne (e ▸ hd)
      refine ⟨hothers, fun _ => rfl, rfl, rfl, rfl, rfl, rfl, rfl, rfl, hr.imp_right ?_⟩
      rintro ⟨hset, p, d, tag, addr, hi, h12⟩
      exact ⟨p, d, tag, addr, hi, h12, hset⟩

/-! A chunk is requested while a SAMPU samples only (spec/10_state.md R25). -/

theorem xreq_of_idle {s : State} (h : s.eng = .idle) : s.xreq = false := by simp [State.xreq, h]

theorem xreq_of_exec {s : State} {w : Word} (h : s.eng = .exec w) : s.xreq = false := by simp [State.xreq, h]

@[simp] theorem retire_xreq (s : State) : (retire s).xreq = false := rfl

/-- Settles O33: the flags of a Start, of a Complete and of a Chunk step, by the cases of exec. -/
theorem commandsSetFlagsAsListed : Obligations.CommandsSetFlagsAsListed := by
  intro i s t h
  cases exec_cases h with
  | refusedStart e he _ ht => subst ht; simp [he, xreq_of_idle]
  | begins he _ _ ht => subst ht; simp [he, State.xreq]
  | samples rd he hi ht => subst ht; simp [he, hi]
  | chunk rd acc w c he _ ht =>
    have hx : (∀ rd, i ≠ .sampu rd) → t.xreq = s.xreq := fun hi => by
      rw [exec_sampling he hi] at h; cases h; rfl
    rcases chunkStep_cases rd acc w c s with ⟨-, hc⟩ | ⟨-, hc⟩ <;> rw [hc] at ht <;> subst ht <;>
      exact ⟨by simp, by simp [he], by simp, by simp, .inl rfl, hx, rfl⟩
  | waits he ht => subst ht; simp [he]
  | completes w he hi _ =>
    have hx : s.xreq = false := xreq_of_exec he
    cases exec_completeCases he hi h with
    | nop ht => subst ht; simp [he, hx]
    | enc p d addr bs _ _ ht => subst ht; simp [he, hx]
    | register rd v rng _ _ hr ht =>
      subst ht
      refine ⟨by simp, by simp [he], by simp, by simp, ?_, by simp [hx], rfl⟩
      refine hr.imp_right ?_
      rintro ⟨hset, hi⟩
      exact ⟨by simp [he], rfl, hset, hi⟩

end Sys2Proof.Machine

/-! ### The host port -/

namespace Sys2Proof.Machine

section
variable {off : Offset}

/-- A write at word index 2 is a write to STATUS. -/
theorem hostWrite_status (v : Word) (s : State) (ho : off.toNat / 4 = 2) :
    hostWrite off v s = .next (writeStatus v s) := by
  simp [hostWrite, wordOffset, ho]

/-- A write at word index 3 is a write to CMD. -/
theorem hostWrite_cmd (v : Word) (s : State) (ho : off.toNat / 4 = 3) :
    hostWrite off v s = .next (writeCmd v s) := by
  simp [hostWrite, wordOffset, ho]

/-- A write at word index 4 is a write to XDATA, the producer's answer with its low 24 bits. -/
theorem hostWrite_xdata (v : Word) (s : State) (ho : off.toNat / 4 = 4) :
    hostWrite off v s = answerXof (v.extractLsb' 0 24) { s with xspur := true } s := by
  simp [hostWrite, wordOffset, ho]

/-- XDATA reads 0 (spec/20_memory.md R52). -/
theorem hostRead_xdata (s : State) (ho : off.toNat / 4 = 4) : hostRead off s = .next { s with answer := some 0 } := by
  simp [hostRead, wordOffset, ho, readRegister]

end

section
variable {s u : State}

/-- A sampling SAMPU takes the producer's chunk. -/
theorem answerXof_sampling {rd : Reg} {acc : List Coeff} {w : Word} (c : Chunk) (he : s.eng = .sampling rd acc w) :
    answerXof c u s = exec (.sampu rd) (offerChunk c s) := by
  simp only [answerXof, he]

/-- With no chunk requested, the answer is not taken. -/
theorem answerXof_unrequested (c : Chunk) (hx : s.xreq = false) : answerXof c u s = .next u := by
  cases he : s.eng with
  | sampling => simp [State.xreq, he] at hx
  | idle | exec => simp only [answerXof, he]

end

/-! STATUS, CTRL and irq after a soft reset (spec/70_reset_and_hazards.md R169). -/

@[simp] theorem statusWord_softReset (s : State) : statusWord (softReset s) = 0 := by
  simp [statusWord, State.busy, State.xreq, State.qcount]

@[simp] theorem ctrlWord_softReset (s : State) : ctrlWord (softReset s) = 0 := by
  simp [ctrlWord]

/-- Settles O46: the write with bit 0 clear, then the fields after a soft reset. -/
theorem ctrlWriteEffects : Obligations.CtrlWriteEffects := by
  intro s off v rest hs ho
  rw [step_of_schedule_cons hs, takeTurn, hostWrite_ctrl v _ ho]
  constructor <;> intro hv
  · rw [writeCtrl_enables hv]; rfl
  · rw [writeCtrl_reset hv]
    exact ⟨_, rfl, rfl, rfl, rfl, replicate_empty_get, rfl, statusWord_softReset _, rfl, rfl,
      ctrlWord_softReset _, rfl, rfl, rfl, rfl, rfl, rfl, rfl⟩

/-- Settles O48: the write to STATUS, field by field. -/
theorem statusWriteEffects : Obligations.StatusWriteEffects := by
  intro s off v rest hs ho
  rw [step_of_schedule_cons hs, takeTurn, hostWrite_status v _ ho, writeStatus_eq]
  rfl

/-- Settles O49: each clause is one case of the write to CMD. -/
theorem cmdWriteEffects : Obligations.CmdWriteEffects := by
  intro s off w rest hs ho _ s'
  have hstep : step s = .next (writeCmd w s') := by
    rw [step_of_schedule_cons hs, takeTurn, hostWrite_cmd w _ ho]
    rfl
  rw [hstep]
  refine ⟨fun hheld => ?_, fun hflt herr hfull => ?_, fun hflt herr hroom => ?_⟩
  · rw [writeCmd_held (s := s') hheld]
  · rw [writeCmd_full (s := s') hflt herr hfull.ge]
  · rw [writeCmd_room (s := s') hflt herr hroom]

/-- Settles O50: XDATA and the port both are the producer's answer. -/
theorem xofAnswers : Obligations.XofAnswers := by
  refine ⟨fun s off v ho => ?_, fun s chunk rest hs => ?_⟩
  · have hlow : v.extractLsb' 0 24 = BitVec.ofNat 24 v.toNat := by
      apply BitVec.eq_of_toNat_eq; simp
    rw [hostWrite_xdata v s ho, hlow]
    exact ⟨fun rd acc w he => answerXof_sampling _ he, answerXof_unrequested _, hostRead_xdata s ho⟩
  · rw [step_of_schedule_cons hs]
    exact ⟨fun rd acc w he => answerXof_sampling (s := withTurns rest s) chunk he,
      fun hx => answerXof_unrequested (s := withTurns rest s) chunk hx⟩

/-- Settles O51, by the cases of a host read and of a host write. -/
theorem hostCannotWriteRegisters : Obligations.HostCannotWriteRegisters := by
  intro s t off v rest h hacc
  rcases hacc with hs | ⟨hs, hx, hreset⟩ <;> rw [step_of_schedule_cons hs] at h
  · obtain ⟨a, rfl⟩ := hostRead_cases h
    rfl
  · have hindex : ∀ n, wordOffset off = n * 4 → off.toNat / 4 = n := fun n hn => by unfold wordOffset at hn; omega
    cases hostWrite_cases h with
    | ctrl ho ht =>
      have hv : v.getLsbD 0 = false := Bool.eq_false_iff.2 fun hv => hreset ⟨hindex 1 ho, hv⟩
      rw [ht, writeCtrl_enables hv]
      rfl
    | status _ ht => rw [ht, writeStatus_p]; rfl
    | cmd _ ht => rw [ht, writeCmd_p]; rfl
    | xdataAnswer _ _ _ ho => exact absurd (hindex 4 ho) hx
    | xdataSpurious ho => exact absurd (hindex 4 ho) hx
    | ignored _ _ ht => rw [ht]; rfl
    | window _ _ ht => rw [ht]; rfl

end Sys2Proof.Machine

/-! ### The views of the flags, the tags and the widths -/

namespace Sys2Proof.Machine

/-- A bit of a word, read as a number, that is the number of a flag, is that flag. -/
theorem getLsbD_eq_of_div {n : Nat} {w : BitVec n} {i : Nat} {b : Bool} (h : w.toNat / 2 ^ i % 2 = b.toNat) :
    w.getLsbD i = b := by
  rw [BitVec.getLsbD, Nat.testBit_eq_decide_div_mod_eq, h]
  cases b <;> rfl

/-- ERRCODE fits its field, and its values are those of spec/60_exceptions.md R156. -/
theorem errcode_eq (e : Option ErrCode) : e.elim 0 ErrCode.code ≤ 4 ∧ e.elim 0 ErrCode.code =
    (if e = some .illegalOpcode then 1 else if e = some .illegalField then 2 else if e = some .malformedInput then 3
      else if e = some .cqOverflow then 4 else 0) := by
  rcases e with _ | (_ | _ | _ | _) <;> decide

/-- FCAUSE fits its field, and its values are those of R159. -/
theorem fcause_eq (e : Option FaultCause) : e.elim 0 FaultCause.code ≤ 3 ∧ e.elim 0 FaultCause.code =
    (if e = some .emptyOperand then 1 else if e = some .domainMismatch then 2 else if e = some .widthMismatch then 3
      else 0) := by
  rcases e with _ | (_ | _ | _) <;> decide

/-- STATUS as a number: while at most 16 commands are queued, its fields add up without a carry. -/
theorem statusWord_toNat {s : State} (hq : s.queue.length ≤ 16) : (statusWord s).toNat =
    s.busy.toNat + s.done.toNat * 2 + s.err.isSome.toNat * 4 + s.flt.isSome.toNat * 8 + s.rng.toNat * 16
      + s.xspur.toNat * 32 + s.xreq.toNat * 64 + s.err.elim 0 ErrCode.code * 256
      + s.flt.elim 0 FaultCause.code * 4096 + s.queue.length * 65536 := by
  have hbit := Bool.toNat_le
  have := hbit s.busy; have := hbit s.done; have := hbit s.err.isSome; have := hbit s.flt.isSome
  have := hbit s.rng; have := hbit s.xspur; have := hbit s.xreq
  have := (errcode_eq s.err).1; have := (fcause_eq s.flt).1
  simp only [statusWord, State.qcount, BitVec.toNat_ofNat]
  omega

/-- CTRL as a number: the two interrupt enables. -/
theorem ctrlWord_toNat (s : State) : (ctrlWord s).toNat = s.ieDone.toNat * 2 + s.ieErr.toNat * 4 := by
  have := Bool.toNat_le s.ieDone; have := Bool.toNat_le s.ieErr
  simp only [ctrlWord, BitVec.toNat_ofNat]
  omega

/-- The bits of CTRL as read (spec/10_state.md R28). -/
theorem ctrlWord_bits (s : State) : (ctrlWord s).getLsbD 1 = s.ieDone ∧ (ctrlWord s).getLsbD 2 = s.ieErr ∧
    ∀ n, n ≠ 1 → n ≠ 2 → (ctrlWord s).getLsbD n = false := by
  have h := ctrlWord_toNat s
  have hdone := Bool.toNat_le s.ieDone
  have herr := Bool.toNat_le s.ieErr
  refine ⟨getLsbD_eq_of_div (by omega), getLsbD_eq_of_div (by omega), fun n h1 h2 => ?_⟩
  rcases Nat.eq_zero_or_pos n with rfl | hn
  · exact getLsbD_eq_of_div (b := false) (by simp only [Bool.toNat_false]; omega)
  · have hpow : 2 ^ 3 ≤ 2 ^ n := Nat.pow_le_pow_right (by decide) (by omega)
    exact Nat.testBit_lt_two_pow (by omega)

/-- Settles O52: the fields of STATUS and CTRL are read off the two words as numbers. -/
theorem statusFieldsAndIrq : Obligations.StatusFieldsAndIrq := by
  refine ⟨rfl, fun s hq => ?_⟩
  have hbit := Bool.toNat_le
  have := hbit s.busy; have := hbit s.done; have := hbit s.err.isSome; have := hbit s.flt.isSome
  have := hbit s.rng; have := hbit s.xspur; have := hbit s.xreq
  obtain ⟨herrcode, herrcode_eq⟩ := errcode_eq s.err
  obtain ⟨hfcause, hfcause_eq⟩ := fcause_eq s.flt
  have h := statusWord_toNat hq
  have hdone : (statusWord s).getLsbD 1 = s.done := getLsbD_eq_of_div (by omega)
  have herr : (statusWord s).getLsbD 2 = s.err.isSome := getLsbD_eq_of_div (by omega)
  have hflt : (statusWord s).getLsbD 3 = s.flt.isSome := getLsbD_eq_of_div (by omega)
  have hxreq : (statusWord s).getLsbD 6 = s.xreq := getLsbD_eq_of_div (by omega)
  obtain ⟨hieDone, hieErr, hreserved⟩ := ctrlWord_bits s
  refine ⟨getLsbD_eq_of_div (b := s.busy) (by omega), hdone, herr, hflt, getLsbD_eq_of_div (by omega),
    getLsbD_eq_of_div (by omega), hxreq, getLsbD_eq_of_div (b := false) (by simp only [Bool.toNat_false]; omega),
    by rw [← herrcode_eq]; omega, by rw [← hfcause_eq]; omega, by omega, ?_, hxreq.symm, hieDone, hieErr, hreserved⟩
  rw [hieDone, hieErr, hdone, herr, hflt]
  rfl

/-- The packed fields of `width` bits fill no more than their bits. -/
theorem packFields_lt (width : Nat) (value : Nat → Nat) (n : Nat) : packFields width value n < 2 ^ (width * n) := by
  induction n with
  | zero => exact Nat.one_pos
  | succ n ih =>
    have hv : value n % 2 ^ width + 1 ≤ 2 ^ width := Nat.mod_lt _ (Nat.two_pow_pos width)
    calc packFields width value n + value n % 2 ^ width * 2 ^ (width * n)
        < (value n % 2 ^ width + 1) * 2 ^ (width * n) := by rw [Nat.succ_mul]; omega
      _ ≤ 2 ^ width * 2 ^ (width * n) := Nat.mul_le_mul_right _ hv
      _ = 2 ^ (width * (n + 1)) := by rw [← Nat.pow_add, Nat.mul_succ, Nat.add_comm]

/-- Field i of packed fields is value i, narrowed to the width. -/
theorem packFields_field (width : Nat) (value : Nat → Nat) {i n : Nat} (hi : i < n) :
    packFields width value n / 2 ^ (width * i) % 2 ^ width = value i % 2 ^ width := by
  induction n with
  | zero => exact absurd hi (Nat.not_lt_zero i)
  | succ n ih =>
    have hpos := Nat.two_pow_pos (width * i)
    rw [packFields]
    rcases Nat.lt_succ_iff_lt_or_eq.1 hi with hlt | rfl
    · -- Value n lies a whole number of fields above field i.
      obtain ⟨k, hn⟩ := Nat.exists_eq_add_of_lt hlt
      have habove : value n % 2 ^ width * 2 ^ (width * n) =
          value n % 2 ^ width * 2 ^ (width * k) * 2 ^ width * 2 ^ (width * i) := by
        rw [show width * n = width * k + width + width * i by rw [hn]; ring, Nat.pow_add, Nat.pow_add]
        ring
      rw [habove, Nat.add_mul_div_right _ _ hpos, Nat.add_mul_mod_self_right, ih hlt]
    · rw [Nat.add_mul_div_right _ _ hpos, Nat.div_eq_of_lt (packFields_lt ..), Nat.zero_add, Nat.mod_mod]

/-- A word of packed fields that fit it is their number. -/
theorem toNat_packFields {width n : Nat} (value : Nat → Nat) (h : width * n = 32) :
    (BitVec.ofNat 32 (packFields width value n)).toNat = packFields width value n := by
  rw [BitVec.toNat_ofNat, Nat.mod_eq_of_lt (h ▸ packFields_lt width value n)]

@[simp] theorem polyAt_val (s : State) (r : Reg) : s.polyAt r.val = s.p[r] := by
  simp [State.polyAt, Nat.mod_eq_of_lt r.isLt]

/-- The code of a tag as a number (spec/10_state.md R14). -/
theorem Tag.code_toNat (t : Tag) : t.code.toNat % 2 ^ 2 =
    (if t = .empty then 0 else if t = .coef then 1 else if t = .ntt then 2 else 3) := by
  cases t <;> rfl

/-- Settles O53: each field of the three words is a packed field. -/
theorem tagAndWidthFields : Obligations.TagAndWidthFields := by
  intro s
  refine ⟨fun r => ?tags, fun r hr => ?low, fun r hr => ?high⟩
  case tags =>
    rw [tagsWord, toNat_packFields _ rfl]
    exact (packFields_field 2 _ r.isLt).trans (by rw [polyAt_val, Tag.code_toNat])
  case low =>
    rw [cwloWord, toNat_packFields _ rfl]
    refine (packFields_field 4 _ hr).trans ?_
    rw [polyAt_val]
    exact Nat.mod_eq_of_lt (BitVec.isLt _)
  case high =>
    rw [cwhiWord, toNat_packFields _ rfl]
    refine (packFields_field 4 _ (show r.val - 8 < 8 by omega)).trans ?_
    rw [Nat.add_sub_cancel' hr, polyAt_val]
    exact Nat.mod_eq_of_lt (BitVec.isLt _)

end Sys2Proof.Machine

/-! ### A step stops on the two model faults only

A command that has begun passed its Start checks, so its Complete finds every source and its range; what is left to stop
a step is an unwritten byte and a race (spec/60_exceptions.md R165). -/

namespace Sys2Proof.Machine

/-- The outcome is a next state or one of the two model faults of spec/60_exceptions.md R165. -/
def StopsOnModelFaultOnly (o : Host.Outcome State Fault Refusal) : Prop :=
  (∃ t, o = .next t) ∨ o = .fault .uninitRead ∨ o = .fault .bufRace

theorem StopsOnModelFaultOnly.next (t : State) : StopsOnModelFaultOnly (.next t) := .inl ⟨t, rfl⟩

section
variable {s : State} {i : Instr}

/-- A Complete finds a source that is not EMPTY. -/
theorem withSource_modelFaultOnly {r : Reg} {k : Coeffs → Host.Outcome State Fault Refusal} (hr : s.p[r].tag ≠ .empty)
    (h : ∀ a, StopsOnModelFaultOnly (k a)) : StopsOnModelFaultOnly (withSource s r k) := by
  unfold withSource
  cases hp : s.p[r] with
  | empty => exact absurd (by rw [hp]; rfl) hr
  | coef a | ntt a | cmpr _ a => exact h a

/-- A Complete that reads BUF stops at an unwritten byte, which is UNINIT_READ. -/
theorem withBytes_modelFaultOnly {addr : BufAddr} {n : Nat} {k : List Byte → Host.Outcome State Fault Refusal}
    (h : ∀ bs, StopsOnModelFaultOnly (k bs)) : StopsOnModelFaultOnly (withBytes s addr n k) := by
  unfold withBytes
  split
  · exact h _
  · exact .inr (.inl rfl)

/-- Every source of a command is checked at its Start for being held (R160). -/
theorem heldCheck_mem_startChecks {r : Reg} (k : Reg → RegKind) (hr : r ∈ sources i) :
    heldCheck k r ∈ startChecks i k := by
  cases i with
  | nop | sampu | sampc | dec => cases hr
  | add | sub | pmul =>
    simp only [sources, List.mem_cons, List.not_mem_nil, or_false] at hr
    rcases hr with rfl | rfl <;> simp [startChecks]
  | smul | ntt | intt | cmpr | dcmp => cases List.mem_singleton.1 hr; simp [startChecks]
  | enc => cases List.mem_singleton.1 hr; simp only [startChecks]; split <;> simp

/-- The BUF range of ENC is checked at its Start (R160). -/
theorem rangeCheck_mem_startChecks_enc (p : Reg) (d : BitVec 4) (addr : BufAddr) (k : Reg → RegKind) :
    rangeCheck addr (packedBytes d) ∈ startChecks (.enc p d addr) k := by
  simp only [startChecks]; split <;> simp

/-- A command that passed its Start checks has no EMPTY source. -/
theorem source_held (hpass : firstFailing (startChecks i s.kinds) = none) {r : Reg} (hr : r ∈ sources i) :
    s.p[r].tag ≠ .empty :=
  of_decide_eq_true ((firstFailing_none_iff _).1 hpass _ (heldCheck_mem_startChecks _ hr))

/-- A Start always answers a next state. -/
theorem exec_start_modelFaultOnly (he : s.eng = .idle) : StopsOnModelFaultOnly (exec i s) := by
  by_cases hi : ∃ rd, i = .sampu rd
  · obtain ⟨rd, rfl⟩ := hi
    rw [exec_sampu_idle he]
    exact .next _
  · rw [exec_idle he fun rd e => hi ⟨rd, e⟩]
    rcases startStep_cases (startChecks i s.kinds) beginExec s with ⟨-, h⟩ | ⟨e, -, h⟩ <;>
      rw [startCommand, h] <;> exact .next _

/-- A Chunk step always answers a next state. -/
theorem exec_chunk_modelFaultOnly {rd rd' : Reg} {acc : List Coeff} {w : Word} (he : s.eng = .sampling rd acc w) :
    StopsOnModelFaultOnly (exec (.sampu rd') s) := by
  cases hx : s.xofIn with
  | none => rw [exec_sampu_wait he hx]; exact .next _
  | some c => rw [exec_sampu_chunk he hx]; exact .next _

/-- A Complete whose command passed its Start checks stops at an unwritten byte only. -/
theorem exec_complete_modelFaultOnly {w : Word} (he : s.eng = .exec w) (hi : ∀ rd, i ≠ .sampu rd)
    (hpass : firstFailing (startChecks i s.kinds) = none) : StopsOnModelFaultOnly (exec i s) := by
  have hheld := fun r => source_held hpass (r := r)
  cases i with
  | sampu rd => exact absurd rfl (hi rd)
  | nop =>
    simp only [exec, execNop, twoPhase_exec he]
    exact .next _
  | add | sub | pmul =>
    simp only [exec, execAdd, execSub, execPmul, completeBinary, twoPhase_exec he]
    exact withSource_modelFaultOnly (hheld _ (by simp [sources])) fun _ =>
      withSource_modelFaultOnly (hheld _ (by simp [sources])) fun _ => .next _
  | smul | ntt | intt | cmpr | dcmp =>
    simp only [exec, execSmul, execNtt, execIntt, execCmpr, execDcmp, twoPhase_exec he]
    exact withSource_modelFaultOnly (hheld _ (by simp [sources])) fun _ => .next _
  | sampc | dec =>
    simp only [exec, execSampc, execDec, twoPhase_exec he]
    exact withBytes_modelFaultOnly fun _ => .next _
  | enc p d addr =>
    have hrange := of_decide_eq_true ((firstFailing_none_iff _).1 hpass _ (rangeCheck_mem_startChecks_enc p d addr _))
    simp only [exec, execEnc, twoPhase_exec he]
    refine withSource_modelFaultOnly (hheld _ (by simp [sources])) fun _ => ?_
    rw [if_pos hrange]
    exact .next _

/-- The engine's turn, by the three states of the engine. -/
theorem engineTurn_modelFaultOnly (hs : s.Inv) : StopsOnModelFaultOnly (engineTurn s) := by
  have heng := hs.engine
  cases he : s.eng with
  | idle =>
    simp only [engineTurn, he]
    split
    · split
      · exact exec_start_modelFaultOnly he
      · exact .next _
    · exact .next _
  | exec w =>
    simp only [EngineValid, he] at heng
    obtain ⟨-, i, hd, hi, hpass⟩ := heng
    rw [engineTurn_complete he hd]
    exact exec_complete_modelFaultOnly he hi hpass
  | sampling rd acc w =>
    rw [engineTurn_sample he]
    exact exec_chunk_modelFaultOnly he

/-- The producer's answer is a Chunk step or is not taken. -/
theorem answerXof_modelFaultOnly (c : Chunk) (u : State) : StopsOnModelFaultOnly (answerXof c u s) := by
  unfold answerXof
  split
  · next he => exact exec_chunk_modelFaultOnly (s := offerChunk c s) he
  · exact .next _

/-- A host read stops in the window only: at a race or at an unwritten byte. -/
theorem hostRead_modelFaultOnly (off : Offset) : StopsOnModelFaultOnly (hostRead off s) := by
  unfold hostRead
  dsimp only
  split
  · exact .next _
  split
  · exact .inr (.inr rfl)
  split
  · exact .next _
  · exact .inr (.inl rfl)

/-- A host write stops at a race only. -/
theorem hostWrite_modelFaultOnly (off : Offset) (v : Word) : StopsOnModelFaultOnly (hostWrite off v s) := by
  unfold hostWrite
  dsimp only
  split
  · exact .next _
  split
  · exact .next _
  split
  · exact .next _
  split
  · exact answerXof_modelFaultOnly _ _
  split
  · exact .next _
  split
  · exact .inr (.inr rfl)
  · exact .next _

/-- Every turn of every agent. -/
theorem takeTurn_modelFaultOnly (turn : Turn) (hs : s.Inv) : StopsOnModelFaultOnly (takeTurn turn s) := by
  cases turn with
  | engine => exact engineTurn_modelFaultOnly hs
  | hostRead off => exact hostRead_modelFaultOnly off
  | hostWrite off v => exact hostWrite_modelFaultOnly off v
  | xof c => exact answerXof_modelFaultOnly c s
  | powerOn => exact .next _

end

/-- Settles O36, by the turns of the agents: the invariant says that an executing command passed its Start checks. -/
theorem onlyModelFaultsStop : Obligations.OnlyModelFaultsStop := by
  intro s hs
  cases hsch : s.schedule with
  | nil => rw [step_of_schedule_nil hsch]; exact engineTurn_modelFaultOnly hs
  | cons turn rest => rw [step_of_schedule_cons hsch]; exact takeTurn_modelFaultOnly turn { hs with }

end Sys2Proof.Machine

/-! ### The Start checks, one by one -/

namespace Sys2Proof.Machine

section
variable {begins : State → State} {s : State}

/-- A Start with no check left begins the command. -/
theorem startStep_nil : startStep [] begins s = .next (begins s) := rfl

/-- A Start makes its first check, and goes on with the others where it holds (spec/60_exceptions.md R160). -/
theorem startStep_cons (ok : Bool) (e : Exc) (rest : List (Bool × Exc)) :
    startStep ((ok, e) :: rest) begins s = if ok then startStep rest begins s else .next (takeExc e s) := by
  cases ok <;> rfl

end

section
variable (s : State)

/-- The Start of a command that reads BUF and no register: its range is its only check. -/
theorem startStep_rangeCheck (addr : BufAddr) (n : Nat) : startStep [rangeCheck addr n] beginExec s =
    .next (if 4096 < addr.toNat + n then afterError .malformedInput s else begun s) := by
  rw [rangeCheck, startStep_cons, startStep_nil]
  simp only [decide_eq_true_eq, Config.bufSize, ← Nat.not_lt, ite_not]
  split <;> rfl

/-- The Start of ENC: the range, then the source's tag, then its width where D < 12. -/
theorem startCommand_enc (p : Reg) (d : BitVec 4) (addr : BufAddr) : startCommand (.enc p d addr) s = .next (
    if 4096 < addr.toNat + 32 * d.toNat then afterError .malformedInput s
    else if s.p[p].tag = .empty then afterFault .emptyOperand s
    else if d.toNat = 12 then
      if s.p[p].tag = .coef ∨ s.p[p].tag = .ntt then begun s else afterFault .domainMismatch s
    else if s.p[p].tag ≠ .cmpr then afterFault .domainMismatch s
    else if s.p[p].cw ≠ d then afterFault .widthMismatch s
    else begun s) := by
  have htag : (s.kinds p).tag = s.p[p].tag := rfl
  have hcw : (s.kinds p).cw = s.p[p].cw := rfl
  simp only [startCommand, startChecks, packedBytes]
  by_cases h12 : d.toNat = 12
  all_goals
    simp only [h12, if_true, if_false, rangeCheck, heldCheck, domainCheck, widthCheck, startStep_cons, startStep_nil,
      uncompressed_iff, decide_eq_true_eq, htag, hcw, Config.bufSize, ← Nat.not_lt, ite_not, ne_eq]
    (repeat' split) <;> rfl

end

/-- Settles O10: the checks of each command in their order. -/
theorem startOfBufferCommands : Obligations.StartOfBufferCommands := by
  intro s p d t addr he
  rw [exec_idle he (by simp), exec_idle he (by simp), exec_idle he (by simp)]
  exact ⟨startStep_rangeCheck s addr _, startStep_rangeCheck s addr _, startCommand_enc s p d addr⟩

end Sys2Proof.Machine

/-! ### The register map and the buffer window -/

namespace Sys2Proof.Machine

/-- Settles O41, by what a host read can answer. -/
theorem hostReadChangesNothing : Obligations.HostReadChangesNothing := by
  intro s t off rest hs h
  rw [step_of_schedule_cons hs] at h
  obtain ⟨v, rfl⟩ := hostRead_cases h
  rfl

section
variable {off off' : Offset} {s : State}

/-- A read below the window answers its register (spec/20_memory.md R54). -/
theorem hostRead_register (ho : wordOffset off < 0x1000) :
    hostRead off s = .next { s with answer := some (readRegister s (wordOffset off)) } :=
  if_pos ho

/-- The register at word index n (R52, R54). -/
theorem readRegister_word (s : State) (n : Nat) : readRegister s (n * 4) =
    if n = 0 then Config.idValue
    else if n = 1 then ctrlWord s
    else if n = 2 then statusWord s
    else if n = 5 then s.xcnt
    else if n = 6 then tagsWord s
    else if n = 7 then cwloWord s
    else if n = 8 then cwhiWord s
    else if n = 9 then s.cmdcnt
    else if n = 10 then s.errinfo
    else 0 := by
  have hindex : ∀ k, n * 4 = k * 4 ↔ n = k := fun k => by omega
  unfold readRegister
  simp only [hindex 0, hindex 1, hindex 2, hindex 5, hindex 6, hindex 7, hindex 8, hindex 9, hindex 10]

/-- A write to a read-only register or to a reserved offset is ignored (R52). -/
theorem hostWrite_ignored (v : Word) (s : State) (h : off.toNat / 4 = 0 ∨ 5 ≤ off.toNat / 4 ∧ off.toNat / 4 < 0x400) :
    hostWrite off v s = .next s := by
  unfold hostWrite wordOffset
  dsimp only
  rw [if_neg (by omega), if_neg (by omega), if_neg (by omega), if_neg (by omega), if_pos (by omega)]

/-- The word offset is the offset with its two low bits cleared (R49). -/
theorem wordOffset_and (off : Offset) : wordOffset (off &&& 0x1FFC) = wordOffset off := by
  have hlt : off.toNat / 2 ^ 2 < 2 ^ 11 := Nat.div_lt_of_lt_mul off.isLt
  have hindex : (off &&& 0x1FFC).toNat / 2 ^ 2 = off.toNat / 2 ^ 2 := by
    rw [BitVec.toNat_and, Nat.and_div_two_pow]
    exact (Nat.and_two_pow_sub_one_eq_mod _ 11).trans (Nat.mod_eq_of_lt hlt)
  exact congrArg (· * 4) hindex

/-- A host read depends on its offset by the word offset only. -/
theorem hostRead_congr (h : wordOffset off = wordOffset off') : hostRead off s = hostRead off' s := by
  unfold hostRead; rw [h]

/-- A host write depends on its offset by the word offset only. -/
theorem hostWrite_congr (v : Word) (h : wordOffset off = wordOffset off') :
    hostWrite off v s = hostWrite off' v s := by
  unfold hostWrite; rw [h]

end

/-- Settles O42: the read of each word index below the window, and the ignored writes. -/
theorem registerMap : Obligations.RegisterMap := by
  refine ⟨fun s off rest hs ho => ?read, fun s off v rest hs ho => ?write⟩
  case read =>
    have hlow : wordOffset off < 0x1000 := by unfold wordOffset; omega
    rw [step_of_schedule_cons hs, takeTurn, hostRead_register hlow, wordOffset, readRegister_word]
    rfl
  case write =>
    rw [step_of_schedule_cons hs, takeTurn, hostWrite_ignored v _ ho]
    rfl

/-- Settles O43: both transactions take the word offset of their access. -/
theorem lowOffsetBitsIgnored : Obligations.LowOffsetBitsIgnored := by
  intro s off v rest
  simp only [step, nextTurn, takeTurn]
  exact ⟨hostRead_congr (wordOffset_and off).symm, hostWrite_congr v (wordOffset_and off).symm⟩

/-- A byte of a word, taken as bits, is the quotient by its weight narrowed to a byte. -/
theorem extractByte_eq (v : Word) (j : Nat) : v.extractLsb' (8 * j) 8 = BitVec.ofNat 8 (v.toNat / 2 ^ (8 * j)) := by
  rw [← Nat.shiftRight_eq_div_pow]; rfl

/-- The bytes of a window write hold its word from the low byte up (R57). -/
theorem Memory.read_writeWindow_inside (m : List Host.Cell) (a : Nat) (v : Word) {j : Nat} (hj : j < 4) :
    Memory.read (writeWindow m a v) (a + j) = some (BitVec.ofNat 8 (v.toNat / 2 ^ (8 * j))) := by
  rw [← extractByte_eq]
  refine (Memory.read_writeBytes_inside [_, _, _, _] m a j hj).trans ?_
  interval_cases j <;> rfl

/-- A window write leaves every other byte alone. -/
theorem Memory.read_writeWindow_outside (m : List Host.Cell) {a b : Nat} (v : Word) (h : b < a ∨ a + 4 ≤ b) :
    Memory.read (writeWindow m a v) b = Memory.read m b :=
  Memory.read_writeBytes_outside _ m h

/-- The word of four written bytes, the lowest address in its low byte (R57). -/
theorem readWindow_written {m : List Host.Cell} {a : Nat} {b0 b1 b2 b3 : Byte} (h0 : Memory.read m a = some b0)
    (h1 : Memory.read m (a + 1) = some b1) (h2 : Memory.read m (a + 2) = some b2)
    (h3 : Memory.read m (a + 3) = some b3) : readWindow m a =
      some (BitVec.ofNat 32 (b0.toNat + 2 ^ 8 * b1.toNat + 2 ^ 16 * b2.toNat + 2 ^ 24 * b3.toNat)) := by
  have hword : b3 ++ b2 ++ b1 ++ b0 =
      BitVec.ofNat 32 (b0.toNat + 2 ^ 8 * b1.toNat + 2 ^ 16 * b2.toNat + 2 ^ 24 * b3.toNat) := by
    apply BitVec.eq_of_toNat_eq
    have := b0.isLt; have := b1.isLt; have := b2.isLt; have := b3.isLt
    simp only [BitVec.toNat_append, BitVec.toNat_ofNat]
    rw [← Nat.shiftLeft_add_eq_or_of_lt b2.isLt, ← Nat.shiftLeft_add_eq_or_of_lt b1.isLt,
      ← Nat.shiftLeft_add_eq_or_of_lt b0.isLt]
    simp only [Nat.shiftLeft_eq]
    omega
  simp only [readWindow, h0, h1, h2, h3, hword]

/-- A window with an unwritten byte has no word (R21). -/
theorem readWindow_unwritten {m : List Host.Cell} {a j : Nat} (hj : j < 4) (h : Memory.read m (a + j) = none) :
    readWindow m a = none := by
  unfold readWindow
  split
  · next h0 h1 h2 h3 =>
    interval_cases j
    · exact absurd h (by simp [h0])
    · exact absurd h (by simp [h1])
    · exact absurd h (by simp [h2])
    · exact absurd h (by simp [h3])
  · rfl

section
variable {off : Offset} {s : State}

/-- A write in the window, where it is no race (R56). -/
theorem hostWrite_window (v : Word) (ho : 0x1000 ≤ off.toNat) (hrace : hostWrite off v s ≠ .fault .bufRace) :
    hostWrite off v s = .next { s with buf := writeWindow s.buf (off.toNat / 4 * 4 - 0x1000) v } := by
  unfold hostWrite wordOffset at hrace ⊢
  dsimp only at hrace ⊢
  rw [if_neg (by omega), if_neg (by omega), if_neg (by omega), if_neg (by omega), if_neg (by omega)] at hrace ⊢
  exact if_neg fun hc => hrace (if_pos hc)

/-- A read in the window, where it is no race: its word, or the stop at an unwritten byte (R56, R21). -/
theorem hostRead_window (ho : 0x1000 ≤ off.toNat) (hrace : hostRead off s ≠ .fault .bufRace) :
    hostRead off s = (readWindow s.buf (off.toNat / 4 * 4 - 0x1000)).elim (.fault .uninitRead)
      fun v => .next { s with answer := some v } := by
  unfold hostRead wordOffset at hrace ⊢
  dsimp only at hrace ⊢
  rw [if_neg (by omega)] at hrace ⊢
  rw [if_neg fun hc => hrace (if_pos hc)]
  cases readWindow s.buf (off.toNat / 4 * 4 - 0x1000) <;> rfl

end

/-- Settles O44: the four bytes of the access, and every byte outside it. -/
theorem windowIsLittleEndian : Obligations.WindowIsLittleEndian := by
  refine ⟨fun s off v rest hs ho hrace => ?write, fun s off rest hs ho hrace => ?read⟩
  case write =>
    rw [step_of_schedule_cons hs] at hrace ⊢
    exact ⟨_, hostWrite_window v ho hrace, rfl, fun j hj => Memory.read_writeWindow_inside _ _ v hj,
      fun b hb => Memory.read_writeWindow_outside _ v hb⟩
  case read =>
    have hread := hostRead_window ho (by rwa [step_of_schedule_cons hs] at hrace)
    rw [step_of_schedule_cons hs, takeTurn, hread]
    refine ⟨fun b0 b1 b2 b3 h0 h1 h2 h3 => ?_, fun j hj h => ?_⟩
    · rw [withTurns_buf, readWindow_written h0 h1 h2 h3]; rfl
    · rw [withTurns_buf, readWindow_unwritten hj h]; rfl

end Sys2Proof.Machine

/-! ### The footprints of the queue, and when they change

A host access is BUF_RACE where it reaches a footprint (spec/20_memory.md R65, R66), so the races are settled by the
list `footprints s`. A step that the host's writes to CMD, STATUS and CTRL have no part in leaves that list, or drops
from it the footprint of the command it completes. -/

namespace Sys2Proof.Machine

/-- A host access at `off` is a window access that reaches a byte of the footprint, and one of the two writes it. -/
def Footprint.Reached (f : Footprint) (writes : Bool) (off : Offset) : Prop :=
  0x1000 ≤ wordOffset off ∧ (writes || f.writes) = true ∧
    wordOffset off - 0x1000 < f.lo + f.size ∧ f.lo < wordOffset off - 0x1000 + 4

section
variable {s : State} {writes : Bool} {off : Offset}

/-- An access races where it reaches a footprint of the queue. -/
theorem races_iff_reached : Races s writes off ↔ ∃ f ∈ footprints s, f.Reached writes off := by
  rw [races_iff, conflicts_iff]
  constructor
  · rintro ⟨ho, f, hf, h⟩
    exact ⟨f, hf, ho, h⟩
  · rintro ⟨f, hf, ho, h⟩
    exact ⟨ho, f, hf, h⟩

/-- An access shares a byte with a range of at least one byte where it reaches it. -/
theorem touches_range_iff {lo size : Nat} (hsize : 0 < size) (hbuf : lo + size ≤ Config.bufSize) :
    (∃ b, lo ≤ b ∧ b < lo + size ∧ touches off b) ↔
      0x1000 ≤ wordOffset off ∧ wordOffset off - 0x1000 < lo + size ∧ lo < wordOffset off - 0x1000 + 4 := by
  unfold touches wordOffset Config.bufSize at *
  constructor
  · rintro ⟨b, h1, h2, h3, h4⟩
    omega
  · rintro ⟨h1, h2, h3⟩
    exact ⟨max lo (off.toNat / 4 * 4 - 0x1000), by omega, by omega, by omega, by omega⟩

/-- The range of the words that reach BUF: ENC writes its range, DEC and SAMPC read theirs. -/
inductive RangeOf (w : Word) : Footprint → Prop where
  | enc {p : Reg} {d : BitVec 4} {a : BufAddr} (hd : decode w = .ok (.enc p d a)) :
      RangeOf w ⟨a.toNat, 32 * d.toNat, true⟩
  | dec {p : Reg} {d : BitVec 4} {t : Tag} {a : BufAddr} (hd : decode w = .ok (.dec p d t a)) :
      RangeOf w ⟨a.toNat, 32 * d.toNat, false⟩
  | sampc {p : Reg} {eta : BitVec 4} {a : BufAddr} (hd : decode w = .ok (.sampc p eta a)) :
      RangeOf w ⟨a.toNat, 64 * eta.toNat, false⟩

section
variable {w : Word} {f : Footprint}

/-- A footprint is a range that stays in BUF (R65). -/
theorem footprint_iff : footprint w = some f ↔ RangeOf w f ∧ f.lo + f.size ≤ Config.bufSize := by
  constructor
  · intro h
    unfold footprint at h
    dsimp only at h
    split at h
    case h_1 hd => split at h <;> cases h; exact ⟨.enc hd, ‹_›⟩
    case h_2 hd => split at h <;> cases h; exact ⟨.dec hd, ‹_›⟩
    case h_3 hd => split at h <;> cases h; exact ⟨.sampc hd, ‹_›⟩
    case h_4 => cases h
  · rintro ⟨hd | hd | hd, hbuf⟩ <;> simp only [footprint, hd] <;> exact if_pos hbuf

/-- The range of a decoded word has a byte, D and ETA being positive (spec/30_encoding.md R84). -/
theorem RangeOf.size_pos (h : RangeOf w f) : 0 < f.size := by
  cases h with
  | enc hd | dec hd | sampc hd =>
    have hw := wellFormed_of_decode hd
    simp only [Instr.wellFormed, Bool.and_eq_true, decide_eq_true_eq] at hw
    dsimp only
    omega

/-- An access touches the range of a word where it reaches its footprint. -/
theorem touchesRange_iff : TouchesRange w writes off ↔ ∃ f, footprint w = some f ∧ f.Reached writes off := by
  constructor
  · have reached : ∀ f : Footprint, RangeOf w f → f.lo + f.size ≤ 4096 →
        (∃ b, f.lo ≤ b ∧ b < f.lo + f.size ∧ touches off b) → (writes || f.writes) = true →
        ∃ f, footprint w = some f ∧ f.Reached writes off := by
      intro f hr hbuf hb hw
      obtain ⟨ho, h⟩ := (touches_range_iff hr.size_pos hbuf).1 hb
      exact ⟨f, footprint_iff.2 ⟨hr, hbuf⟩, ho, hw, h⟩
    rintro ⟨addr, n, hbuf, hb, ⟨p, d, a, hd, rfl, rfl⟩ | ⟨hw, ⟨p, d, tag, a, hd, rfl, rfl⟩ | ⟨p, eta, a, hd, rfl, rfl⟩⟩⟩
    · exact reached _ (.enc hd) hbuf hb (Bool.or_true _)
    · exact reached _ (.dec hd) hbuf hb (by rw [hw]; rfl)
    · exact reached _ (.sampc hd) hbuf hb (by rw [hw]; rfl)
  · rintro ⟨f, hf, ho, hw, h⟩
    obtain ⟨hr, hbuf⟩ := footprint_iff.1 hf
    refine ⟨f.lo, f.size, hbuf, (touches_range_iff hr.size_pos hbuf).2 ⟨ho, h⟩, ?_⟩
    cases hr with
    | enc hd => exact .inl ⟨_, _, _, hd, rfl, rfl⟩
    | dec hd => exact .inr ⟨by simpa using hw, .inl ⟨_, _, _, _, hd, rfl, rfl⟩⟩
    | sampc hd => exact .inr ⟨by simpa using hw, .inr ⟨_, _, _, hd, rfl, rfl⟩⟩

end

end

/-! ### The footprints in each state of the engine -/

section
variable {s t : State} {w : Word} {ws : List Word} {k : Reg → RegKind} {i : Instr}

theorem mem_heldFootprints {f : Footprint} : f ∈ heldFootprints ws ↔ ∃ w ∈ ws, footprint w = some f :=
  List.mem_filterMap

/-- Commands under ERR or FAULT have no Start (spec/10_state.md R38; log 5). -/
theorem waitingFootprints_held (h : s.err ≠ none ∨ s.flt ≠ none) : waitingFootprints s k ws = heldFootprints ws :=
  if_pos (by simpa [Option.isSome_iff_ne_none] using h)

theorem waitingFootprints_free (herr : s.err = none) (hflt : s.flt = none) :
    waitingFootprints s k ws = footprintsAhead k ws :=
  if_neg (by simp [herr, hflt])

/-- ERR and FAULT are all that the waiting commands' footprints depend on besides their words and the kinds. -/
theorem waitingFootprints_congr (herr : t.err = s.err) (hflt : t.flt = s.flt) :
    waitingFootprints t k ws = waitingFootprints s k ws := by
  unfold waitingFootprints; rw [herr, hflt]

/-- A head that its Start begins has its footprint, and the others start after it. -/
theorem footprintsAhead_begins (hd : decode w = .ok i) (hpass : firstFailing (startChecks i k) = none) :
    footprintsAhead k (w :: ws) = (footprint w).toList ++ footprintsAhead (kindsAfter i k) ws := by
  simp only [footprintsAhead, hd, hpass]

/-- A head that its Start refuses has no footprint, and the others have no Start. -/
theorem footprintsAhead_refused (h : ∀ i, decode w = .ok i → firstFailing (startChecks i k) ≠ none) :
    footprintsAhead k (w :: ws) = heldFootprints ws := by
  cases hd : decode w with
  | error e => simp only [footprintsAhead, hd]
  | ok i =>
    obtain ⟨e, he⟩ := Option.ne_none_iff_exists'.1 (h i hd)
    simp only [footprintsAhead, hd, he]

theorem footprints_idle (he : s.eng = .idle) : footprints s = waitingFootprints s s.kinds s.queue := if_pos he

/-- While a command is under way, its footprint and those of the commands behind it. -/
theorem footprints_executing (he : s.eng ≠ .idle) (hq : s.queue.head? = some w) :
    footprints s = (footprint w).toList ++ waitingFootprints s (kindsAfterWord w s.kinds) s.queue.tail := by
  obtain ⟨ws, hq⟩ := List.head?_eq_some_iff.1 hq
  simp only [footprints, he, if_false, hq, List.tail_cons]

/-- While a command is under way, its footprints are settled by the kinds, the queue, ERR and FAULT. -/
theorem footprints_executing_congr (he : s.eng ≠ .idle) (he' : t.eng ≠ .idle) (hk : t.kinds = s.kinds)
    (hq : t.queue = s.queue) (herr : t.err = s.err) (hflt : t.flt = s.flt) : footprints t = footprints s := by
  unfold footprints waitingFootprints
  rw [if_neg he, if_neg he', hk, hq, herr, hflt]

/-- A queue that may start is its head and the commands behind it. -/
theorem queue_eq_of_canStart (hc : canStart s = true) : s.queue = s.head :: s.queue.tail := by
  obtain ⟨-, hq, -, -⟩ := (canStart_iff s).1 hc
  exact (List.cons_head?_tail (head?_eq_head hq)).symm

/-- The footprints before a Start, which are those ahead. -/
theorem footprints_canStart (hc : canStart s = true) :
    footprints s = footprintsAhead s.kinds (s.head :: s.queue.tail) := by
  obtain ⟨he, -, herr, hflt⟩ := (canStart_iff s).1 hc
  rw [footprints_idle he, waitingFootprints_free herr hflt, ← queue_eq_of_canStart hc]

/-- The footprints of commands that ERR or FAULT holds back. -/
theorem mem_footprints_of_held {f : Footprint} (hheld : s.err ≠ none ∨ s.flt ≠ none) (hw : w ∈ s.queue)
    (hf : footprint w = some f) : f ∈ footprints s := by
  by_cases he : s.eng = .idle
  · rw [footprints_idle he, waitingFootprints_held hheld]
    exact mem_heldFootprints.2 ⟨w, hw, hf⟩
  · obtain ⟨head, ws, hq⟩ := List.exists_cons_of_ne_nil (List.ne_nil_of_mem hw)
    rw [footprints_executing (w := head) he (by rw [hq]; rfl), waitingFootprints_held hheld, hq]
    rcases List.mem_cons.1 (hq ▸ hw) with rfl | hbehind
    · exact List.mem_append_left _ (by simp [hf])
    · exact List.mem_append_right _ (mem_heldFootprints.2 ⟨w, hbehind, hf⟩)

/-- The next Start begins the head or refuses it. -/
theorem engineTurn_begins_or_refuses (hc : canStart s = true) (h : engineTurn s = .next t) :
    (t.eng ≠ .idle ∧ ∃ i, decode s.head = .ok i ∧ firstFailing (startChecks i s.kinds) = none) ∨
      (t.eng = .idle ∧ ∀ i, decode s.head = .ok i → firstFailing (startChecks i s.kinds) ≠ none) := by
  obtain ⟨he, -, -, -⟩ := (canStart_iff s).1 hc
  cases hd : decode s.head with
  | error e =>
    simp only [engineTurn, he, hc, if_true, hd] at h
    cases h
    exact .inr ⟨by rw [takeExc_eng, he], fun i hi => nomatch hi⟩
  | ok i =>
    rw [engineTurn_start hc hd] at h
    cases exec_cases h with
    | refusedStart e _ hfail ht => exact .inr ⟨by rw [ht, takeExc_eng, he], fun _ hi => by cases hi; simp [hfail]⟩
    | begins _ hpass _ ht => exact .inl ⟨by simp [ht], i, rfl, hpass⟩
    | samples rd _ hi ht => exact .inl ⟨by simp [ht], i, rfl, by rw [hi]; rfl⟩
    | completes w he' => rw [he] at he'; cases he'
    | chunk rd acc w c he' => rw [he] at he'; cases he'
    | waits he' => exact absurd he he'

end

/-! ### The turns that keep the footprints -/

/-- The footprints of the queue stay as they are, or the command under way completes and its own go. -/
def KeepsFootprints (s t : State) : Prop :=
  footprints t = footprints s ∨
    (s.eng ≠ .idle ∧ t.eng = .idle ∧
      ∃ w, s.queue.head? = some w ∧ footprints s = (footprint w).toList ++ footprints t)

section
variable {s t : State} {i : Instr} {w : Word}

@[simp] theorem setKind_setKind (r : Reg) (u v : RegKind) (k : Reg → RegKind) :
    setKind r u (setKind r v k) = setKind r u k := by
  funext q; unfold setKind; split <;> rfl

theorem kindsAfterWord_of_decode {k : Reg → RegKind} (hd : decode w = .ok i) : kindsAfterWord w k = kindsAfter i k := by
  simp only [kindsAfterWord, hd]

/-- The command under way is the head of the queue. -/
theorem State.Inv.executing_head (hs : s.Inv) (hw : executingWord s.eng = some w) : s.queue.head? = some w := by
  have heng := hs.engine
  cases he : s.eng with
  | idle => rw [he] at hw; cases hw
  | exec | sampling =>
    rw [he] at hw
    cases hw
    simp only [EngineValid, he] at heng
    exact heng.1

/-- The command under way is what the head of the queue reads. -/
theorem State.Inv.head_eq (hs : s.Inv) (hw : executingWord s.eng = some w) : s.head = w := by
  rw [State.head, List.headD_eq_head?_getD, hs.executing_head hw]
  rfl

/-- A refused head has no footprint, and the error or fault of its Start holds back the commands behind it. -/
theorem footprints_takeExc (hc : canStart s = true) (e : Exc)
    (hfail : ∀ i, decode s.head = .ok i → firstFailing (startChecks i s.kinds) ≠ none) :
    footprints (takeExc e s) = footprints s := by
  obtain ⟨he, -, -, -⟩ := (canStart_iff s).1 hc
  have hheld : (takeExc e s).err ≠ none ∨ (takeExc e s).flt ≠ none := by cases e <;> simp
  rw [footprints_canStart hc, footprintsAhead_refused hfail, footprints_idle (by rw [takeExc_eng, he]),
    waitingFootprints_held hheld, takeExc_queue]

/-- A begun command, with the kinds that its Complete leaves, counts as it did before its Start. -/
theorem footprints_begun (hc : canStart s = true) (hd : decode s.head = .ok i)
    (hpass : firstFailing (startChecks i s.kinds) = none) (he : t.eng ≠ .idle) (hq : t.queue = s.queue)
    (herr : t.err = s.err) (hflt : t.flt = s.flt) (hk : kindsAfter i t.kinds = kindsAfter i s.kinds) :
    footprints t = footprints s := by
  obtain ⟨-, hne, herr', hflt'⟩ := (canStart_iff s).1 hc
  rw [footprints_executing he (hq ▸ head?_eq_head hne), waitingFootprints_congr herr hflt,
    waitingFootprints_free herr' hflt', kindsAfterWord_of_decode hd, hk, hq, footprints_canStart hc,
    footprintsAhead_begins hd hpass]

/-- A completed command takes its footprint with it, and leaves the kinds that the commands behind it were judged on. -/
theorem footprints_completed (he : s.eng ≠ .idle) (hq : s.queue.head? = some w) (hd : decode w = .ok i)
    (he' : t.eng = .idle) (hq' : t.queue = s.queue.tail) (herr : t.err = s.err) (hflt : t.flt = s.flt)
    (hk : t.kinds = kindsAfter i s.kinds) : KeepsFootprints s t := by
  refine .inr ⟨he, he', w, hq, ?_⟩
  rw [footprints_executing he hq, footprints_idle he', waitingFootprints_congr herr hflt, hq', hk,
    kindsAfterWord_of_decode hd]

/-- A Chunk step goes on with its SAMPU, or completes it as its Start foretold. -/
theorem chunkStep_keepsFootprints {rd : Reg} {acc : List Coeff} (hs : s.Inv) (he : s.eng = .sampling rd acc w)
    (c : Chunk) : KeepsFootprints s (chunkStep rd acc w c s) := by
  have hne : s.eng ≠ .idle := by simp [he]
  have heng := hs.engine
  simp only [EngineValid, he] at heng
  obtain ⟨hhead, hd, -⟩ := heng
  rcases chunkStep_cases rd acc w c s with ⟨-, ht⟩ | ⟨-, ht⟩ <;> rw [ht]
  · exact .inl (footprints_executing_congr hne (by simp) rfl rfl rfl rfl)
  · exact footprints_completed hne hhead hd rfl rfl rfl rfl (kinds_setP ..)

/-- A command's own step, of the head that may start or of the command under way, keeps the footprints. -/
theorem exec_keepsFootprints (hs : s.Inv) (hd : decode s.head = .ok i) (hc : s.eng = .idle → canStart s = true)
    (h : exec i s = .next t) : KeepsFootprints s t := by
  cases exec_cases h with
  | refusedStart e he hfail ht =>
    subst ht
    refine .inl (footprints_takeExc (hc he) e fun j hj => ?_)
    obtain rfl : i = j := Except.ok.inj (hd.symm.trans hj)
    simp [hfail]
  | begins he hpass _ ht =>
    subst ht
    exact .inl (footprints_begun (hc he) hd hpass (by simp) rfl rfl rfl rfl)
  | samples rd he hi ht =>
    subst ht hi
    refine .inl (footprints_begun (hc he) hd rfl (by simp) rfl rfl rfl ?_)
    have hk : (beginSampling rd s).kinds = setKind rd Poly.empty.kind s.kinds := kinds_setP ..
    rw [hk]
    exact setKind_setKind ..
  | completes w he hi _ =>
    have hhead := hs.executing_head (w := w) (by rw [he]; rfl)
    have hhead' := hs.head_eq (w := w) (by rw [he]; rfl)
    have hk := kinds_complete he hi (wellFormed_of_decode hd) h
    obtain ⟨p, buf, rng, rfl⟩ := exec_complete he hi h
    exact footprints_completed (by simp [he]) hhead (hhead' ▸ hd) rfl rfl rfl rfl hk
  | chunk rd acc w c he _ ht => exact ht ▸ chunkStep_keepsFootprints hs he c
  | waits _ ht => exact .inl (by rw [ht])

/-- A sampling SAMPU's own step keeps the footprints. -/
theorem sampling_keepsFootprints {rd : Reg} {acc : List Coeff} (hs : s.Inv) (he : s.eng = .sampling rd acc w)
    (h : exec (.sampu rd) s = .next t) : KeepsFootprints s t := by
  have heng := hs.engine
  simp only [EngineValid, he] at heng
  obtain ⟨-, hd, -⟩ := heng
  have hhead := hs.head_eq (w := w) (by rw [he]; rfl)
  exact exec_keepsFootprints hs (hhead ▸ hd) (by simp [he]) h

/-- The engine's turn keeps the footprints. -/
theorem engineTurn_keepsFootprints (hs : s.Inv) (h : engineTurn s = .next t) : KeepsFootprints s t := by
  cases engineTurn_cases h with
  | idles ht => exact .inl (by rw [ht])
  | notACommand e hc hd ht => exact .inl (ht ▸ footprints_takeExc hc _ fun i hi => by rw [hd] at hi; cases hi)
  | starts i hc hd h => exact exec_keepsFootprints hs hd (fun _ => hc) h
  | completes w i he hd h =>
    have hhead := hs.head_eq (w := w) (by rw [he]; rfl)
    exact exec_keepsFootprints hs (hhead ▸ hd) (by simp [he]) h
  | samples rd acc w he h => exact sampling_keepsFootprints hs he h

/-- The producer's answer keeps the footprints, where what it does unrequested does. -/
theorem answerXof_keepsFootprints {c : Chunk} {u : State} (hs : s.Inv) (hu : footprints u = footprints s)
    (h : answerXof c u s = .next t) : KeepsFootprints s t := by
  rcases answerXof_cases h with ⟨rd, acc, w, he, h⟩ | ⟨-, rfl⟩
  · exact sampling_keepsFootprints (s := offerChunk c s) { hs with } he h
  · exact .inl hu

end

section
variable {s t : State}

/-- The turns of the engine and of the XOF producer: the engine's own, the port's answer, and a write to XDATA. -/
def Turn.OfEngineOrProducer (turn : Turn) : Prop :=
  turn = .engine ∨ (∃ chunk, turn = .xof chunk) ∨ ∃ off v, turn = .hostWrite off v ∧ off.toNat / 4 = 4

/-- A turn of the engine or the producer keeps the footprints. -/
theorem takeTurn_keepsFootprints {turn : Turn} (hturn : turn.OfEngineOrProducer) (hs : s.Inv)
    (h : takeTurn turn s = .next t) : KeepsFootprints s t := by
  rcases hturn with rfl | ⟨chunk, rfl⟩ | ⟨off, v, rfl, ho⟩
  · exact engineTurn_keepsFootprints hs h
  · exact answerXof_keepsFootprints hs rfl h
  · rw [takeTurn, hostWrite_xdata v s ho] at h
    refine answerXof_keepsFootprints hs ?_ h
    rfl

/-- A step of the engine or the producer keeps the footprints. -/
theorem step_keepsFootprints (hs : s.Inv) (h : step s = .next t)
    (hturn : s.schedule = [] ∨ ∃ turn rest, s.schedule = turn :: rest ∧ turn.OfEngineOrProducer) :
    KeepsFootprints s t := by
  rcases hturn with hnil | ⟨turn, rest, hcons, hturn⟩
  · rw [step_of_schedule_nil hnil] at h
    exact engineTurn_keepsFootprints hs h
  · rw [step_of_schedule_cons hcons] at h
    exact takeTurn_keepsFootprints (s := withTurns rest s) hturn { hs with } h

/-- Where the footprints are kept, so are the races, but for those with the completed command. -/
theorem KeepsFootprints.races {writes : Bool} {off : Offset} (h : KeepsFootprints s t) :
    (Races t writes off → Races s writes off) ∧
      (Races s writes off → Races t writes off ∨
        s.eng ≠ .idle ∧ t.eng = .idle ∧ ∃ w, s.queue.head? = some w ∧ TouchesRange w writes off) := by
  simp only [races_iff_reached]
  rcases h with h | ⟨he, he', w, hq, h⟩
  · rw [h]
    exact ⟨id, .inl⟩
  · rw [h]
    refine ⟨fun ⟨f, hf, hr⟩ => ⟨f, List.mem_append_right _ hf, hr⟩, ?_⟩
    rintro ⟨f, hf, hr⟩
    rcases List.mem_append.1 hf with hf | hf
    · exact .inr ⟨he, he', w, hq, touchesRange_iff.2 ⟨f, by simpa using hf, hr⟩⟩
    · exact .inl ⟨f, hf, hr⟩

end

/-- Settles O45: the races are the footprints reached, so each clause reads the list of footprints in its case. -/
theorem racesAreFound : Obligations.RacesAreFound := by
  intro s writes off
  refine ⟨fun huntouched => ?untouched, fun w hq htouch hruns => ?runs, fun t hready h ht huntouched => ?refused,
    fun w hw hheld htouch => ?held, fun t hs h hturn => (step_keepsFootprints hs h hturn).races⟩
  case untouched =>
    rw [noRace_iff, races_iff_reached]
    rintro ⟨f, hf, hr⟩
    obtain ⟨w, hw, hfw⟩ := footprints_sub s f hf
    exact huntouched w hw (touchesRange_iff.2 ⟨f, hfw, hr⟩)
  case runs =>
    obtain ⟨f, hfw, hr⟩ := touchesRange_iff.1 htouch
    have hf : f ∈ (footprint w).toList := by simp [hfw]
    refine races_iff_reached.2 ⟨f, ?_, hr⟩
    rcases hruns with he | ⟨hready, t, h, ht⟩
    · rw [footprints_executing he hq]
      exact List.mem_append_left _ hf
    · have hc := hready.canStart
      obtain rfl : s.head = w := Option.some.inj ((head?_eq_head hready.queue).symm.trans hq)
      rcases engineTurn_begins_or_refuses hc (hready.step_eq ▸ h) with ⟨-, i, hd, hpass⟩ | ⟨hidle, -⟩
      · rw [footprints_canStart hc, footprintsAhead_begins hd hpass]
        exact List.mem_append_left _ hf
      · exact absurd hidle ht
  case refused =>
    have hc := hready.canStart
    rw [noRace_iff, races_iff_reached]
    rintro ⟨f, hf, hr⟩
    rcases engineTurn_begins_or_refuses hc (hready.step_eq ▸ h) with ⟨hbusy, -⟩ | ⟨-, hfail⟩
    · exact hbusy ht
    · rw [footprints_canStart hc, footprintsAhead_refused hfail] at hf
      obtain ⟨w, hw, hfw⟩ := mem_heldFootprints.1 hf
      exact huntouched w hw (touchesRange_iff.2 ⟨f, hfw, hr⟩)
  case held =>
    obtain ⟨f, hfw, hr⟩ := touchesRange_iff.1 htouch
    exact races_iff_reached.2 ⟨f, mem_footprints_of_held hheld hw hfw, hr⟩

end Sys2Proof.Machine

/-! ### The fields of a word

A field read from a word laid out of fields, and a word's own fields laid out again. Every format of
spec/30_encoding.md R73 is an or of fields, so what holds of one field holds of the formats. -/

namespace Sys2Proof

section
variable {n : Nat} (v : BitVec n)

theorem getLsbD_field (w : Word) (lo len i : Nat) :
    (field w lo len).getLsbD i = (decide (i < len) && w.getLsbD (lo + i)) :=
  BitVec.getLsbD_extractLsb' ..

theorem getLsbD_atBit (lo i : Nat) :
    (atBit v lo).getLsbD i = (decide (lo ≤ i ∧ i < 32) && v.getLsbD (i - lo)) := by
  rw [atBit, BitVec.getLsbD_shiftLeft, BitVec.getLsbD_setWidth]
  by_cases h : lo ≤ i ∧ i < 32
  · obtain ⟨hlo, hi⟩ := h
    simp [hlo, hi, show i - lo < 32 by omega]
  · rcases not_and_or.1 h with hlo | hi
    · simp [hlo, Nat.lt_of_not_le hlo]
    · simp [hi]

@[simp] theorem atBit_zero (lo : Nat) : atBit 0#n lo = 0#32 := by simp [atBit]

theorem field_or (u w : Word) (lo len : Nat) : field (u ||| w) lo len = field u lo len ||| field w lo len := by
  ext i hi
  simp [field]

/-- A laid field reads back. -/
theorem field_atBit_same {lo : Nat} (h : lo + n ≤ 32) : field (atBit v lo) lo n = v := by
  refine BitVec.eq_of_getLsbD_eq fun i hi => ?_
  rw [getLsbD_field, getLsbD_atBit]
  simp [hi, show lo + i < 32 by omega]

/-- A field laid elsewhere reads as zero. -/
theorem field_atBit_disjoint {lo lo' len : Nat} (h : lo' + len ≤ lo ∨ lo + n ≤ lo') :
    field (atBit v lo) lo' len = 0 := by
  refine BitVec.eq_of_getLsbD_eq fun i hi => ?_
  rw [getLsbD_field, getLsbD_atBit]
  rcases h with hbelow | habove
  · simp [show ¬lo ≤ lo' + i by omega]
  · simp [BitVec.getLsbD_of_ge v (lo' + i - lo) (by omega)]

/-- A laid field has no bit of a mask that is zero there. -/
theorem atBit_and_eq_zero {lo : Nat} {mask : Word} (h : field mask lo n = 0) : atBit v lo &&& mask = 0 := by
  refine BitVec.eq_of_getLsbD_eq fun i hi => ?_
  rw [BitVec.getLsbD_and, getLsbD_atBit]
  by_cases hin : lo ≤ i ∧ i - lo < n
  · obtain ⟨hlo, hn⟩ := hin
    have hbit : (field mask lo n).getLsbD (i - lo) = false := by simp [h]
    rw [getLsbD_field, Nat.add_sub_cancel' hlo] at hbit
    simp_all
  · rcases not_and_or.1 hin with hlo | hn
    · simp [hlo]
    · simp [BitVec.getLsbD_of_ge v (i - lo) (Nat.le_of_not_lt hn)]

/-- A field of `w` laid where it was read is `w` under the mask of that field. -/
theorem atBit_field (w : Word) (lo len : Nat) :
    atBit (field w lo len) lo = w &&& atBit (BitVec.allOnes len) lo := by
  refine BitVec.eq_of_getLsbD_eq fun i hi => ?_
  rw [BitVec.getLsbD_and, getLsbD_atBit, getLsbD_atBit, getLsbD_field, BitVec.getLsbD_allOnes]
  by_cases hlo : lo ≤ i
  · simp [hlo, hi, Bool.and_comm]
  · simp [hlo]

end

/-- A word with no bit of a mask is kept by the mask's complement. -/
theorem and_not_of_and_eq_zero {w mask : Word} (h : w &&& mask = 0) : w &&& ~~~mask = w :=
  calc w &&& ~~~mask
    _ = w &&& mask ||| w &&& ~~~mask := by rw [h]; exact BitVec.zero_or.symm
    _ = w := by rw [← BitVec.and_or_distrib_left, BitVec.or_not_self, BitVec.and_allOnes]

theorem toNat_field (w : Word) (lo len : Nat) : (field w lo len).toNat = w.toNat / 2 ^ lo % 2 ^ len := by
  rw [field, BitVec.extractLsb'_toNat, Nat.shiftRight_eq_div_pow]

/-- OP is the five topmost bits of the word. -/
theorem toNat_opcode (w : Word) : (field w 27 5).toNat = w.toNat / 2 ^ 27 := by
  rw [toNat_field, Nat.mod_eq_of_lt]
  omega

@[simp] theorem toFin_regBits (r : Reg) : (regBits r).toFin = r := rfl

@[simp] theorem regBits_regField (w : Word) (lo : Nat) : regBits (regField w lo) = field w lo 4 := rfl

theorem Tag.ofCode_eq_iff (b : BitVec 2) (t : Tag) : Tag.ofCode b = t ↔ b = t.code := by
  revert b
  cases t <;> decide

end Sys2Proof

/-! ### The encoder and the decoder undo each other -/

namespace Sys2Proof

section
variable (w : Word)

/-- A word is the command its fields spell exactly when none of its reserved bits is set and the field values are
legal (spec/30_encoding.md R86). -/
theorem decode_eq_ok_iff (i : Instr) :
    decode w = .ok i ↔ readFields w = some i ∧ w &&& rzmask (field w 27 5).toNat = 0 ∧ i.wellFormed = true := by
  unfold decode
  cases readFields w with
  | none => simp
  | some j =>
    dsimp only
    split_ifs with hbits hwf
    · exact iff_of_false nofun fun ⟨_, hzero, _⟩ => hbits hzero
    · exact ⟨by rintro ⟨⟩; exact ⟨rfl, not_not.1 hbits, hwf⟩, by rintro ⟨⟨⟩, -⟩; rfl⟩
    · exact iff_of_false nofun (by rintro ⟨⟨⟩, -, hlegal⟩; exact hwf hlegal)

/-- A word is refused for its opcode exactly when its fields spell no command. -/
theorem decode_eq_illegalOpcode_iff : decode w = .error .illegalOpcode ↔ readFields w = none := by
  unfold decode
  cases readFields w with
  | none => simp
  | some j => dsimp only; split_ifs <;> simp

/-- A word is refused for a field exactly when its fields spell a command and a reserved bit is set or a field value is
not legal. -/
theorem decode_eq_illegalField_iff :
    decode w = .error .illegalField ↔
      ∃ i, readFields w = some i ∧ (w &&& rzmask (field w 27 5).toNat ≠ 0 ∨ i.wellFormed = false) := by
  unfold decode
  cases readFields w with
  | none => simp
  | some j => dsimp only; split_ifs <;> simp_all

/-- The fields of a word spell no command exactly when its opcode is reserved (spec/30_encoding.md R82). -/
theorem readFields_eq_none_iff : readFields w = none ↔ 13 ≤ w.toNat / 2 ^ 27 := by
  rw [← toNat_opcode]
  unfold readFields
  split
  case h_14 => simp_all; omega
  all_goals simp [*]

end

/-! #### What the formats hold besides OP and the register at [26:23] -/

section
variable (op : BitVec 5) (r ra rb : Reg)

theorem formatR_sources :
    field (formatR op r ra rb) 19 4 = regBits ra ∧ field (formatR op r ra rb) 15 4 = regBits rb := by
  simp [formatR, field_or, field_atBit_same, field_atBit_disjoint]

theorem formatU_source : field (formatU op r ra) 19 4 = regBits ra := by
  simp [formatU, field_or, field_atBit_same, field_atBit_disjoint]

theorem formatS_operands (imm : BitVec 12) :
    field (formatS op r ra imm) 19 4 = regBits ra ∧ field (formatS op r ra imm) 0 12 = imm := by
  simp [formatS, field_or, field_atBit_same, field_atBit_disjoint]

theorem formatC_operands (d : BitVec 4) :
    field (formatC op r ra d) 19 4 = regBits ra ∧ field (formatC op r ra d) 12 4 = d := by
  simp [formatC, field_or, field_atBit_same, field_atBit_disjoint]

theorem formatM_operands (t : BitVec 2) (d : BitVec 4) (addr : BufAddr) :
    field (formatM op r t d addr) 16 2 = t ∧ field (formatM op r t d addr) 12 4 = d ∧
      field (formatM op r t d addr) 0 12 = addr := by
  simp [formatM, field_or, field_atBit_same, field_atBit_disjoint]

end

/-- The fields of an encoded command spell the command, whatever its operands. -/
theorem readFields_encode (i : Instr) : readFields (encode i) = some i := by
  cases i with
  | nop => rfl
  | add | sub | pmul => simp [readFields, encode, Instr.opcode, regField, Laws.formatR_top, formatR_sources]
  | smul => simp [readFields, encode, Instr.opcode, regField, Laws.formatS_top, formatS_operands]
  | ntt | intt => simp [readFields, encode, Instr.opcode, regField, Laws.formatU_top, formatU_source]
  | sampu => simp [readFields, encode, Instr.opcode, regField, Laws.formatZ_top]
  | cmpr | dcmp => simp [readFields, encode, Instr.opcode, regField, Laws.formatC_top, formatC_operands]
  | sampc | enc => simp [readFields, encode, Instr.opcode, regField, Laws.formatM_top, formatM_operands]
  | dec => simp [readFields, encode, Instr.opcode, regField, Laws.formatM_top, formatM_operands, Tag.ofCode_eq_iff]

theorem opcode_encode (i : Instr) : field (encode i) 27 5 = i.opcode := by
  cases i with
  | nop => exact Laws.EncodesInRow.nop.1
  | add | sub | pmul => exact (Laws.formatR_top ..).1
  | smul => exact (Laws.formatS_top ..).1
  | ntt | intt => exact (Laws.formatU_top ..).1
  | sampu => exact (Laws.formatZ_top ..).1
  | cmpr | dcmp => exact (Laws.formatC_top ..).1
  | sampc | enc | dec => exact (Laws.formatM_top ..).1

/-! #### The reserved bits of the formats

A laid-out format has none of its reserved bits set, and a word's own fields laid out again are the word without
them (spec/30_encoding.md R73, R83). -/

section
variable (op : BitVec 5) (r ra rb : Reg)

theorem formatR_reserved : formatR op r ra rb &&& 0x00007FFF = 0 := by
  simp (disch := decide) [formatR, BitVec.and_or_distrib_right, atBit_and_eq_zero]

theorem formatU_reserved : formatU op r ra &&& 0x0007FFFF = 0 := by
  simp (disch := decide) [formatU, BitVec.and_or_distrib_right, atBit_and_eq_zero]

theorem formatZ_reserved : formatZ op r &&& 0x007FFFFF = 0 := by
  simp (disch := decide) [formatZ, BitVec.and_or_distrib_right, atBit_and_eq_zero]

theorem formatS_reserved (imm : BitVec 12) : formatS op r ra imm &&& 0x0007F000 = 0 := by
  simp (disch := decide) [formatS, BitVec.and_or_distrib_right, atBit_and_eq_zero]

theorem formatC_reserved (d : BitVec 4) : formatC op r ra d &&& 0x00070FFF = 0 := by
  simp (disch := decide) [formatC, BitVec.and_or_distrib_right, atBit_and_eq_zero]

theorem formatM_reserved (t : BitVec 2) (d : BitVec 4) (addr : BufAddr) :
    formatM op r t d addr &&& 0x007C0000 = 0 := by
  simp (disch := decide) [formatM, BitVec.and_or_distrib_right, atBit_and_eq_zero]

/-- Where T is zero, its bits are reserved too (spec/30_encoding.md R77). -/
theorem formatM_zero_reserved (d : BitVec 4) (addr : BufAddr) : formatM op r 0 d addr &&& 0x007F0000 = 0 := by
  simp (disch := decide) [formatM, BitVec.and_or_distrib_right, atBit_and_eq_zero]

end

section
variable (w : Word)

theorem atBit_opcode : atBit (field w 27 5) 27 = w &&& ~~~0x07FFFFFF := atBit_field ..

theorem formatR_fields :
    formatR (field w 27 5) (regField w 23) (regField w 19) (regField w 15) = w &&& ~~~0x00007FFF := by
  simp only [formatR, regBits_regField, atBit_field, ← BitVec.and_or_distrib_left]
  rfl

theorem formatU_fields : formatU (field w 27 5) (regField w 23) (regField w 19) = w &&& ~~~0x0007FFFF := by
  simp only [formatU, regBits_regField, atBit_field, ← BitVec.and_or_distrib_left]
  rfl

theorem formatZ_fields : formatZ (field w 27 5) (regField w 23) = w &&& ~~~0x007FFFFF := by
  simp only [formatZ, regBits_regField, atBit_field, ← BitVec.and_or_distrib_left]
  rfl

theorem formatS_fields :
    formatS (field w 27 5) (regField w 23) (regField w 19) (field w 0 12) = w &&& ~~~0x0007F000 := by
  simp only [formatS, regBits_regField, atBit_field, ← BitVec.and_or_distrib_left]
  rfl

theorem formatC_fields :
    formatC (field w 27 5) (regField w 23) (regField w 19) (field w 12 4) = w &&& ~~~0x00070FFF := by
  simp only [formatC, regBits_regField, atBit_field, ← BitVec.and_or_distrib_left]
  rfl

theorem formatM_fields :
    formatM (field w 27 5) (regField w 23) (field w 16 2) (field w 12 4) (field w 0 12) = w &&& ~~~0x007C0000 := by
  simp only [formatM, regBits_regField, atBit_field, ← BitVec.and_or_distrib_left]
  rfl

theorem formatM_zero_fields :
    formatM (field w 27 5) (regField w 23) 0 (field w 12 4) (field w 0 12) = w &&& ~~~0x007F0000 := by
  simp only [formatM, BitVec.ofNat_eq_ofNat, atBit_zero, BitVec.or_zero, regBits_regField, atBit_field,
    ← BitVec.and_or_distrib_left]
  rfl

end

/-- An encoded command has no reserved bit set (spec/30_encoding.md R83). -/
theorem encode_reserved (i : Instr) : encode i &&& rzmask i.opcode.toNat = 0 := by
  cases i with
  | nop => rfl
  | add | sub | pmul => exact formatR_reserved ..
  | smul => exact formatS_reserved ..
  | ntt | intt => exact formatU_reserved ..
  | sampu => exact formatZ_reserved ..
  | cmpr | dcmp => exact formatC_reserved ..
  | sampc | enc => exact formatM_zero_reserved ..
  | dec => exact formatM_reserved ..

theorem opcode_of_readFields {w : Word} {i : Instr} (h : readFields w = some i) : i.opcode = field w 27 5 := by
  unfold readFields at h
  split at h <;> cases h
  all_goals exact BitVec.eq_of_toNat_eq ‹(field w 27 5).toNat = _›.symm

/-- The command that a word's fields spell is encoded as that word without its reserved bits. -/
theorem encode_of_readFields {w : Word} {i : Instr} (h : readFields w = some i) :
    encode i = w &&& ~~~rzmask (field w 27 5).toNat := by
  have hop := opcode_of_readFields h
  unfold readFields at h
  split at h <;> cases h
  all_goals rw [encode, hop, ‹(field w 27 5).toNat = _›]
  case h_1 => exact atBit_opcode w
  case h_2 | h_3 | h_5 => exact formatR_fields w
  case h_4 => exact formatS_fields w
  case h_6 | h_7 => exact formatU_fields w
  case h_8 => exact formatZ_fields w
  case h_9 | h_12 => exact formatM_zero_fields w
  case h_10 | h_11 => exact formatC_fields w
  case h_13 => rw [← (Tag.ofCode_eq_iff _ _).1 rfl]; exact formatM_fields w

/-- Settles O1: the encoder sets no reserved bit, and the fields of the encoded word spell the command. -/
theorem decodeOfEncode : Obligations.DecodeOfEncode := by
  intro i hwf
  exact (decode_eq_ok_iff _ i).2 ⟨readFields_encode i, by rw [opcode_encode, encode_reserved], hwf⟩

/-- Settles O2: the command of a word encodes as the word without its reserved bits, and an accepted word has none. -/
theorem encodeOfDecode : Obligations.EncodeOfDecode := by
  intro w i h
  obtain ⟨hread, hreserved, hwf⟩ := (decode_eq_ok_iff w i).1 h
  exact ⟨hwf, (encode_of_readFields hread).trans (and_not_of_and_eq_zero hreserved)⟩

/-- Settles O3, by running the decoder on each word. -/
theorem exampleWordsDecode : Obligations.ExampleWordsDecode := by
  unfold Obligations.ExampleWordsDecode
  decide

/-- The D/T pairs DEC refuses, for a T field as it stands in the word (spec/30_encoding.md R77). -/
theorem wellFormed_dec_eq_false_iff (p : Reg) (d : BitVec 4) (t : BitVec 2) (addr : BufAddr) :
    (Instr.dec p d (Tag.ofCode t) addr).wellFormed = false ↔
      ¬(1 ≤ d.toNat ∧ d.toNat ≤ 12) ∨ d.toNat = 12 ∧ t.toNat ≠ 1 ∧ t.toNat ≠ 2 ∨
        d.toNat ≠ 12 ∧ t.toNat ≠ 3 := by
  have hcoef : Tag.ofCode t = .coef ↔ t.toNat = 1 := by rw [Tag.ofCode_eq_iff, ← BitVec.toNat_inj]; rfl
  have hntt : Tag.ofCode t = .ntt ↔ t.toNat = 2 := by rw [Tag.ofCode_eq_iff, ← BitVec.toNat_inj]; rfl
  have hcmpr : Tag.ofCode t = .cmpr ↔ t.toNat = 3 := by rw [Tag.ofCode_eq_iff, ← BitVec.toNat_inj]; rfl
  by_cases h12 : d.toNat = 12
  · simp [Instr.wellFormed, decTagLegal, h12, hcoef, hntt]
  · simp [Instr.wellFormed, decTagLegal, h12, hcmpr]
    omega

end Sys2Proof

/-! ### Words that are no command -/

namespace Sys2Proof.Machine

section
variable {s : State}

/-- The Start of a head that is no command takes the decoder's error (spec/30_encoding.md R86). -/
theorem ReadyToStart.step_of_decode_error {e : DecodeError} (h : ReadyToStart s) (hd : decode s.head = .error e) :
    step s = .next (takeExc (decodeExc e) s) := by
  rw [h.step_eq]
  simp only [engineTurn, h.eng, h.canStart, if_true, hd]

/-- The Start of a head whose fields spell a command, with a reserved bit set or an illegal field value. -/
theorem ReadyToStart.step_illegalField {i : Instr} (h : ReadyToStart s) (hread : readFields s.head = some i)
    (hbad : s.head &&& rzmask (field s.head 27 5).toNat ≠ 0 ∨ i.wellFormed = false) :
    step s = .next (afterError .illegalField s) :=
  h.step_of_decode_error ((decode_eq_illegalField_iff _).2 ⟨i, hread, hbad⟩)

end

/-- Settles O4: the fields of a word with a reserved opcode spell no command. -/
theorem reservedOpcodeRefused : Obligations.ReservedOpcodeRefused := by
  intro s hready hop
  exact hready.step_of_decode_error ((decode_eq_illegalOpcode_iff _).2 ((readFields_eq_none_iff _).2 hop))

/-- Settles O5: the masks of R83 are the decoder's, each under a defined opcode. -/
theorem reservedBitsRefused : Obligations.ReservedBitsRefused := by
  intro s op mask hready hmem hop hbits
  obtain ⟨rfl, hdefined⟩ : mask = rzmask op ∧ op < 13 := by
    have hrow := (List.all_eq_true (p := fun row => decide (row.2 = rzmask row.1 ∧ row.1 < 13))).1 (by decide) _ hmem
    exact of_decide_eq_true hrow
  subst hop
  obtain ⟨i, hread⟩ := Option.ne_none_iff_exists'.1 fun h => Nat.not_le.2 hdefined ((readFields_eq_none_iff _).1 h)
  exact hready.step_illegalField hread (.inl (by rwa [toNat_opcode]))

/-- Settles O6: the illegal field values are those of a command that is not well-formed. -/
theorem illegalFieldValuesRefused : Obligations.IllegalFieldValuesRefused := by
  intro s hready op d t h
  have hop : (field s.head 27 5).toNat = op := toNat_opcode _
  have hd : (field s.head 12 4).toNat = d := toNat_field ..
  have ht : (field s.head 16 2).toNat = t := toNat_field ..
  rcases h with ⟨hcode | hcode, hbad⟩ | ⟨hcode, hbad⟩ | ⟨hcode, hbad⟩ | ⟨hcode, hbad⟩
  all_goals refine hready.step_illegalField (by rw [readFields, hop, hcode]; rfl) (.inr ?_)
  case inr.inr.inl => -- DEC
    rw [wellFormed_dec_eq_false_iff, hd, ht]
    omega
  all_goals simpa [Instr.wellFormed, hd] using hbad

end Sys2Proof.Machine

/-! ### The ring arithmetic commands (spec/40_ring_arith.md) -/

namespace Sys2Proof.Machine

section
variable (s : State) (rest : List (Bool × Exc))

/-- A Start that checks a register source: an EMPTY one is refused (spec/60_exceptions.md R160). -/
theorem startStep_heldCheck (r : Reg) : startStep (heldCheck s.kinds r :: rest) beginExec s =
    if s.p[r].tag = .empty then .next (afterFault .emptyOperand s) else startStep rest beginExec s := by
  have htag : (s.kinds r).tag = s.p[r].tag := rfl
  rw [heldCheck, startStep_cons, htag]
  simp only [decide_eq_true_eq, ne_eq, ite_not]
  rfl

/-- A Start that checks the source tags (R159, R160). -/
theorem startStep_domainCheck (allowed : Bool) : startStep (domainCheck allowed :: rest) beginExec s =
    if allowed then startStep rest beginExec s else .next (afterFault .domainMismatch s) :=
  startStep_cons ..

/-- A Start that checks the width of a compressed source (R160). -/
theorem startStep_widthCheck (r : Reg) (d : BitVec 4) : startStep (widthCheck s.kinds r d :: rest) beginExec s =
    if s.p[r].cw = d then startStep rest beginExec s else .next (afterFault .widthMismatch s) := by
  have hcw : (s.kinds r).cw = s.p[r].cw := rfl
  rw [widthCheck, startStep_cons, hcw]
  simp only [decide_eq_true_eq]
  rfl

end

/-- Settles O9: the checks of each command in their order. -/
theorem startOfRegisterCommands : Obligations.StartOfRegisterCommands := by
  intro s rd ra rb imm d he oneSource twoSources alike
  have hkind : ∀ r, (s.kinds r).tag = s.p[r].tag := fun _ => rfl
  have hbegun : startStep [] beginExec s = .next (begun s) := startStep_nil
  refine ⟨?_, ?_, ?_, ?_, ?_, ?_, ?_, ?_⟩
  all_goals
    rw [exec_idle he (by simp)]
    simp only [startCommand, startChecks, startStep_heldCheck, startStep_domainCheck, startStep_widthCheck, hbegun,
      hkind, oneSource, twoSources, alike, apply_ite Host.Outcome.next, ite_or, Bool.and_eq_true, uncompressed_iff,
      decide_eq_true_eq]

/-- A Complete that writes one register and nothing else but the bookkeeping (R161). -/
theorem wroteRegister_retire_setP (rd : Reg) (v : Poly) (s : State) :
    WroteRegister rd v s (retire (s.setP rd v)) where
  result := setP_get_same s rd v
  others _ hr := setP_get_ne s v hr
  buf _ := rfl
  rng := rfl
  xcnt := rfl
  xofIn := rfl
  completed := ⟨rfl, rfl, rfl, rfl, rfl, rfl, rfl, rfl, rfl, rfl, rfl, rfl⟩

section
variable {s : State} {rd ra rb : Reg} {a b : Coeffs}

/-- A Complete of two sources that hold coefficients writes its result. -/
theorem completeBinary_some {t : Tag} {f : Coeffs → Coeffs → Coeffs} (ha : s.p[ra].coeffs = some a)
    (hb : s.p[rb].coeffs = some b) :
    completeBinary rd ra rb t f s = .next (retire (s.setP rd (.make t 0 (f a b)))) := by
  rw [completeBinary, withSource_some ha, withSource_some hb]

end

/-- The uncompressed contents hold their coefficients, and are written back under their own tag. -/
theorem uncompressed_content {tagged : Coeffs → Poly} (h : tagged = .coef ∨ tagged = .ntt) (a : Coeffs) :
    (tagged a).coeffs = some a ∧ ∀ c, Poly.make (tagged a).tag 0 c = tagged c := by
  rcases h with rfl | rfl <;> exact ⟨rfl, fun _ => rfl⟩

/-! The coefficients that each command writes; every one is below Q, and so is not narrowed. -/

section
variable (a b : Coeffs) {i : Nat}

theorem coeffAt_addCoeffs (hi : i < 256) : coeffAt (addCoeffs a b) i = addQ (coeffAt a i) (coeffAt b i) :=
  coeffAt_coeffsOfFn_of_lt hi ((addQ_lt _ _).trans (by decide))

theorem coeffAt_subCoeffs (hi : i < 256) : coeffAt (subCoeffs a b) i = subQ (coeffAt a i) (coeffAt b i) :=
  coeffAt_coeffsOfFn_of_lt hi ((subQ_lt _ _).trans (by decide))

theorem coeffAt_scaleCoeffs (n : Nat) (hi : i < 256) : coeffAt (scaleCoeffs a n) i = mulQ (coeffAt a i) n :=
  coeffAt_coeffsOfFn_of_lt hi ((mulQ_lt _ _).trans (by decide))

/-- The first coefficient of pair i of a product (R97). -/
theorem coeffAt_mulPairs_even (hi : i < 128) : coeffAt (mulPairs a b) (2 * i) =
    (coeffAt a (2 * i) * coeffAt b (2 * i) + gammas i * coeffAt a (2 * i + 1) * coeffAt b (2 * i + 1)) %
      Config.modulus := by
  rw [mulPairs, coeffAt_coeffsOfFn _ (by omega)]
  have hpair : 2 * i / 2 = i := by omega
  have heven : 2 * i % 2 = 0 := by omega
  simp only [hpair, heven, if_true]
  exact Nat.mod_eq_of_lt ((Nat.mod_lt _ (by decide)).trans (by decide))

/-- The second coefficient of pair i of a product (R97). -/
theorem coeffAt_mulPairs_odd (hi : i < 128) : coeffAt (mulPairs a b) (2 * i + 1) =
    (coeffAt a (2 * i) * coeffAt b (2 * i + 1) + coeffAt a (2 * i + 1) * coeffAt b (2 * i)) % Config.modulus := by
  rw [mulPairs, coeffAt_coeffsOfFn _ (by omega)]
  have hpair : (2 * i + 1) / 2 = i := by omega
  have hodd : (2 * i + 1) % 2 ≠ 0 := by omega
  simp only [hpair, hodd, if_false]
  exact Nat.mod_eq_of_lt ((Nat.mod_lt _ (by decide)).trans (by decide))

end

/-- Settles O15, by what the Complete of two sources writes. -/
theorem addCompletes : Obligations.AddCompletes := by
  intro s w rd ra rb tagged a b ht he ha hb
  obtain ⟨hca, hmake⟩ := uncompressed_content ht a
  obtain ⟨hcb, -⟩ := uncompressed_content ht b
  refine ⟨_, addCoeffs a b, ?_, fun i hi => coeffAt_addCoeffs a b hi, wroteRegister_retire_setP rd _ s⟩
  simp only [exec, execAdd, twoPhase_exec he]
  rw [completeBinary_some (ha ▸ hca) (hb ▸ hcb), ha, hmake]

/-- Settles O16, by what the Complete of two sources writes. -/
theorem subCompletes : Obligations.SubCompletes := by
  intro s w rd ra rb tagged a b ht he ha hb
  obtain ⟨hca, hmake⟩ := uncompressed_content ht a
  obtain ⟨hcb, -⟩ := uncompressed_content ht b
  refine ⟨_, subCoeffs a b, ?_, fun i hi => ?_, wroteRegister_retire_setP rd _ s⟩
  · simp only [exec, execSub, twoPhase_exec he]
    rw [completeBinary_some (ha ▸ hca) (hb ▸ hcb), ha, hmake]
  · rw [coeffAt_subCoeffs a b hi]
    exact Int.toNat_of_nonneg (Int.emod_nonneg _ (by decide))

/-- Settles O17, by what the Complete of one source writes. -/
theorem smulCompletes : Obligations.SmulCompletes := by
  intro s w rd ra imm tagged a ht he ha
  obtain ⟨hca, hmake⟩ := uncompressed_content ht a
  refine ⟨_, scaleCoeffs a imm.toNat, ?_, fun i hi => coeffAt_scaleCoeffs a _ hi, wroteRegister_retire_setP rd _ s⟩
  simp only [exec, execSmul, twoPhase_exec he]
  rw [withSource_some (ha ▸ hca), ha, hmake]

/-- Settles O18, by what the Complete of two sources writes, pair by pair. -/
theorem pmulCompletes : Obligations.PmulCompletes := by
  intro s w rd ra rb a b he ha hb
  refine ⟨_, mulPairs a b, ?_, fun i hi => ⟨coeffAt_mulPairs_even a b hi, coeffAt_mulPairs_odd a b hi⟩,
    wroteRegister_retire_setP rd _ s⟩
  simp only [exec, execPmul, twoPhase_exec he]
  exact completeBinary_some (by rw [ha]; rfl) (by rw [hb]; rfl)

/-- Settles O14, by the two phases of a command with no check and no result. -/
theorem nopCompletes : Obligations.NopCompletes := by
  refine ⟨fun s he => ?_, fun s w he => ?_⟩
  · rw [exec_idle he (by simp)]
    exact startStep_nil
  · simp only [exec, execNop, twoPhase_exec he]
    rfl

end Sys2Proof.Machine

/-! ### Coefficients as residues modulo Q

Every value that a Complete of ring arithmetic writes is below Q, so an equation between two such values is one in the
integers modulo Q (spec/40_ring_arith.md R91). -/

namespace Sys2Proof.Machine

/-- The integers modulo Q. -/
abbrev Zq := ZMod Config.modulus

/-- Values below Q are the same when they are the same modulo Q. -/
theorem eq_of_natCast_eq {m n : Nat} (hm : m < Config.modulus) (hn : n < Config.modulus) (h : (m : Zq) = n) :
    m = n :=
  Nat.ModEq.eq_of_lt_of_lt ((ZMod.natCast_eq_natCast_iff _ _ _).1 h) hm hn

@[simp] theorem natCast_addQ (a b : Nat) : (addQ a b : Zq) = a + b := by
  rw [addQ, ZMod.natCast_mod, Nat.cast_add]

@[simp] theorem natCast_mulQ (a b : Nat) : (mulQ a b : Zq) = a * b := by
  rw [mulQ, ZMod.natCast_mod, Nat.cast_mul]

@[simp] theorem natCast_subQ (a b : Nat) : (subQ a b : Zq) = a - b := by
  have hnonneg : ((subQ a b : Nat) : Int) = ((a : Int) - b) % Config.modulus :=
    Int.toNat_of_nonneg (Int.emod_nonneg _ (by decide))
  rw [← Int.cast_natCast, hnonneg, ZMod.intCast_mod, Int.cast_sub, Int.cast_natCast, Int.cast_natCast]

section
variable (a b : Coeffs) {i : Nat}

theorem natCast_addCoeffs (hi : i < 256) :
    (coeffAt (addCoeffs a b) i : Zq) = coeffAt a i + coeffAt b i := by
  rw [coeffAt_addCoeffs a b hi, natCast_addQ]

theorem natCast_subCoeffs (hi : i < 256) :
    (coeffAt (subCoeffs a b) i : Zq) = coeffAt a i - coeffAt b i := by
  rw [coeffAt_subCoeffs a b hi, natCast_subQ]

theorem natCast_scaleCoeffs (n : Nat) (hi : i < 256) : (coeffAt (scaleCoeffs a n) i : Zq) = coeffAt a i * n := by
  rw [coeffAt_scaleCoeffs a n hi, natCast_mulQ]

theorem natCast_mulPairs_even (hi : i < 128) : (coeffAt (mulPairs a b) (2 * i) : Zq) =
    coeffAt a (2 * i) * coeffAt b (2 * i) + gammas i * coeffAt a (2 * i + 1) * coeffAt b (2 * i + 1) := by
  rw [coeffAt_mulPairs_even a b hi, ZMod.natCast_mod]
  push_cast
  rfl

theorem natCast_mulPairs_odd (hi : i < 128) : (coeffAt (mulPairs a b) (2 * i + 1) : Zq) =
    coeffAt a (2 * i) * coeffAt b (2 * i + 1) + coeffAt a (2 * i + 1) * coeffAt b (2 * i) := by
  rw [coeffAt_mulPairs_odd a b hi, ZMod.natCast_mod]
  push_cast
  rfl

theorem below_addCoeffs : Below Config.modulus (addCoeffs a b) := below_coeffsOfFn fun _ _ => addQ_lt _ _

theorem below_subCoeffs : Below Config.modulus (subCoeffs a b) := below_coeffsOfFn fun _ _ => subQ_lt _ _

theorem below_scaleCoeffs (n : Nat) : Below Config.modulus (scaleCoeffs a n) := below_coeffsOfFn fun _ _ => mulQ_lt _ _

end

section
variable {a b : Coeffs} (ha : Below Config.modulus a) (hb : Below Config.modulus b)
include ha hb

/-- Polynomials below Q with the same coefficients modulo Q are the same. -/
theorem Below.ext (h : ∀ i, i < 256 → (coeffAt a i : Zq) = coeffAt b i) : a = b :=
  coeffs_ext fun i hi => eq_of_natCast_eq (ha i hi) (hb i hi) (h i hi)

/-- Polynomials below Q with the same pairs of coefficients modulo Q are the same. -/
theorem Below.ext_pairs (h : ∀ i, i < 128 → (coeffAt a (2 * i) : Zq) = coeffAt b (2 * i) ∧
    (coeffAt a (2 * i + 1) : Zq) = coeffAt b (2 * i + 1)) : a = b := by
  refine ha.ext hb fun n hn => ?_
  obtain ⟨i, rfl | rfl⟩ := Nat.even_or_odd' n
  · exact (h i (by omega)).1
  · exact (h i (by omega)).2

end

theorem addCoeffs_comm (a b : Coeffs) : addCoeffs a b = addCoeffs b a :=
  (below_addCoeffs a b).ext (below_addCoeffs b a) fun i hi => by
    rw [natCast_addCoeffs a b hi, natCast_addCoeffs b a hi, add_comm]

theorem subCoeffs_addCoeffs_cancel {a : Coeffs} (b : Coeffs) (ha : Below Config.modulus a) :
    subCoeffs (addCoeffs a b) b = a :=
  (below_subCoeffs _ b).ext ha fun i hi => by
    rw [natCast_subCoeffs _ b hi, natCast_addCoeffs a b hi, add_sub_cancel_right]

theorem scaleCoeffs_scaleCoeffs (a : Coeffs) (m n : Nat) :
    scaleCoeffs (scaleCoeffs a m) n = scaleCoeffs a (m * n % Config.modulus) :=
  (below_scaleCoeffs _ n).ext (below_scaleCoeffs a _) fun i hi => by
    rw [natCast_scaleCoeffs _ n hi, natCast_scaleCoeffs a m hi, natCast_scaleCoeffs a _ hi, ZMod.natCast_mod,
      Nat.cast_mul, mul_assoc]

theorem mulPairs_comm (a b : Coeffs) : mulPairs a b = mulPairs b a :=
  (below_mulPairs a b).ext_pairs (below_mulPairs b a) fun i hi => by
    rw [natCast_mulPairs_even a b hi, natCast_mulPairs_even b a hi, natCast_mulPairs_odd a b hi,
      natCast_mulPairs_odd b a hi]
    constructor <;> ring

theorem mulPairs_addCoeffs (a b c : Coeffs) :
    mulPairs a (addCoeffs b c) = addCoeffs (mulPairs a b) (mulPairs a c) :=
  (below_mulPairs a _).ext_pairs (below_addCoeffs _ _) fun i hi => by
    have heven : 2 * i < 256 := by omega
    have hodd : 2 * i + 1 < 256 := by omega
    simp only [natCast_mulPairs_even _ _ hi, natCast_mulPairs_odd _ _ hi, natCast_addCoeffs _ _ heven,
      natCast_addCoeffs _ _ hodd]
    constructor <;> ring

/-- Settles O55, law by law. -/
theorem ringLaws : Obligations.RingLaws := fun a b c ha =>
  ⟨addCoeffs_comm a b, mulPairs_comm a b, subCoeffs_addCoeffs_cancel b ha, scaleCoeffs_scaleCoeffs a,
    mulPairs_addCoeffs a b c⟩

end Sys2Proof.Machine

/-! ### One level of a transform, coefficient by coefficient

A group of a level is a run of butterflies on the two halves of a block (spec/41_ntt.md R105, R109; log 13). -/

namespace Sys2Proof.Machine

/-- The butterflies of one group on the block of length 2·len at the front of `f`: `u` of each pair to the lower half,
`v` to the upper. -/
def butterflies (u v : Nat → Nat → Nat) (len : Nat) (f : List Nat) : List Nat :=
  List.zipWith u (f.take len) ((f.drop len).take len) ++ List.zipWith v (f.take len) ((f.drop len).take len)

section
variable {u v : Nat → Nat → Nat} {len : Nat} {f : List Nat} (hf : 2 * len ≤ f.length)
include hf

theorem butterflies_length : (butterflies u v len f).length = 2 * len := by
  simp only [butterflies, List.length_append, List.length_zipWith, List.length_take, List.length_drop]
  omega

/-- Entry i of an operation on the two halves of a block. -/
theorem zipWith_halves_getD {i : Nat} (hi : i < len) :
    (List.zipWith u (f.take len) ((f.drop len).take len)).getD i 0 = u (f.getD i 0) (f.getD (len + i) 0) := by
  rw [List.getD_eq_getElem _ _ (by simp; omega), List.getD_eq_getElem _ _ (by omega),
    List.getD_eq_getElem _ _ (by omega)]
  simp

theorem butterflies_append_getD_lower (rest : List Nat) {i : Nat} (hi : i < len) :
    (butterflies u v len f ++ rest).getD i 0 = u (f.getD i 0) (f.getD (len + i) 0) := by
  rw [List.getD_append _ _ _ _ (by rw [butterflies_length hf]; omega), butterflies,
    List.getD_append _ _ _ _ (by simp; omega), zipWith_halves_getD hf hi]

theorem butterflies_append_getD_upper (rest : List Nat) {i : Nat} (hi : i < len) :
    (butterflies u v len f ++ rest).getD (len + i) 0 = v (f.getD i 0) (f.getD (len + i) 0) := by
  have hhalf : (List.zipWith u (f.take len) ((f.drop len).take len)).length = len := by simp; omega
  rw [List.getD_append _ _ _ _ (by rw [butterflies_length hf]; omega), butterflies,
    List.getD_append_right _ _ _ _ (by omega), hhalf, Nat.add_sub_cancel_left, zipWith_halves_getD hf hi]

theorem butterflies_append_getD_rest (rest : List Nat) (n : Nat) :
    (butterflies u v len f ++ rest).getD (2 * len + n) 0 = rest.getD n 0 := by
  rw [List.getD_append_right _ _ _ _ (by rw [butterflies_length hf]; omega), butterflies_length hf,
    Nat.add_sub_cancel_left]

end

theorem getD_drop (f : List Nat) (m n : Nat) : (f.drop m).getD n 0 = f.getD (m + n) 0 := by
  simp [List.getD]

/-- The groups of one level on the blocks of `f` in turn, group m at the front: group j applies `u j` and `v j`. -/
def networkLevel (u v : Nat → Nat → Nat → Nat) (len : Nat) : (groups m : Nat) → List Nat → List Nat
  | 0, _, f => f
  | groups + 1, m, f => butterflies (u m) (v m) len f ++ networkLevel u v len groups (m + 1) (f.drop (2 * len))

/-- Group j of a forward level has twiddle ZETAS[k + j] (R104, R105). -/
theorem forwardLevel_eq (len groups k m : Nat) (f : List Nat) : forwardLevel len groups (k + m) f =
    networkLevel (fun j x y => addQ x (mulQ (zetas (k + j)) y)) (fun j x y => subQ x (mulQ (zetas (k + j)) y))
      len groups m f := by
  induction groups generalizing m f with
  | zero => rfl
  | succ groups ih => rw [networkLevel, ← ih]; rfl

/-- Group j of an inverse level has twiddle ZETAS[k - j] (R107, R109). -/
theorem inverseLevel_eq (len groups k m : Nat) (f : List Nat) : inverseLevel len groups (k - m) f =
    networkLevel (fun _ => addQ) (fun j x y => mulQ (zetas (k - j)) (subQ y x)) len groups m f := by
  induction groups generalizing m f with
  | zero => rfl
  | succ groups ih => rw [networkLevel, ← ih]; rfl

/-- Each group of a level works on its own block and on no other. -/
theorem networkLevel_getD {u v : Nat → Nat → Nat → Nat} {len groups : Nat} (m : Nat) {f : List Nat}
    (hf : 2 * len * groups ≤ f.length) {i j : Nat} (hj : j < groups) (hi : i < len) :
    let x := f.getD (2 * len * j + i) 0
    let y := f.getD (2 * len * j + (len + i)) 0
    (networkLevel u v len groups m f).getD (2 * len * j + i) 0 = u (m + j) x y ∧
      (networkLevel u v len groups m f).getD (2 * len * j + (len + i)) 0 = v (m + j) x y := by
  induction groups generalizing m f j with
  | zero => exact absurd hj (Nat.not_lt_zero j)
  | succ groups ih =>
    rw [Nat.mul_succ] at hf
    have hblock : 2 * len ≤ f.length := by omega
    rw [networkLevel]
    cases j with
    | zero =>
      simp only [Nat.mul_zero, Nat.zero_add, Nat.add_zero]
      exact ⟨butterflies_append_getD_lower hblock _ hi, butterflies_append_getD_upper hblock _ hi⟩
    | succ j =>
      have hnext (n : Nat) : 2 * len * (j + 1) + n = 2 * len + (2 * len * j + n) := by ring
      have hcount : m + (j + 1) = m + 1 + j := by omega
      have hrest := ih (m + 1) (f := f.drop (2 * len)) (by rw [List.length_drop]; omega) (Nat.lt_of_succ_lt_succ hj)
      simpa only [hnext, hcount, butterflies_append_getD_rest hblock, getD_drop] using hrest

section
variable {len groups : Nat} (k : Nat) {f : List Nat} (hf : 2 * len * groups ≤ f.length) {i j : Nat} (hj : j < groups)
  (hi : i < len)
include hf hj hi

/-- The butterflies of a forward level (R104, R105). -/
theorem forwardLevel_getD :
    let x := f.getD (2 * len * j + i) 0
    let y := f.getD (2 * len * j + (len + i)) 0
    (forwardLevel len groups k f).getD (2 * len * j + i) 0 = addQ x (mulQ (zetas (k + j)) y) ∧
      (forwardLevel len groups k f).getD (2 * len * j + (len + i)) 0 = subQ x (mulQ (zetas (k + j)) y) := by
  have h := networkLevel_getD (u := fun j x y => addQ x (mulQ (zetas (k + j)) y))
    (v := fun j x y => subQ x (mulQ (zetas (k + j)) y)) 0 hf hj hi
  rwa [← forwardLevel_eq, Nat.zero_add] at h

/-- The butterflies of an inverse level (R107, R109). -/
theorem inverseLevel_getD :
    let x := f.getD (2 * len * j + i) 0
    let y := f.getD (2 * len * j + (len + i)) 0
    (inverseLevel len groups k f).getD (2 * len * j + i) 0 = addQ x y ∧
      (inverseLevel len groups k f).getD (2 * len * j + (len + i)) 0 = mulQ (zetas (k - j)) (subQ y x) := by
  have h := networkLevel_getD (u := fun _ => addQ) (v := fun j x y => mulQ (zetas (k - j)) (subQ y x)) 0 hf hj hi
  rwa [← inverseLevel_eq, Nat.zero_add] at h

end

end Sys2Proof.Machine

/-! ### The transforms on polynomials modulo Q

Level by level, a forward transform keeps the residues of one polynomial modulo the moduli X^len - r of its blocks, and
an inverse transform merges such residues (spec/41_ntt.md R106, R108). The blocks are numbered as the nodes of a binary
tree, whose root 1 stands for X^256 + 1 and whose node k has the children 2k and 2k + 1; block k is split with the
twiddle ZETAS[k], and merged with its inverse. PMUL multiplies the residues of the leaves (spec/40_ring_arith.md R97,
R99). -/

namespace Sys2Proof.Machine

open Polynomial

section
variable (f : Nat → Zq) (start len : Nat)

/-- The polynomial with the coefficients `f start`, `f (start + 1)`, …, `len` of them. -/
noncomputable def blockPoly : Zq[X] := ∑ i ∈ Finset.range len, C (f (start + i)) * X ^ i

theorem coeff_blockPoly (n : Nat) : (blockPoly f start len).coeff n = if n < len then f (start + n) else 0 := by
  simp [blockPoly, coeff_X_pow]

/-- A block is its two parts, the second times a power of X. -/
theorem blockPoly_append (len' : Nat) : blockPoly f start (len + len') =
    blockPoly f start len + X ^ len * blockPoly f (start + len) len' := by
  simp only [blockPoly, Finset.sum_range_add, Finset.mul_sum, pow_add, Nat.add_assoc, mul_left_comm (X ^ len)]

end

section
variable {P lo hi : Zq[X]} {n : Nat} {z z' : Zq}

/-- A residue modulo X^2n - z^2 gives the residue modulo X^n - z, where X^n is z. -/
theorem split_residue (h : X ^ (2 * n) - C (z ^ 2) ∣ P - (lo + X ^ n * hi)) :
    X ^ n - C z ∣ P - (lo + C z * hi) := by
  have hfactor : X ^ n - C z ∣ X ^ (2 * n) - C (z ^ 2) := ⟨X ^ n + C z, by rw [C_pow]; ring⟩
  have hrest : X ^ n - C z ∣ (X ^ n - C z) * hi := dvd_mul_right _ _
  have hsum : P - (lo + C z * hi) = P - (lo + X ^ n * hi) + (X ^ n - C z) * hi := by ring
  rw [hsum]
  exact dvd_add (hfactor.trans h) hrest

/-- The residues modulo X^n - z and X^n + z give that of the double modulo X^2n - z^2, where z' is -1/z. -/
theorem merge_residues (hz : z * z' = -1) (hlo : X ^ n - C z ∣ P - lo) (hhi : X ^ n - C (-z) ∣ P - hi) :
    X ^ (2 * n) - C (z ^ 2) ∣ 2 * P - (lo + hi + X ^ n * (C z' * (hi - lo))) := by
  obtain ⟨A, hA⟩ := hlo
  obtain ⟨B, hB⟩ := hhi
  have hC : C z * C z' = -1 := by rw [← C_mul, hz, C_neg, C_1]
  rw [C_neg] at hB
  refine ⟨C z' * (B - A), ?_⟩
  rw [C_pow]
  linear_combination (1 - X ^ n * C z') * hA + (1 + X ^ n * C z') * hB +
    (A * (X ^ n - C z) + B * (X ^ n + C z)) * hC

end

/-! The moduli of the blocks. -/

/-- The root of block k: its modulus is X^len - blockRoot k. -/
def blockRoot (k : Nat) : Zq := (-1) ^ k * zetas (k / 2)

theorem blockRoot_one : blockRoot 1 = -1 := by decide

theorem X_pow_sub_C_blockRoot_one (n : Nat) : X ^ n - C (blockRoot 1) = X ^ n + 1 := by
  rw [blockRoot_one, C_neg, C_1, sub_neg_eq_add]

theorem blockRoot_even (k : Nat) : blockRoot (2 * k) = zetas k := by
  simp [blockRoot]

theorem blockRoot_odd (k : Nat) : blockRoot (2 * k + 1) = -zetas k := by
  have hhalf : (2 * k + 1) / 2 = k := by omega
  simp [blockRoot, hhalf, pow_succ]

/-- The twiddle of a block is a square root of its root (spec/41_ntt.md R113). -/
theorem zetas_sq {k : Nat} (hk : k < 128) : (zetas k : Zq) ^ 2 = blockRoot k := by
  revert k; decide

/-- The two GAMMAS of a last twiddle are it and its negative (spec/41_ntt.md R113). -/
theorem gammas_pair : ∀ m, m < 64 → gammas (2 * m) = zetas (64 + m) ∧
    gammas (2 * m + 1) + zetas (64 + m) = Config.modulus := by decide

/-- The roots of the last blocks are GAMMAS (spec/10_state.md R26). -/
theorem natCast_gammas {i : Nat} (hi : i < 128) : (gammas i : Zq) = blockRoot (128 + i) := by
  obtain ⟨m, rfl | rfl⟩ := Nat.even_or_odd' i
  · obtain ⟨heven, -⟩ := gammas_pair m (by omega)
    rw [heven, show 128 + 2 * m = 2 * (64 + m) by ring, blockRoot_even]
  · obtain ⟨-, hodd⟩ := gammas_pair m (by omega)
    rw [show 128 + (2 * m + 1) = 2 * (64 + m) + 1 by ring, blockRoot_odd, eq_neg_iff_add_eq_zero, ← Nat.cast_add,
      hodd]
    exact ZMod.natCast_self _

/-- A level of 2^d blocks is merged with the inverses, negated, of the twiddles that it was split with (R107). -/
theorem zetas_mul_mirror : ∀ d, d < 7 → ∀ j, j < 2 ^ d →
    (zetas (2 ^ d + j) * zetas (2 * 2 ^ d - 1 - j) : Zq) = -1 := by decide

/-! The levels. -/

/-- Entry i of a sequence of values, modulo Q. -/
def entry (f : List Nat) (i : Nat) : Zq := f.getD i 0

section
variable {len groups : Nat} (k : Nat) {f : List Nat} (hf : 2 * len * groups ≤ f.length) {j : Nat} (hj : j < groups)
include hf hj

/-- A forward level reduces each block modulo X^len - z and X^len + z. -/
theorem blockPoly_forwardLevel :
    let lo := blockPoly (entry f) (2 * len * j) len
    let hi := blockPoly (entry f) (2 * len * j + len) len
    blockPoly (entry (forwardLevel len groups k f)) (2 * len * j) len = lo + C (zetas (k + j) : Zq) * hi ∧
      blockPoly (entry (forwardLevel len groups k f)) (2 * len * j + len) len =
        lo + C (-zetas (k + j) : Zq) * hi := by
  constructor <;> ext i <;> simp only [coeff_add, coeff_C_mul, coeff_blockPoly, Nat.add_assoc _ len] <;> split
  · next hlt => simp only [entry, (forwardLevel_getD k hf hj hlt).1, natCast_addQ, natCast_mulQ]
  · ring
  · next hlt =>
    simp only [entry, (forwardLevel_getD k hf hj hlt).2, natCast_subQ, natCast_mulQ]
    ring
  · ring

/-- An inverse level adds and subtracts the two halves of each block. -/
theorem blockPoly_inverseLevel :
    let lo := blockPoly (entry f) (2 * len * j) len
    let hi := blockPoly (entry f) (2 * len * j + len) len
    blockPoly (entry (inverseLevel len groups k f)) (2 * len * j) len = lo + hi ∧
      blockPoly (entry (inverseLevel len groups k f)) (2 * len * j + len) len =
        C (zetas (k - j) : Zq) * (hi - lo) := by
  constructor <;> ext i <;>
    simp only [coeff_add, coeff_sub, coeff_C_mul, coeff_blockPoly, Nat.add_assoc _ len] <;> split
  · next hlt => simp only [entry, (inverseLevel_getD k hf hj hlt).1, natCast_addQ]
  · ring
  · next hlt => simp only [entry, (inverseLevel_getD k hf hj hlt).2, natCast_subQ, natCast_mulQ]
  · ring

end

/-- The blocks k, k + 1, … of length `len`, `groups` of them, that fill `f` hold the residues of `P`. -/
structure Residues (P : Zq[X]) (len groups k : Nat) (f : List Nat) : Prop where
  length : f.length = len * groups
  block : ∀ j, j < groups → X ^ len - C (blockRoot (k + j)) ∣ P - blockPoly (entry f) (len * j) len

section
variable {P : Zq[X]} {len groups k : Nat} {f : List Nat}

/-- A forward level splits each block into its two children. -/
theorem Residues.forwardLevel (h : Residues P (2 * len) groups k f) (hk : k + groups ≤ 128) :
    Residues P len (2 * groups) (2 * k) (forwardLevel len groups k f) where
  length := by rw [forwardLevel_length _ _ _ _ h.length.ge, h.length]; ring
  block n hn := by
    obtain ⟨j, hj, hchild⟩ : ∃ j, j < groups ∧ (n = 2 * j ∨ n = 2 * j + 1) := ⟨n / 2, by omega, by omega⟩
    obtain ⟨hlower, hupper⟩ := blockPoly_forwardLevel k h.length.ge hj
    have hparent := h.block j hj
    rw [two_mul len, blockPoly_append, ← two_mul len, ← zetas_sq (by omega)] at hparent
    rcases hchild with rfl | rfl
    · rw [← mul_add, blockRoot_even, show len * (2 * j) = 2 * len * j by ring, hlower]
      exact split_residue hparent
    · rw [← Nat.add_assoc, ← mul_add, blockRoot_odd, show len * (2 * j + 1) = 2 * len * j + len by ring, hupper]
      exact split_residue (by rwa [neg_sq])

/-- An inverse level merges the two children of each block, and doubles. -/
theorem Residues.inverseLevel {k' : Nat} (h : Residues P len (2 * groups) (2 * k) f) (hk : k + groups ≤ 128)
    (hz : ∀ j, j < groups → (zetas (k + j) * zetas (k' - j) : Zq) = -1) :
    Residues (2 * P) (2 * len) groups k (inverseLevel len groups k' f) where
  length := by
    have hlength : f.length = 2 * len * groups := by rw [h.length]; ring
    rw [inverseLevel_length _ _ _ _ hlength.ge, hlength]
  block j hj := by
    have hlength : f.length = 2 * len * groups := by rw [h.length]; ring
    obtain ⟨hlower, hupper⟩ := blockPoly_inverseLevel k' hlength.ge hj
    have hlo := h.block (2 * j) (by omega)
    have hhi := h.block (2 * j + 1) (by omega)
    rw [← mul_add, blockRoot_even, show len * (2 * j) = 2 * len * j by ring] at hlo
    rw [← Nat.add_assoc, ← mul_add, blockRoot_odd, show len * (2 * j + 1) = 2 * len * j + len by ring] at hhi
    rw [two_mul len, blockPoly_append, ← two_mul len, ← zetas_sq (by omega), hlower, hupper]
    exact merge_residues (hz j hj) hlo hhi

end

/-- The forward transform gives the residues of its argument modulo the 128 polynomials X^2 - GAMMAS[i]. -/
theorem Residues.forwardNtt {P : Zq[X]} {f : List Nat} (h : Residues P 256 1 1 f) :
    Residues P 2 128 128 (forwardNtt f) :=
  let h2 := h.forwardLevel (len := 128) (by decide)
  let h4 := h2.forwardLevel (len := 64) (by decide)
  let h8 := h4.forwardLevel (len := 32) (by decide)
  let h16 := h8.forwardLevel (len := 16) (by decide)
  let h32 := h16.forwardLevel (len := 8) (by decide)
  let h64 := h32.forwardLevel (len := 4) (by decide)
  h64.forwardLevel (len := 2) (by decide)

/-- The levels of the inverse transform merge these residues to 128 times the polynomial, modulo X^256 + 1. -/
theorem Residues.inverseLevels {P : Zq[X]} {f : List Nat} (h : Residues P 2 128 128 f) :
    Residues (2 * (2 * (2 * (2 * (2 * (2 * (2 * P))))))) 256 1 1
      (inverseLevels [2, 4, 8, 16, 32, 64, 128] 127 f) :=
  let h4 := h.inverseLevel (groups := 64) (k := 64) (by decide) (zetas_mul_mirror 6 (by decide))
  let h8 := h4.inverseLevel (groups := 32) (k := 32) (by decide) (zetas_mul_mirror 5 (by decide))
  let h16 := h8.inverseLevel (groups := 16) (k := 16) (by decide) (zetas_mul_mirror 4 (by decide))
  let h32 := h16.inverseLevel (groups := 8) (k := 8) (by decide) (zetas_mul_mirror 3 (by decide))
  let h64 := h32.inverseLevel (groups := 4) (k := 4) (by decide) (zetas_mul_mirror 2 (by decide))
  let h128 := h64.inverseLevel (groups := 2) (k := 2) (by decide) (zetas_mul_mirror 1 (by decide))
  h128.inverseLevel (groups := 1) (k := 1) (by decide) (zetas_mul_mirror 0 (by decide))

/-! The commands' functions. -/

/-- The polynomial of 256 coefficients. -/
noncomputable def coeffPoly (a : Coeffs) : Zq[X] := blockPoly (entry (coeffNats a)) 0 256

theorem entry_coeffNats (a : Coeffs) {i : Nat} (hi : i < 256) : entry (coeffNats a) i = coeffAt a i := by
  rw [entry, coeffNats_getD a hi]

/-- NTT gives the residues of its argument modulo the 128 polynomials X^2 - GAMMAS[i]. -/
theorem residues_nttCoeffs {a : Coeffs} (ha : Below Config.modulus a) :
    Residues (coeffPoly a) 2 128 128 (coeffNats (nttCoeffs a)) := by
  have hwhole : Residues (coeffPoly a) 256 1 1 (coeffNats a) := by
    refine ⟨coeffNats_length a, fun j hj => ?_⟩
    obtain rfl : j = 0 := by omega
    simp [coeffPoly]
  have hntt := hwhole.forwardNtt
  have hsmall : ∀ x ∈ forwardNtt (coeffNats a), x < 2 ^ 12 := fun x hx =>
    (forwardLevels_lt _ _ _ (coeffNats_lt ha) x hx).trans (by decide)
  rwa [nttCoeffs, coeffNats_coeffsOfNats hntt.length hsmall]

/-- PMUL multiplies residues modulo the 128 polynomials X^2 - GAMMAS[i]. -/
theorem Residues.mulPairs {P R : Zq[X]} {a b : Coeffs} (ha : Residues P 2 128 128 (coeffNats a))
    (hb : Residues R 2 128 128 (coeffNats b)) : Residues (P * R) 2 128 128 (coeffNats (mulPairs a b)) where
  length := coeffNats_length _
  block i hi := by
    have hpair (c : Coeffs) : blockPoly (entry (coeffNats c)) (2 * i) 2 =
        C (coeffAt c (2 * i) : Zq) + C (coeffAt c (2 * i + 1) : Zq) * X := by
      rw [← entry_coeffNats c (by omega), ← entry_coeffNats c (by omega)]
      simp [blockPoly, Finset.sum_range_succ]
    have hmul := dvd_mul_sub_mul (ha.block i hi) (hb.block i hi)
    rw [hpair, hpair] at hmul
    rw [hpair, natCast_mulPairs_even a b hi, natCast_mulPairs_odd a b hi, natCast_gammas hi]
    have hreduce (r a0 a1 b0 b1 : Zq) : P * R - (C (a0 * b0 + r * a1 * b1) + C (a0 * b1 + a1 * b0) * X) =
        P * R - (C a0 + C a1 * X) * (C b0 + C b1 * X) + (X ^ 2 - C r) * (C a1 * C b1) := by
      simp only [C_add, C_mul]
      ring
    rw [hreduce]
    exact dvd_add hmul (dvd_mul_right _ _)

theorem getD_map_of_zero {h : Nat → Nat} (h0 : h 0 = 0) (l : List Nat) (i : Nat) :
    (l.map h).getD i 0 = h (l.getD i 0) := by
  conv_lhs => rw [← h0]
  exact List.getD_map ..

theorem inverseNtt_getD (f : List Nat) (i : Nat) : (inverseNtt f).getD i 0 =
    mulQ ((inverseLevels [2, 4, 8, 16, 32, 64, 128] 127 f).getD i 0) Config.inv128 :=
  getD_map_of_zero (h := (mulQ · Config.inv128)) (by decide) _ i

theorem coeffAt_coeffsOfNats {l : List Nat} {i : Nat} (hi : i < 256) (hl : l.getD i 0 < 2 ^ 12) :
    coeffAt (coeffsOfNats l) i = l.getD i 0 :=
  coeffAt_coeffsOfFn_of_lt (f := (l.getD · 0)) hi hl

/-- INTT scales what its levels give by the inverse of 128 (R110). -/
theorem coeffPoly_inttCoeffs (a : Coeffs) : coeffPoly (inttCoeffs a) = C (Config.inv128 : Zq) *
    blockPoly (entry (inverseLevels [2, 4, 8, 16, 32, 64, 128] 127 (coeffNats a))) 0 256 := by
  rw [coeffPoly]
  ext i
  rw [coeff_C_mul, coeff_blockPoly, coeff_blockPoly, Nat.zero_add]
  split
  · next hi =>
    have hsmall : (inverseNtt (coeffNats a)).getD i 0 < 2 ^ 12 := by
      rw [inverseNtt_getD]
      exact (mulQ_lt _ _).trans (by decide)
    rw [entry_coeffNats _ hi, inttCoeffs, coeffAt_coeffsOfNats hi hsmall, inverseNtt_getD,
      natCast_mulQ, mul_comm, entry]
  · rw [mul_zero]

/-- The scaling undoes the seven doublings of the levels (R110). -/
theorem dvd_sub_of_doubled {M P R : Zq[X]} (h : M ∣ 2 * (2 * (2 * (2 * (2 * (2 * (2 * P)))))) - R) :
    M ∣ P - C (Config.inv128 : Zq) * R := by
  have hinv : C (Config.inv128 : Zq) * 128 = 1 := by
    rw [← map_ofNat C 128, ← C_mul, show (Config.inv128 : Zq) * 128 = 1 by decide, C_1]
  refine (h.mul_left (C (Config.inv128 : Zq))).trans (dvd_of_eq ?_)
  linear_combination P * hinv

/-- INTT of the residues of a polynomial is that polynomial modulo X^256 + 1. -/
theorem Residues.inttCoeffs {P : Zq[X]} {a : Coeffs} (h : Residues P 2 128 128 (coeffNats a)) :
    X ^ 256 + 1 ∣ P - coeffPoly (inttCoeffs a) := by
  have hmerged := h.inverseLevels.block 0 (by decide)
  rw [Nat.add_zero, Nat.mul_zero, X_pow_sub_C_blockRoot_one] at hmerged
  rw [coeffPoly_inttCoeffs]
  exact dvd_sub_of_doubled hmerged

/-! ### The product modulo X^256 + 1 -/

section
variable {f g : Nat → Zq} {n : Nat}

/-- A polynomial of fewer than n coefficients is known by its residue modulo X^n + 1. -/
theorem eq_of_dvd_blockPoly_sub (h : X ^ n + 1 ∣ blockPoly f 0 n - blockPoly g 0 n) {i : Nat} (hi : i < n) :
    f i = g i := by
  have : Fact (1 < Config.modulus) := ⟨by decide⟩
  have hmonic : (X ^ n + 1 : Zq[X]).Monic := monic_X_pow_add_C 1 (by omega)
  have hdegree : (blockPoly f 0 n - blockPoly g 0 n).degree < (X ^ n + 1 : Zq[X]).degree := by
    rw [← C_1, degree_X_pow_add_C (by omega), degree_lt_iff_coeff_zero]
    intro m hm
    rw [coeff_sub, coeff_blockPoly, coeff_blockPoly, if_neg (by omega), if_neg (by omega), sub_zero]
  have hzero : blockPoly f 0 n - blockPoly g 0 n = 0 := by
    by_contra hne
    exact hmonic.not_dvd_of_degree_lt hne hdegree h
  have hcoeff := congrArg (coeff · i) hzero
  simpa [coeff_blockPoly, hi, sub_eq_zero] using hcoeff

/-- The coefficients of a product. -/
theorem coeff_blockPoly_mul (f g : Nat → Zq) (n k : Nat) : (blockPoly f 0 n * blockPoly g 0 n).coeff k =
    ∑ i ∈ Finset.range n, ∑ j ∈ Finset.range n, if i + j = k then f i * g j else 0 := by
  simp only [blockPoly, Finset.sum_mul_sum, finsetSum_coeff, C_mul_X_pow_eq_monomial, monomial_mul_monomial,
    coeff_monomial, Nat.zero_add]

theorem coeff_blockPoly_mul_eq_zero (f g : Nat → Zq) {n k : Nat} (hk : n + n ≤ k) :
    (blockPoly f 0 n * blockPoly g 0 n).coeff k = 0 := by
  rw [coeff_blockPoly_mul]
  refine Finset.sum_eq_zero fun i hi => Finset.sum_eq_zero fun j hj => if_neg ?_
  have := Finset.mem_range.1 hi
  have := Finset.mem_range.1 hj
  omega

/-- A polynomial of 2n coefficients, with X^n taken as -1. -/
theorem dvd_sub_wrapped {p : Zq[X]} (hp : ∀ k, n + n ≤ k → p.coeff k = 0) :
    X ^ n + 1 ∣ p - blockPoly (fun k => p.coeff k - p.coeff (k + n)) 0 n := by
  have hhalves : p = blockPoly p.coeff 0 n + X ^ n * blockPoly p.coeff n n := by
    have happend := blockPoly_append p.coeff 0 n n
    rw [Nat.zero_add] at happend
    rw [← happend]
    ext k
    rw [coeff_blockPoly, Nat.zero_add]
    split
    · rfl
    · next hk => exact hp k (Nat.not_lt.1 hk)
  have hwrapped : blockPoly (fun k => p.coeff k - p.coeff (k + n)) 0 n =
      blockPoly p.coeff 0 n - blockPoly p.coeff n n := by
    ext k
    simp only [coeff_sub, coeff_blockPoly]
    split
    · rw [Nat.zero_add, Nat.add_comm k n]
    · rw [sub_zero]
  refine ⟨blockPoly p.coeff n n, ?_⟩
  rw [hwrapped]
  linear_combination hhalves

/-- What is the product modulo X^n + 1, and has n coefficients, is its coefficients with X^n taken as -1. -/
theorem coeff_of_dvd_mul_sub {h : Nat → Zq} {i : Nat} (hi : i < n)
    (hdvd : X ^ n + 1 ∣ blockPoly f 0 n * blockPoly g 0 n - blockPoly h 0 n) :
    h i = (blockPoly f 0 n * blockPoly g 0 n).coeff i - (blockPoly f 0 n * blockPoly g 0 n).coeff (i + n) := by
  have hsame := dvd_sub (dvd_sub_wrapped fun _ => coeff_blockPoly_mul_eq_zero f g) hdvd
  rw [sub_sub_sub_cancel_left] at hsame
  exact eq_of_dvd_blockPoly_sub hsame hi

end

theorem natCast_sumTo (n : Nat) (f : Nat → Nat) : (sumTo n f : Zq) = ∑ i ∈ Finset.range n, (f i : Zq) := by
  induction n with
  | zero => exact Nat.cast_zero
  | succ n ih => rw [sumTo, Nat.cast_add, ih, Finset.sum_range_succ]

/-- Both sums of the negacyclic convolution are coefficients of the product. -/
theorem natCast_negacyclicAt (f g : Coeffs) (k : Nat) : (negacyclicAt f g k : Zq) =
    (coeffPoly f * coeffPoly g).coeff k - (coeffPoly f * coeffPoly g).coeff (k + 256) := by
  have hterm (m : Nat) : (coeffPoly f * coeffPoly g).coeff m = (sumTo 256 fun i => sumTo 256 fun j =>
      if i + j = m then coeffAt f i * coeffAt g j else 0 : Nat) := by
    rw [coeffPoly, coeffPoly, coeff_blockPoly_mul, natCast_sumTo]
    refine Finset.sum_congr rfl fun i hi => ?_
    rw [natCast_sumTo]
    refine Finset.sum_congr rfl fun j hj => ?_
    rw [entry_coeffNats f (Finset.mem_range.1 hi), entry_coeffNats g (Finset.mem_range.1 hj)]
    push_cast
    rfl
  rw [negacyclicAt, natCast_subQ, hterm, hterm]

/-- Settles O58: PMUL multiplies the residues that NTT gives, and INTT merges those of the product, which has one
representative of 256 coefficients. -/
theorem nttProductIsNegacyclic : Obligations.NttProductIsNegacyclic := by
  intro f g hf hg k hk
  have hproduct := ((residues_nttCoeffs hf).mulPairs (residues_nttCoeffs hg)).inttCoeffs
  have hcoeff := coeff_of_dvd_mul_sub hk hproduct
  rw [← coeffPoly, ← coeffPoly, ← natCast_negacyclicAt, entry_coeffNats _ hk] at hcoeff
  exact eq_of_natCast_eq (below_inttCoeffs _ k hk) (subQ_lt _ _) hcoeff

end Sys2Proof.Machine

/-! ### The two tables (spec/41_ntt.md R113) -/

namespace Sys2Proof.Machine

/-- Settles O54: the entries are computed, and the relations are those of a last twiddle and its two GAMMAS. -/
theorem romTables : Obligations.RomTables := by
  refine ⟨by decide, by decide, fun m hm => ?_⟩
  obtain ⟨heven, hsum⟩ := gammas_pair m hm
  exact ⟨heven, by rw [heven]; exact Nat.eq_sub_of_add_eq hsum⟩

end Sys2Proof.Machine

/-! ### The Completes of NTT and INTT -/

namespace Sys2Proof.Machine

section
variable {s : State} {w : Word} {rd ra : Reg} {a : Coeffs} (he : s.eng = .exec w) (ha : s.p[ra].coeffs = some a)
include he ha

theorem exec_ntt_of_source :
    exec (.ntt rd ra) s = .next (retire (s.setP rd (.ntt (nttCoeffs a)))) := by
  simp only [exec, execNtt, twoPhase_exec he, withSource_some ha]

theorem exec_intt_of_source :
    exec (.intt rd ra) s = .next (retire (s.setP rd (.coef (inttCoeffs a)))) := by
  simp only [exec, execIntt, twoPhase_exec he, withSource_some ha]

end

/-- A forward level whose groups fill the sequence brings every value below Q, whatever it was before. -/
theorem forwardLevel_lt_of_length (len groups k : Nat) (f : List Nat) (hf : f.length = 2 * len * groups) :
    ∀ x ∈ forwardLevel len groups k f, x < Config.modulus := by
  induction groups generalizing k f with
  | zero =>
    obtain rfl := List.length_eq_zero_iff.1 hf
    exact fun x hx => absurd hx List.not_mem_nil
  | succ groups ih =>
    intro x hx
    simp only [forwardLevel, List.mem_append] at hx
    rcases hx with (hx | hx) | hx
    · obtain ⟨i, hi, rfl⟩ := List.mem_iff_getElem.mp hx
      rw [List.getElem_zipWith]; exact addQ_lt _ _
    · obtain ⟨i, hi, rfl⟩ := List.mem_iff_getElem.mp hx
      rw [List.getElem_zipWith]; exact subQ_lt _ _
    · rw [Nat.mul_succ] at hf
      exact ih _ _ (by rw [List.length_drop, hf, Nat.add_sub_cancel]) x hx

/-- The first level brings every value of the forward transform below Q. -/
theorem forwardNtt_lt {f : List Nat} (hf : f.length = 256) : ∀ x ∈ forwardNtt f, x < Config.modulus :=
  forwardLevels_lt [64, 32, 16, 8, 4, 2] 2 _ (forwardLevel_lt_of_length 128 1 1 f hf)

theorem inverseNtt_lt (f : List Nat) : ∀ x ∈ inverseNtt f, x < Config.modulus := by
  intro x hx
  obtain ⟨y, -, rfl⟩ := List.mem_map.1 hx
  exact mulQ_lt _ _

/-- The block lengths whose groups fill 256 values. -/
def FillingLength (len : Nat) : Prop := 2 * len * (128 / len) = 256

theorem fillingLength_forward : ∀ len ∈ [128, 64, 32, 16, 8, 4, 2], FillingLength len := by
  unfold FillingLength; decide

theorem fillingLength_inverse : ∀ len ∈ [2, 4, 8, 16, 32, 64, 128], FillingLength len := by
  unfold FillingLength; decide

section
variable {len : Nat} (h : FillingLength len) (k : Nat) {f : List Nat} (hf : f.length = 256)
include h hf

theorem FillingLength.forwardLevel_length : (forwardLevel len (128 / len) k f).length = 256 := by
  rw [Machine.forwardLevel_length _ _ _ _ (by rw [h, hf]), hf]

theorem FillingLength.inverseLevel_length : (inverseLevel len (128 / len) k f).length = 256 := by
  rw [Machine.inverseLevel_length _ _ _ _ (by rw [h, hf]), hf]

end

section
variable {lens : List Nat} (hlens : ∀ len ∈ lens, FillingLength len) (k : Nat) {f : List Nat}
  (hf : f.length = 256)
include hlens hf

theorem forwardLevels_length : (forwardLevels lens k f).length = 256 := by
  induction lens generalizing k f with
  | nil => exact hf
  | cons len lens ih =>
    obtain ⟨hlen, hlens⟩ := List.forall_mem_cons.1 hlens
    exact ih hlens _ (hlen.forwardLevel_length k hf)

theorem inverseLevels_length : (inverseLevels lens k f).length = 256 := by
  induction lens generalizing k f with
  | nil => exact hf
  | cons len lens ih =>
    obtain ⟨hlen, hlens⟩ := List.forall_mem_cons.1 hlens
    exact ih hlens _ (hlen.inverseLevel_length k hf)

end

theorem forwardNtt_length {f : List Nat} (hf : f.length = 256) : (forwardNtt f).length = 256 :=
  forwardLevels_length fillingLength_forward 1 hf

theorem inverseNtt_length {f : List Nat} (hf : f.length = 256) : (inverseNtt f).length = 256 := by
  rw [inverseNtt, List.length_map]
  exact inverseLevels_length fillingLength_inverse 127 hf

/-- The coefficients that NTT writes are the values of the transform, with none of them narrowed. -/
theorem coeffNats_nttCoeffs (a : Coeffs) : coeffNats (nttCoeffs a) = forwardNtt (coeffNats a) :=
  coeffNats_coeffsOfNats (forwardNtt_length (coeffNats_length a)) fun x hx =>
    (forwardNtt_lt (coeffNats_length a) x hx).trans (by decide)

/-- The coefficients that INTT writes are the values of the transform, with none of them narrowed. -/
theorem coeffNats_inttCoeffs (a : Coeffs) : coeffNats (inttCoeffs a) = inverseNtt (coeffNats a) :=
  coeffNats_coeffsOfNats (inverseNtt_length (coeffNats_length a)) fun x hx =>
    (inverseNtt_lt _ x hx).trans (by decide)

end Sys2Proof.Machine

/-! ### The loop nests of the transforms (spec/41_ntt.md R106, R108)

A pass of an inner loop writes the two ends of one pair. The passes of a group walk through the two halves of a block
side by side, and the groups of a level walk through the blocks, as networkLevel does. -/

namespace Sys2Proof.Machine

/-- A pass at j writes `u` of its pair (j, j + len) to the lower end and `v` to the upper, and nothing else. -/
def WritesPair (u v : Nat → Nat → Nat) (len : Nat) (pair : List Nat → Nat → List Nat) : Prop :=
  ∀ (front between rest : List Nat) (x y : Nat), between.length + 1 = len →
    pair (front ++ x :: (between ++ y :: rest)) front.length = front ++ u x y :: (between ++ v x y :: rest)

/-- The integer product of R109 is the machine's, which reduces the difference first. -/
theorem toNat_mul_sub_emod (z x y : Nat) :
    ((z : Int) * ((y : Int) - x) % (Config.modulus : Int)).toNat = mulQ z (subQ y x) := by
  have hnonneg : 0 ≤ (z : Int) * ((y : Int) - x) % (Config.modulus : Int) := Int.emod_nonneg _ (by decide)
  have hlt : (z : Int) * ((y : Int) - x) % (Config.modulus : Int) < Config.modulus :=
    Int.emod_lt_of_pos _ (by decide)
  refine eq_of_natCast_eq (by omega) (mulQ_lt _ _) ?_
  rw [← Int.cast_natCast, Int.toNat_of_nonneg hnonneg, ZMod.intCast_mod, natCast_mulQ, natCast_subQ]
  push_cast
  rfl

section
variable (front between rest : List Nat) (x y : Nat)

theorem getD_pair_lower : (front ++ x :: (between ++ y :: rest)).getD front.length 0 = x := by
  simp [List.getD]

theorem getD_pair_upper : (front ++ x :: (between ++ y :: rest)).getD (front.length + (between.length + 1)) 0 = y := by
  simp [List.getD]

theorem set_pair_lower (x' : Nat) : (front ++ x :: (between ++ y :: rest)).set front.length x' =
    front ++ x' :: (between ++ y :: rest) := by
  simp

theorem set_pair_upper (y' : Nat) : (front ++ x :: (between ++ y :: rest)).set (front.length + (between.length + 1)) y' =
    front ++ x :: (between ++ y' :: rest) := by
  simp

end

/-- A pass of R105. -/
theorem writesPair_loopForwardPair (z len : Nat) :
    WritesPair (fun x y => addQ x (mulQ z y)) (fun x y => subQ x (mulQ z y)) len (loopForwardPair z len) := by
  rintro front between rest x y rfl
  simp only [loopForwardPair, getD_pair_lower, getD_pair_upper, set_pair_lower, set_pair_upper]

/-- A pass of R109. -/
theorem writesPair_loopInversePair (z len : Nat) :
    WritesPair addQ (fun x y => mulQ z (subQ y x)) len (loopInversePair z len) := by
  rintro front between rest x y rfl
  simp only [loopInversePair, getD_pair_lower, getD_pair_upper, set_pair_lower, set_pair_upper, toNat_mul_sub_emod]

section
variable {u v : Nat → Nat → Nat} {len : Nat} {pair : List Nat → Nat → List Nat}

/-- The passes left of a group, with `doneLo` and `doneHi` behind them, take the rest of the two halves pair by pair. -/
theorem WritesPair.foldl_range' (h : WritesPair u v len pair) (rest : List Nat) {lo hi : List Nat}
    (hhalves : lo.length = hi.length) (doneLo doneHi : List Nat) (hlen : lo.length + doneHi.length = len) :
    (List.range' doneLo.length lo.length).foldl pair (doneLo ++ (lo ++ (doneHi ++ (hi ++ rest)))) =
      doneLo ++ (List.zipWith u lo hi ++ (doneHi ++ (List.zipWith v lo hi ++ rest))) := by
  induction lo generalizing hi doneLo doneHi with
  | nil =>
    obtain rfl := List.length_eq_zero_iff.1 hhalves.symm
    rfl
  | cons x lo ih =>
    obtain ⟨y, hi, rfl⟩ := List.exists_cons_of_length_eq_add_one hhalves.symm
    have hpass := h doneLo (lo ++ doneHi) (hi ++ rest) x y
      (by rw [List.length_append, ← hlen, List.length_cons]; omega)
    have hrest := ih (Nat.succ.inj hhalves) (doneLo ++ [u x y]) (doneHi ++ [v x y])
      (by rw [← hlen, List.length_append, List.length_singleton, List.length_cons]; omega)
    simp only [List.append_assoc, List.cons_append, List.nil_append, List.length_append, List.length_singleton]
      at hpass hrest ⊢
    rw [List.length_cons, List.range'_succ, List.foldl_cons, hpass, hrest]
    rfl

/-- The group of a block is the butterflies of its two halves. -/
theorem WritesPair.loopGroup_eq (h : WritesPair u v len pair) (front : List Nat) {f : List Nat}
    (hf : 2 * len ≤ f.length) : loopGroup pair front.length len (front ++ f) =
      front ++ (butterflies u v len f ++ f.drop (2 * len)) := by
  have hlo : (f.take len).length = len := by rw [List.length_take]; omega
  have hhi : ((f.drop len).take len).length = len := by rw [List.length_take, List.length_drop]; omega
  have hsplit : f = f.take len ++ ((f.drop len).take len ++ f.drop (2 * len)) := by
    rw [two_mul, ← List.drop_drop, List.take_append_drop, List.take_append_drop]
  have hfold := h.foldl_range' (f.drop (2 * len)) (hlo.trans hhi.symm) front [] hlo
  rw [List.nil_append, List.nil_append, ← hsplit, hlo] at hfold
  rw [loopGroup, butterflies, List.append_assoc, ← hfold, List.range'_eq_map_range, List.foldl_map]

end

/-- The groups of a level, from group m on, with `front` behind them: `count m` is the counter of group m. -/
theorem foldl_loopGroup {u v : Nat → Nat → Nat → Nat} {len : Nat} {pair : Nat → List Nat → Nat → List Nat}
    (h : ∀ k, WritesPair (u k) (v k) len (pair k)) {next count : Nat → Nat}
    (hcount : ∀ m, count (m + 1) = next (count m)) (groups m : Nat) {front f : List Nat}
    (hfront : front.length = 2 * len * m) (hf : 2 * len * groups ≤ f.length) :
    (List.range' m groups).foldl
        (fun fk g => (loopGroup (pair fk.2) (2 * len * g) len fk.1, next fk.2)) (front ++ f, count m) =
      (front ++ networkLevel (fun j => u (count j)) (fun j => v (count j)) len groups m f, count (m + groups)) := by
  induction groups generalizing m front f with
  | zero => rfl
  | succ groups ih =>
    rw [Nat.mul_succ] at hf
    have hblock : 2 * len ≤ f.length := by omega
    have hnext := ih (m + 1) (front := front ++ butterflies (u (count m)) (v (count m)) len f)
      (f := f.drop (2 * len)) (by rw [List.length_append, hfront, butterflies_length hblock, Nat.mul_succ])
      (by rw [List.length_drop]; omega)
    rw [List.range'_succ, List.foldl_cons, ← hfront, (h _).loopGroup_eq front hblock, ← hcount,
      ← List.append_assoc, hnext, networkLevel, List.append_assoc, Nat.add_right_comm, Nat.add_assoc]

/-- The middle loop of R106 is a forward level. -/
theorem foldl_loopForwardPair {len groups : Nat} (k : Nat) {f : List Nat} (hf : 2 * len * groups ≤ f.length) :
    (List.range groups).foldl
        (fun fk g => (loopGroup (loopForwardPair (zetas fk.2) len) (2 * len * g) len fk.1, fk.2 + 1)) (f, k) =
      (forwardLevel len groups k f, k + groups) := by
  have h := foldl_loopGroup (fun k => writesPair_loopForwardPair (zetas k) len) (next := (· + 1)) (count := (k + ·))
    (fun _ => rfl) groups 0 (front := []) rfl hf
  rwa [← forwardLevel_eq, ← List.range_eq_range', Nat.zero_add] at h

/-- The middle loop of R108 is an inverse level. -/
theorem foldl_loopInversePair {len groups : Nat} (k : Nat) {f : List Nat} (hf : 2 * len * groups ≤ f.length) :
    (List.range groups).foldl
        (fun fk g => (loopGroup (loopInversePair (zetas fk.2) len) (2 * len * g) len fk.1, fk.2 - 1)) (f, k) =
      (inverseLevel len groups k f, k - groups) := by
  have h := foldl_loopGroup (fun k => writesPair_loopInversePair (zetas k) len) (next := (· - 1)) (count := (k - ·))
    (fun _ => rfl) groups 0 (front := []) rfl hf
  rwa [← inverseLevel_eq, ← List.range_eq_range', Nat.zero_add] at h

section
variable {lens : List Nat} (hlens : ∀ len ∈ lens, FillingLength len) (k : Nat) {f : List Nat}
  (hf : f.length = 256)
include hlens hf

/-- The loops of R106 over the block lengths are the forward levels. -/
theorem foldl_forwardLevels : (lens.foldl
    (fun (fk : List Nat × Nat) len => (List.range (128 / len)).foldl
      (fun fk g => (loopGroup (loopForwardPair (zetas fk.2) len) (2 * len * g) len fk.1, fk.2 + 1)) fk) (f, k)).1 =
    forwardLevels lens k f := by
  induction lens generalizing k f with
  | nil => rfl
  | cons len lens ih =>
    obtain ⟨hlen, hlens⟩ := List.forall_mem_cons.1 hlens
    rw [List.foldl_cons, foldl_loopForwardPair k (by rw [hlen, hf])]
    exact ih hlens _ (hlen.forwardLevel_length k hf)

/-- The loops of R108 over the block lengths are the inverse levels. -/
theorem foldl_inverseLevels : (lens.foldl
    (fun (fk : List Nat × Nat) len => (List.range (128 / len)).foldl
      (fun fk g => (loopGroup (loopInversePair (zetas fk.2) len) (2 * len * g) len fk.1, fk.2 - 1)) fk) (f, k)).1 =
    inverseLevels lens k f := by
  induction lens generalizing k f with
  | nil => rfl
  | cons len lens ih =>
    obtain ⟨hlen, hlens⟩ := List.forall_mem_cons.1 hlens
    rw [List.foldl_cons, foldl_loopInversePair k (by rw [hlen, hf])]
    exact ih hlens _ (hlen.inverseLevel_length k hf)

end

theorem loopForward_eq {f : List Nat} (hf : f.length = 256) : loopForward f = forwardNtt f :=
  foldl_forwardLevels fillingLength_forward 1 hf

theorem loopInverse_eq {f : List Nat} (hf : f.length = 256) : loopInverse f = inverseNtt f := by
  rw [loopInverse, foldl_inverseLevels fillingLength_inverse 127 hf, inverseNtt]

/-- Settles O19: the loops compute the levels of the forward transform, group by group and pair by pair. -/
theorem nttRunsTheLoops : Obligations.NttRunsTheLoops := by
  intro s w rd ra a he ha
  have hsource : s.p[ra].coeffs = some a := by rw [ha]; rfl
  refine ⟨_, nttCoeffs a, exec_ntt_of_source he hsource, ?_, wroteRegister_retire_setP rd _ s⟩
  rw [coeffNats_nttCoeffs, loopForward_eq (coeffNats_length a)]

/-- Settles O20: the loops compute the levels of the inverse transform, and scale as it does. -/
theorem inttRunsTheLoops : Obligations.InttRunsTheLoops := by
  intro s w rd ra a he ha
  have hsource : s.p[ra].coeffs = some a := by rw [ha]; rfl
  refine ⟨_, inttCoeffs a, exec_intt_of_source he hsource, ?_, wroteRegister_retire_setP rd _ s⟩
  rw [coeffNats_inttCoeffs, loopInverse_eq (coeffNats_length a)]

end Sys2Proof.Machine

/-! ### The round trip (spec/41_ntt.md R111) -/

namespace Sys2Proof.Machine

/-- INTT merges the residues that NTT gives to the one polynomial of 256 coefficients that has them. -/
theorem inttCoeffs_nttCoeffs {f : Coeffs} (hf : Below Config.modulus f) : inttCoeffs (nttCoeffs f) = f := by
  refine (below_inttCoeffs _).ext hf fun i hi => ?_
  have hentry := eq_of_dvd_blockPoly_sub (residues_nttCoeffs hf).inttCoeffs hi
  rw [entry_coeffNats _ hi, entry_coeffNats _ hi] at hentry
  exact hentry.symm

/-- Settles O56: the two Completes, and the round trip of the value. -/
theorem nttRoundTrip : Obligations.NttRoundTrip := by
  intro s u w w' ra rb rc f hf he ha
  refine ⟨_, exec_ntt_of_source he (a := f) (by rw [ha]; rfl), fun hu hb => ?_⟩
  have hresult : u.p[rb] = .ntt (nttCoeffs f) := hb.trans (setP_get_same s rb _)
  refine ⟨_, exec_intt_of_source hu (a := nttCoeffs f) (by rw [hresult]; rfl), ?_⟩
  rw [inttCoeffs_nttCoeffs hf]
  exact setP_get_same u rc _

end Sys2Proof.Machine

/-! ### The transforms are linear modulo Q (spec/41_ntt.md R115) -/

namespace Sys2Proof.Machine

/-- NTT brings every coefficient below Q, also of a register that no run holds. -/
theorem below_nttCoeffs_any (a : Coeffs) : Below Config.modulus (nttCoeffs a) :=
  below_coeffsOfNats (by decide) (forwardNtt_lt (coeffNats_length a))

/-- The 256 values `h` are, modulo Q, the combination of those of `f` and `g` with the factors α and β. -/
structure Combination (α β : Zq) (f g h : List Nat) : Prop where
  left_length : f.length = 256
  right_length : g.length = 256
  length : h.length = 256
  entry_eq : ∀ i, i < 256 → entry h i = α * entry f i + β * entry g i

/-- An operation on 256 values is linear when it takes every combination to the same combination. -/
def KeepsCombinations (T : List Nat → List Nat) : Prop :=
  ∀ (α β : Zq) (f g h : List Nat), Combination α β f g h → Combination α β (T f) (T g) (T h)

/-- An operation on two values that is linear modulo Q. -/
def LinearModQ (u : Nat → Nat → Nat) : Prop := ∃ c d : Zq, ∀ x y : Nat, (u x y : Zq) = c * x + d * y

theorem LinearModQ.combine {u : Nat → Nat → Nat} (hu : LinearModQ u) {α β : Zq} {x x' x'' y y' y'' : Nat}
    (hx : (x'' : Zq) = α * x + β * x') (hy : (y'' : Zq) = α * y + β * y') :
    (u x'' y'' : Zq) = α * u x y + β * u x' y' := by
  obtain ⟨c, d, hu⟩ := hu
  rw [hu, hu, hu, hx, hy]
  ring

/-- Every position is in the lower or in the upper half of the block of some group. -/
theorem FillingLength.exists_group {len i : Nat} (h : FillingLength len) (hi : i < 256) :
    ∃ j r, j < 128 / len ∧ r < len ∧ (i = 2 * len * j + r ∨ i = 2 * len * j + (len + r)) := by
  have hj : i / (2 * len) < 128 / len := Nat.div_lt_of_lt_mul (by rw [h]; exact hi)
  have hpos : 0 < len := Nat.pos_of_ne_zero fun h0 => by rw [h0, Nat.div_zero] at hj; omega
  have hmod := Nat.mod_lt i (Nat.mul_pos Nat.two_pos hpos)
  have hdivmod := Nat.div_add_mod i (2 * len)
  rcases Nat.lt_or_ge (i % (2 * len)) len with hlower | hupper
  · exact ⟨_, _, hj, hlower, .inl hdivmod.symm⟩
  · exact ⟨_, i % (2 * len) - len, hj, by omega, .inr (by rw [Nat.add_sub_cancel' hupper, hdivmod])⟩

theorem networkLevel_length (u v : Nat → Nat → Nat → Nat) {len groups : Nat} (m : Nat) {f : List Nat}
    (hf : 2 * len * groups ≤ f.length) : (networkLevel u v len groups m f).length = f.length := by
  induction groups generalizing m f with
  | zero => rfl
  | succ groups ih =>
    rw [Nat.mul_succ] at hf
    rw [networkLevel, List.length_append, butterflies_length (by omega), ih _ (by rw [List.length_drop]; omega),
      List.length_drop]
    omega

/-- A level of linear butterflies is linear. -/
theorem keepsCombinations_networkLevel {u v : Nat → Nat → Nat → Nat} (hu : ∀ j, LinearModQ (u j))
    (hv : ∀ j, LinearModQ (v j)) {len : Nat} (hlen : FillingLength len) :
    KeepsCombinations (networkLevel u v len (128 / len) 0) := by
  intro α β f g h hc
  have hf : 2 * len * (128 / len) ≤ f.length := by rw [hlen, hc.left_length]
  have hg : 2 * len * (128 / len) ≤ g.length := by rw [hlen, hc.right_length]
  have hh : 2 * len * (128 / len) ≤ h.length := by rw [hlen, hc.length]
  refine ⟨?_, ?_, ?_, fun i hi => ?_⟩
  · rw [networkLevel_length _ _ _ hf, hc.left_length]
  · rw [networkLevel_length _ _ _ hg, hc.right_length]
  · rw [networkLevel_length _ _ _ hh, hc.length]
  obtain ⟨j, r, hj, hr, hposition⟩ := hlen.exists_group hi
  have hblock : 2 * len * j + 2 * len ≤ 256 := by
    rw [← hlen, ← Nat.mul_succ]
    exact Nat.mul_le_mul_left _ hj
  have hx := hc.entry_eq (2 * len * j + r) (by omega)
  have hy := hc.entry_eq (2 * len * j + (len + r)) (by omega)
  obtain ⟨hflower, hfupper⟩ := networkLevel_getD (u := u) (v := v) 0 hf hj hr
  obtain ⟨hglower, hgupper⟩ := networkLevel_getD (u := u) (v := v) 0 hg hj hr
  obtain ⟨hhlower, hhupper⟩ := networkLevel_getD (u := u) (v := v) 0 hh hj hr
  rcases hposition with rfl | rfl
  · rw [entry, entry, entry, hflower, hglower, hhlower]
    exact (hu _).combine hx hy
  · rw [entry, entry, entry, hfupper, hgupper, hhupper]
    exact (hv _).combine hx hy

theorem keepsCombinations_forwardLevel {len : Nat} (hlen : FillingLength len) (k : Nat) :
    KeepsCombinations (forwardLevel len (128 / len) k) := by
  have hlevel := funext (forwardLevel_eq len (128 / len) k 0)
  rw [Nat.add_zero] at hlevel
  rw [hlevel]
  refine keepsCombinations_networkLevel (fun j => ⟨1, zetas (k + j), fun x y => ?_⟩)
    (fun j => ⟨1, -zetas (k + j), fun x y => ?_⟩) hlen
  · rw [natCast_addQ, natCast_mulQ, one_mul]
  · rw [natCast_subQ, natCast_mulQ]
    ring

theorem keepsCombinations_inverseLevel {len : Nat} (hlen : FillingLength len) (k : Nat) :
    KeepsCombinations (inverseLevel len (128 / len) k) := by
  have hlevel := funext (inverseLevel_eq len (128 / len) k 0)
  rw [Nat.sub_zero] at hlevel
  rw [hlevel]
  refine keepsCombinations_networkLevel (fun _ => ⟨1, 1, fun x y => ?_⟩)
    (fun j => ⟨-zetas (k - j), zetas (k - j), fun x y => ?_⟩) hlen
  · rw [natCast_addQ, one_mul, one_mul]
  · rw [natCast_mulQ, natCast_subQ]
    ring

theorem keepsCombinations_forwardLevels {lens : List Nat} (hlens : ∀ len ∈ lens, FillingLength len) (k : Nat) :
    KeepsCombinations (forwardLevels lens k) := by
  intro α β f g h hc
  induction lens generalizing k f g h with
  | nil => exact hc
  | cons len lens ih =>
    obtain ⟨hlen, hlens⟩ := List.forall_mem_cons.1 hlens
    exact ih hlens _ _ _ _ (keepsCombinations_forwardLevel hlen k _ _ _ _ _ hc)

theorem keepsCombinations_inverseLevels {lens : List Nat} (hlens : ∀ len ∈ lens, FillingLength len) (k : Nat) :
    KeepsCombinations (inverseLevels lens k) := by
  intro α β f g h hc
  induction lens generalizing k f g h with
  | nil => exact hc
  | cons len lens ih =>
    obtain ⟨hlen, hlens⟩ := List.forall_mem_cons.1 hlens
    exact ih hlens _ _ _ _ (keepsCombinations_inverseLevel hlen k _ _ _ _ _ hc)

/-- The forward transform is linear modulo Q. -/
theorem keepsCombinations_forwardNtt : KeepsCombinations forwardNtt :=
  keepsCombinations_forwardLevels fillingLength_forward 1

/-- Entry i of the inverse transform, scaled (R110). -/
theorem entry_inverseNtt (f : List Nat) (i : Nat) : entry (inverseNtt f) i =
    entry (inverseLevels [2, 4, 8, 16, 32, 64, 128] 127 f) i * Config.inv128 := by
  rw [entry, inverseNtt_getD, natCast_mulQ, entry]

/-- The inverse transform is linear modulo Q. -/
theorem keepsCombinations_inverseNtt : KeepsCombinations inverseNtt := by
  intro α β f g h hc
  have hlevels := keepsCombinations_inverseLevels fillingLength_inverse 127 _ _ _ _ _ hc
  refine ⟨inverseNtt_length hc.left_length, inverseNtt_length hc.right_length, inverseNtt_length hc.length,
    fun i hi => ?_⟩
  rw [entry_inverseNtt, entry_inverseNtt, entry_inverseNtt, hlevels.entry_eq i hi]
  ring

/-- A combination of polynomials is one of their coefficients. -/
theorem combination_coeffNats_iff {α β : Zq} {a b c : Coeffs} :
    Combination α β (coeffNats a) (coeffNats b) (coeffNats c) ↔
      ∀ i, i < 256 → (coeffAt c i : Zq) = α * coeffAt a i + β * coeffAt b i := by
  constructor
  · intro h i hi
    rw [← entry_coeffNats a hi, ← entry_coeffNats b hi, ← entry_coeffNats c hi]
    exact h.entry_eq i hi
  · intro h
    refine ⟨coeffNats_length a, coeffNats_length b, coeffNats_length c, fun i hi => ?_⟩
    rw [entry_coeffNats a hi, entry_coeffNats b hi, entry_coeffNats c hi]
    exact h i hi

/-! ADD, SUB and SMUL compute the combinations that R115 speaks of. -/

section
variable (a b : Coeffs)

theorem combination_addCoeffs : Combination 1 1 (coeffNats a) (coeffNats b) (coeffNats (addCoeffs a b)) :=
  combination_coeffNats_iff.2 fun i hi => by rw [natCast_addCoeffs a b hi, one_mul, one_mul]

theorem combination_subCoeffs : Combination 1 (-1) (coeffNats a) (coeffNats b) (coeffNats (subCoeffs a b)) :=
  combination_coeffNats_iff.2 fun i hi => by rw [natCast_subCoeffs a b hi, one_mul, neg_one_mul, sub_eq_add_neg]

theorem combination_scaleCoeffs (n : Nat) :
    Combination n 0 (coeffNats a) (coeffNats b) (coeffNats (scaleCoeffs a n)) :=
  combination_coeffNats_iff.2 fun i hi => by rw [natCast_scaleCoeffs a n hi, zero_mul, add_zero, mul_comm]

end

/-- Two polynomials below Q that are the same combination are the same. -/
theorem Combination.unique {α β : Zq} {f g : List Nat} {c d : Coeffs} (hc : Combination α β f g (coeffNats c))
    (hd : Combination α β f g (coeffNats d)) (hcbelow : Below Config.modulus c) (hdbelow : Below Config.modulus d) :
    c = d := by
  refine hcbelow.ext hdbelow fun i hi => ?_
  rw [← entry_coeffNats c hi, ← entry_coeffNats d hi, hc.entry_eq i hi, hd.entry_eq i hi]

/-- A function on polynomials that runs a linear operation, and answers below Q, commutes with ADD, SUB and SMUL. -/
theorem KeepsCombinations.commutes {T : List Nat → List Nat} (hT : KeepsCombinations T) {F : Coeffs → Coeffs}
    (hF : ∀ a, coeffNats (F a) = T (coeffNats a)) (hbelow : ∀ a, Below Config.modulus (F a)) (f g : Coeffs)
    (n : Nat) :
    F (addCoeffs f g) = addCoeffs (F f) (F g) ∧ F (subCoeffs f g) = subCoeffs (F f) (F g) ∧
      F (scaleCoeffs f n) = scaleCoeffs (F f) n := by
  have hkeeps {α β : Zq} {c : Coeffs} (hc : Combination α β (coeffNats f) (coeffNats g) (coeffNats c)) :
      Combination α β (coeffNats (F f)) (coeffNats (F g)) (coeffNats (F c)) := by
    rw [hF, hF, hF]
    exact hT _ _ _ _ _ hc
  refine ⟨?_, ?_, ?_⟩
  · exact (hkeeps (combination_addCoeffs f g)).unique (combination_addCoeffs _ _) (hbelow _) (below_addCoeffs _ _)
  · exact (hkeeps (combination_subCoeffs f g)).unique (combination_subCoeffs _ _) (hbelow _) (below_subCoeffs _ _)
  · exact (hkeeps (combination_scaleCoeffs f g n)).unique (combination_scaleCoeffs _ _ n) (hbelow _)
      (below_scaleCoeffs _ n)

/-- Settles O57: each transform is linear level by level. -/
theorem nttIsLinear : Obligations.NttIsLinear := by
  intro f g n
  obtain ⟨hadd, hsub, hscale⟩ :=
    keepsCombinations_forwardNtt.commutes coeffNats_nttCoeffs below_nttCoeffs_any f g n
  exact ⟨hadd, hsub, hscale,
    keepsCombinations_inverseNtt.commutes coeffNats_inttCoeffs below_inttCoeffs f g n⟩

end Sys2Proof.Machine

/-! ### Rejection sampling (spec/42_sampling.md R116 to R119) -/

namespace Sys2Proof.Machine

/-- Settles O21: the Start of SAMPU has no check. -/
theorem sampuStarts : Obligations.SampuStarts := fun _ _ he => exec_sampu_idle he

section
variable (c : Chunk)

/-- d1 is the low 12 bits of the chunk (R117). -/
theorem firstCandidate_eq : firstCandidate c = BitVec.ofNat 12 (c.toNat % 4096) :=
  BitVec.eq_of_toNat_eq (by simp [firstCandidate])

/-- d2 is the other 12 bits of the chunk (R117). -/
theorem secondCandidate_eq : secondCandidate c = BitVec.ofNat 12 (c.toNat / 4096) :=
  BitVec.eq_of_toNat_eq (by simp [secondCandidate, Nat.shiftRight_eq_div_pow])

end

/-- A candidate is accepted by its value (R118). -/
theorem accept_ofNat (acc : List Coeff) {n : Nat} (hn : n < 4096) : accept acc (BitVec.ofNat 12 n) =
    if acc.length < 256 ∧ n < Config.modulus then acc ++ [BitVec.ofNat 12 n] else acc := by
  rw [accept, BitVec.toNat_ofNat, Nat.mod_eq_of_lt hn]

/-- Coefficient i of the polynomial of accepted values is the value of slot i (R118). -/
theorem coeffAt_coeffsOfSlots (acc : List Coeff) {i : Nat} (hi : i < 256) :
    coeffAt (coeffsOfSlots acc) i = (acc.getD i 0).toNat := by
  have hslot : (acc.map BitVec.toNat).getD i 0 = (acc.getD i 0).toNat :=
    List.getD_map acc 0 BitVec.toNat
  rw [coeffsOfSlots, coeffAt_coeffsOfNats hi (hslot ▸ BitVec.isLt _), hslot]

/-- Settles O22: the two candidates are those of R117, and the Chunk step goes on or completes by their count. -/
theorem sampuTakesChunks : Obligations.SampuTakesChunks := by
  refine ⟨?chunk, fun s rd acc w he hx => exec_sampu_wait he hx⟩
  case chunk =>
    intro s rd acc w chunk he hx hlen d1 d2 acc1 acc2
    have hacc1 : accept acc (firstCandidate chunk) = acc1 := by
      rw [firstCandidate_eq, accept_ofNat acc (Nat.mod_lt _ (by decide))]
      simp only [hlen, true_and, acc1, d1]
    have hacc2 : accept (accept acc (firstCandidate chunk)) (secondCandidate chunk) = acc2 := by
      rw [hacc1, secondCandidate_eq, accept_ofNat acc1 (by omega)]
    have hcases := chunkStep_cases rd acc w chunk s
    simp only [hacc2] at hcases
    rw [exec_sampu_chunk he hx]
    refine ⟨fun hmore => ?more, fun hfull => ⟨_, coeffsOfSlots acc2, rfl, ?full⟩⟩
    case more => rw [(hcases.resolve_right fun h => hmore.ne h.1).2]
    case full =>
      rw [(hcases.resolve_left fun h => h.1 hfull).2]
      exact ⟨setP_get_same _ _ _, fun i hi => coeffAt_coeffsOfSlots acc2 hi, fun r hr => setP_get_ne _ _ hr,
        fun _ => rfl, rfl, rfl, rfl, ⟨rfl, rfl, rfl, rfl, rfl, rfl, rfl, rfl, rfl, rfl, rfl, rfl⟩⟩

/-- Settles O32, by the cases of exec that a SAMPU has: its Start, a Chunk step, and a wait. -/
theorem sampuFrame : Obligations.SampuFrame := by
  intro s t rd h
  cases exec_cases h with
  | refusedStart e _ hc => cases hc
  | begins _ _ hi | completes _ _ hi => exact absurd rfl (hi rd)
  | waits _ ht => subst ht; simp [SameBuf]
  | samples rd' he hi ht =>
    cases hi
    subst ht
    exact ⟨fun r hr _ => setP_get_ne s .empty (hr he), by simp [SameBuf]⟩
  | chunk rd' acc w c he _ ht =>
    subst ht
    rcases chunkStep_cases rd' acc w c s with ⟨-, hc⟩ | ⟨-, hc⟩ <;> rw [hc]
    · simp [SameBuf]
    · exact ⟨fun r _ hr => setP_get_ne _ _ (hr rd' acc w he), by simp [SameBuf]⟩

end Sys2Proof.Machine

/-! ### Centred binomial sampling (spec/42_sampling.md R122, R123) -/

namespace Sys2Proof.Machine

/-- MemRead of a range that is written gives its bytes in address order. -/
theorem Memory.readBytes_of_read {m : List Host.Cell} {a n : Nat} {bytes : Nat → Byte}
    (h : ∀ k, k < n → Memory.read m (a + k) = some (bytes k)) :
    Memory.readBytes m a n = some ((List.range n).map bytes) := by
  induction n generalizing a bytes with
  | zero => rfl
  | succ n ih =>
    have hfirst : Memory.read m a = some (bytes 0) := h 0 n.succ_pos
    have hrest : Memory.readBytes m (a + 1) n = some ((List.range n).map (bytes ∘ Nat.succ)) :=
      ih fun k hk => by rw [Nat.add_right_comm]; exact h (k + 1) (Nat.succ_lt_succ hk)
    rw [Memory.readBytes, hfirst, hrest, List.range_succ_eq_map, List.map_cons, List.map_map]

/-- Bit n of the little-endian integer of a byte sequence is bit (n mod 8) of byte (n div 8) (spec/20_memory.md R60). -/
theorem toNat_testBit_bitString (bs : List Byte) (n : Nat) :
    ((bitString bs).testBit n).toNat = streamBit (bs.getD · 0) n := by
  induction bs generalizing n with
  | nil => simp [bitString, streamBit]
  | cons b bs ih =>
    rw [bitString, Nat.add_comm, Nat.testBit_two_pow_mul_add _ b.isLt]
    split
    · next hlow =>
      rw [Nat.toNat_testBit, streamBit, Nat.div_eq_of_lt hlow, Nat.mod_eq_of_lt hlow, List.getD_cons_zero]
    · next hhigh =>
      have hdiv : n / 8 = (n - 8) / 8 + 1 := by omega
      have hmod : n % 8 = (n - 8) % 8 := by omega
      rw [ih, streamBit, streamBit, hdiv, hmod, List.getD_cons_succ]

/-- Bit n of the integer of N bytes, for n among their bits. -/
theorem toNat_testBit_bitString_range (bytes : Nat → Byte) {N n : Nat} (hn : n < 8 * N) :
    ((bitString ((List.range N).map bytes)).testBit n).toNat = streamBit bytes n := by
  have hbyte : n / 8 < N := by omega
  rw [toNat_testBit_bitString, streamBit, streamBit]
  simp [List.getD, hbyte]

/-- The ones among `n` bits of a byte sequence. -/
theorem countOnes_bitString_range (bytes : Nat → Byte) {N lo n : Nat} (hn : lo + n ≤ 8 * N) :
    countOnes (bitString ((List.range N).map bytes)) lo n = sumTo n fun j => streamBit bytes (lo + j) := by
  induction n with
  | zero => rfl
  | succ n ih => rw [countOnes, sumTo, ih (by omega), toNat_testBit_bitString_range bytes (by omega)]

/-- `subQ` is the floor modulus of the integer difference (spec/00_scope.md R9). -/
theorem intCast_subQ (a b : Nat) : (subQ a b : Int) = ((a : Int) - b) % 3329 :=
  Int.toNat_of_nonneg (Int.emod_nonneg _ (by decide))

/-- Coefficient i of the sample is taken from window i of 2·ETA bits (R122, R123). -/
theorem coeffAt_cbdCoeffs (eta stream : Nat) {i : Nat} (hi : i < 256) : coeffAt (cbdCoeffs eta stream) i =
    subQ (countOnes stream (2 * i * eta) eta) (countOnes stream (2 * i * eta + eta) eta) :=
  coeffAt_coeffsOfFn_of_lt hi ((subQ_lt _ _).trans (by decide))

/-- Settles O23: every window lies within the 64·ETA bytes read. -/
theorem sampcCompletes : Obligations.SampcCompletes := by
  intro s w p eta addr bytes he hbytes
  refine ⟨_, cbdCoeffs eta.toNat (bitString ((List.range (64 * eta.toNat)).map bytes)), ?exec, fun i hi => ?sample,
    wroteRegister_retire_setP p _ s⟩
  case exec =>
    simp only [exec, execSampc, twoPhase_exec he]
    exact withBytes_some (Memory.readBytes_of_read hbytes)
  case sample =>
    have hwindow : (2 * i + 2) * eta.toNat ≤ 512 * eta.toNat := Nat.mul_le_mul_right _ (by omega)
    rw [Nat.add_mul] at hwindow
    rw [coeffAt_cbdCoeffs _ _ hi, countOnes_bitString_range bytes (by omega),
      countOnes_bitString_range bytes (by omega), intCast_subQ]

end Sys2Proof.Machine

/-! ### Compression and decompression (spec/43_compress.md)

Both round a quotient to the nearest integer, so both laws follow from two half steps: `k · Q` is within 1664 of
`x · 2^D`, where k is the quotient of compression, and within `2^(D-1)` of `z · 2^D`, where z is k decompressed. -/

namespace Sys2Proof.Machine

section
variable {d : Nat}

/-- The coefficients that CMPR writes; none is narrowed. -/
theorem coeffAt_compressCoeffs (hd : d ≤ 11) (a : Coeffs) {i : Nat} (hi : i < 256) :
    coeffAt (compressCoeffs d a) i = compress d (coeffAt a i) := by
  have hpow : 2 ^ d ≤ 2 ^ 12 := Nat.pow_le_pow_right (by decide) (by omega)
  exact coeffAt_coeffsOfFn_of_lt hi ((Nat.mod_lt _ (Nat.two_pow_pos d)).trans_le hpow)

/-- The coefficients that DCMP writes; every one is below Q, and so is not narrowed (R132). -/
theorem coeffAt_decompressCoeffs (hd : 1 ≤ d) (hd' : d ≤ 11) {a : Coeffs} (ha : Below (2 ^ d) a) {i : Nat}
    (hi : i < 256) : coeffAt (decompressCoeffs d a) i = decompress d (coeffAt a i) :=
  coeffAt_coeffsOfFn_of_lt hi ((decompress_lt hd hd' (ha i hi)).trans (by decide))

/-- The half step of decompression, from above. -/
theorem decompress_mul_le (d y : Nat) : decompress d y * 2 ^ d ≤ y * Config.modulus + 2 ^ (d - 1) :=
  Nat.div_mul_le_self _ _

/-- The half step of decompression, from below. -/
theorem le_decompress_mul (hd : 1 ≤ d) (y : Nat) : y * Config.modulus ≤ decompress d y * 2 ^ d + 2 ^ (d - 1) := by
  have hhalf : 2 * 2 ^ (d - 1) = 2 ^ d := mul_pow_sub_one (by omega) 2
  have hfloor : y * Config.modulus + 2 ^ (d - 1) < decompress d y * 2 ^ d + 2 ^ d :=
    Nat.lt_div_mul_add (Nat.two_pow_pos d)
  omega

/-- The half step of decompression is less than that of compression, so it is undone (R135). -/
theorem compress_decompress (hd : 1 ≤ d) (hd' : d ≤ 11) {y : Nat} (hy : y < 2 ^ d) :
    compress d (decompress d y) = y := by
  have hsmall : 2 ^ (d - 1) ≤ 2 ^ 10 := Nat.pow_le_pow_right (by decide) (by omega)
  have hle := decompress_mul_le d y
  have hge := le_decompress_mul hd y
  have hquot : (decompress d y * 2 ^ d + Config.modulus / 2) / Config.modulus = y := by
    unfold Config.modulus at *; omega
  rw [compress, hquot, Nat.mod_eq_of_lt hy]

/-- Decompression takes a whole turn of 2^D to a whole turn of Q. -/
theorem decompress_mod_add (d k : Nat) :
    decompress d (k % 2 ^ d) + Config.modulus * (k / 2 ^ d) = decompress d k := by
  have hsplit : k * Config.modulus + 2 ^ (d - 1) =
      k % 2 ^ d * Config.modulus + 2 ^ (d - 1) + 2 ^ d * (Config.modulus * (k / 2 ^ d)) := by
    conv_lhs => rw [← Nat.mod_add_div k (2 ^ d)]
    ring
  rw [decompress, decompress, hsplit, Nat.add_mul_div_left _ _ (Nat.two_pow_pos d)]

/-- Multiples of Q do not count in the distance modulo Q. -/
theorem distQ_add_modulus_mul (a b m : Nat) : distQ (a + Config.modulus * m) b = distQ a b := by
  have hleft : (↑(a + Config.modulus * m) - b : Int) = a - b + Config.modulus * m := by push_cast; ring
  have hright : (b - ↑(a + Config.modulus * m) : Int) = b - a - Config.modulus * m := by push_cast; ring
  simp only [distQ, subQ, hleft, hright, Int.add_mul_emod_self_left, Int.sub_mul_emod_self_left]

/-- A difference that is not negative only gets smaller modulo Q. -/
theorem subQ_le_sub {a b : Nat} (h : b ≤ a) : subQ a b ≤ a - b := by
  rw [subQ, ← Int.ofNat_sub h]
  exact Nat.mod_le (a - b) Config.modulus

/-- The distance modulo Q is at most the distance of the integers. -/
theorem distQ_le {a b e : Nat} (hab : a - b ≤ e) (hba : b - a ≤ e) : distQ a b ≤ e := by
  rcases Nat.le_total b a with h | h
  · exact (Nat.min_le_left _ _).trans ((subQ_le_sub h).trans hab)
  · exact (Nat.min_le_right _ _).trans ((subQ_le_sub h).trans hba)

/-- The bound of R134 is the two half steps together. -/
theorem errorBound_eq (hd : 1 ≤ d) : (3329 + 2 ^ d) / 2 ^ (d + 1) = (1664 + 2 ^ (d - 1)) / 2 ^ d := by
  have hhalf : 2 * 2 ^ (d - 1) = 2 ^ d := mul_pow_sub_one (by omega) 2
  have hsum : (3329 + 2 ^ d) / 2 = 1664 + 2 ^ (d - 1) := by omega
  rw [pow_succ', ← Nat.div_div_eq_div_mul, hsum]

/-- A difference of multiples of 2^D, divided by 2^D. -/
theorem sub_le_div_two_pow {a b n : Nat} (h : a * 2 ^ d ≤ b * 2 ^ d + n) : a - b ≤ n / 2 ^ d := by
  rw [Nat.le_div_iff_mul_le (Nat.two_pow_pos d), Nat.sub_mul]
  omega

/-- Decompression after compression moves a value by at most the two half steps (R134). The reduction of the quotient
modulo 2^D, which makes values near Q wrap to 0, costs a multiple of Q only. -/
theorem distQ_decompress_compress_le (hd : 1 ≤ d) (x : Nat) :
    distQ (decompress d (compress d x)) x ≤ (3329 + 2 ^ d) / 2 ^ (d + 1) := by
  rw [compress]
  generalize hk : (x * 2 ^ d + Config.modulus / 2) / Config.modulus = k
  rw [← distQ_add_modulus_mul _ _ (k / 2 ^ d), decompress_mod_add, errorBound_eq hd]
  have hle := decompress_mul_le d k
  have hge := le_decompress_mul hd k
  unfold Config.modulus at hk hle hge
  exact distQ_le (sub_le_div_two_pow (by omega)) (sub_le_div_two_pow (by omega))

end

/-- Settles O24, by what the Complete of one source writes. -/
theorem cmprCompletes : Obligations.CmprCompletes := by
  intro s w rd ra d a _ hd he ha
  refine ⟨_, compressCoeffs d.toNat a, ?_, fun i hi => coeffAt_compressCoeffs hd a hi,
    wroteRegister_retire_setP rd _ s⟩
  simp only [exec, execCmpr, twoPhase_exec he]
  exact withSource_some (by rw [ha]; rfl)

/-- Settles O25, by what the Complete of one source writes: no value leaves the range below Q. -/
theorem dcmpCompletes : Obligations.DcmpCompletes := by
  intro s w rd ra d a hd hd' he ha hbelow
  refine ⟨_, decompressCoeffs d.toNat a, ?_, fun i hi => coeffAt_decompressCoeffs hd hd' hbelow hi,
    below_decompressCoeffs hd hd' hbelow, wroteRegister_retire_setP rd _ s⟩
  simp only [exec, execDcmp, twoPhase_exec he]
  exact withSource_some (by rw [ha]; rfl)

/-- Settles O59, coefficient by coefficient. -/
theorem compressionLaws : Obligations.CompressionLaws := by
  intro d a hd hd'
  refine ⟨fun ha => coeffs_ext fun i hi => ?identity, fun _ i hi => ?near⟩
  case identity =>
    rw [coeffAt_compressCoeffs hd' _ hi, coeffAt_decompressCoeffs hd hd' ha hi, compress_decompress hd hd' (ha i hi)]
  case near =>
    rw [coeffAt_decompressCoeffs hd hd' (below_compressCoeffs d a) hi, coeffAt_compressCoeffs hd' a hi]
    exact distQ_decompress_compress_le hd _

end Sys2Proof.Machine

/-! ### Serialization (spec/44_serialize.md)

Both directions are read off the stream bit by bit: stream bit n is bit (n mod D) of coefficient (n div D), and bit
(n mod 8) of byte (n div 8) (R137, R139). So a byte string and the 256 fields of D bits it spells determine each other,
and the round trips of R141 follow. -/

namespace Sys2Proof.Machine

/-! #### Bits of the packed stream -/

section
variable {d : Nat}

/-- Bit n of the packed integer is bit (n mod D) of value (n div D) (R138). -/
theorem testBit_packBits (hd : 1 ≤ d) (l : List Nat) (n : Nat) :
    (packBits d l).testBit n = (l.getD (n / d) 0).testBit (n % d) := by
  induction l generalizing n with
  | nil => simp [packBits]
  | cons x l ih =>
    rw [packBits, Nat.add_comm, Nat.testBit_two_pow_mul_add _ (Nat.mod_lt _ (Nat.two_pow_pos d))]
    split
    · next hlow => simp [Nat.div_eq_of_lt hlow, Nat.mod_eq_of_lt hlow, Nat.testBit_mod_two_pow, hlow]
    · next hhigh =>
      have hge : d ≤ n := Nat.le_of_not_lt hhigh
      rw [ih, Nat.div_eq_sub_div hd hge, List.getD_cons_succ, Nat.mod_eq_sub_mod hge]

/-- Bit j of byte k of a stream is stream bit 8k + j (R137). -/
theorem getLsbD_streamBytes (stream : Nat) {n k j : Nat} (hk : k < n) (hj : j < 8) :
    ((streamBytes stream n).getD k 0).getLsbD j = stream.testBit (8 * k + j) := by
  induction n generalizing stream k with
  | zero => cases hk
  | succ n ih =>
    rw [streamBytes]
    cases k with
    | zero => rw [List.getD_cons_zero, BitVec.getLsbD_ofNat]; simp [hj]
    | succ k =>
      rw [List.getD_cons_succ, ih _ (Nat.lt_of_succ_lt_succ hk), Nat.testBit_div_two_pow]
      congr 1
      omega

/-- Bit j of byte k that ENC writes is bit (8k + j) mod D of coefficient (8k + j) div D (R137, R138). -/
theorem getLsbD_encodeBytes (hd : 1 ≤ d) (a : Coeffs) {k j : Nat} (hk : k < 32 * d) (hj : j < 8) :
    ((encodeBytes d a).getD k 0).getLsbD j = (coeffAt a ((8 * k + j) / d)).testBit ((8 * k + j) % d) := by
  have hcoeff : (8 * k + j) / d < 256 := (Nat.div_lt_iff_lt_mul hd).2 (by omega)
  rw [encodeBytes, getLsbD_streamBytes _ hk hj, testBit_packBits hd, coeffNats_getD a hcoeff]

/-! #### Fields of a byte string -/

variable {bytes bytes' : Nat → Byte} {i : Nat}

theorem streamBit_eq_getLsbD (bytes : Nat → Byte) (n : Nat) :
    streamBit bytes n = ((bytes (n / 8)).getLsbD (n % 8)).toNat :=
  (Nat.toNat_testBit _ _).symm

/-- The bits of a field lie within the 32·D bytes. -/
theorem fieldEnd_le (d : Nat) (hi : i < 256) : d * i + d ≤ 8 * (32 * d) := by
  have hend : d * (i + 1) ≤ d * 256 := Nat.mul_le_mul_left _ hi
  rw [Nat.mul_succ] at hend
  omega

/-- `n` bits of the integer of N bytes, from bit `lo` up, are the stream bits at their weights (R138, R139). -/
theorem bitString_range_div_mod (bytes : Nat → Byte) {N lo n : Nat} (hn : lo + n ≤ 8 * N) :
    bitString ((List.range N).map bytes) / 2 ^ lo % 2 ^ n = sumTo n fun b => streamBit bytes (lo + b) * 2 ^ b := by
  induction n with
  | zero => rw [pow_zero, Nat.mod_one]; rfl
  | succ n ih =>
    rw [sumTo, ← ih (by omega), ← toNat_testBit_bitString_range bytes (N := N) (by omega), Nat.toNat_testBit,
      Nat.mod_pow_succ, Nat.div_div_eq_div_mul, ← pow_add, Nat.mul_comm (2 ^ n)]

/-- Value i of the integer of the 32·D bytes is field i of D bits (R139). -/
theorem unpackBits_bitString_range (bytes : Nat → Byte) (hi : i < 256) :
    unpackBits d (bitString ((List.range (32 * d)).map bytes)) i = streamField bytes d i :=
  bitString_range_div_mod bytes (fieldEnd_le d hi)

/-- A field of D bits is below 2^D (R139). -/
theorem streamField_lt (bytes : Nat → Byte) (hi : i < 256) : streamField bytes d i < 2 ^ d := by
  rw [← unpackBits_bitString_range bytes hi]
  exact Nat.mod_lt _ (Nat.two_pow_pos d)

/-- Bit b of field i is stream bit D·i + b (R139). -/
theorem testBit_streamField (bytes : Nat → Byte) (hi : i < 256) {b : Nat} (hb : b < d) :
    (streamField bytes d i).testBit b = (bytes ((d * i + b) / 8)).getLsbD ((d * i + b) % 8) := by
  have hrange := fieldEnd_le d hi
  have hbit := toNat_testBit_bitString_range bytes (N := 32 * d) (n := d * i + b) (by omega)
  replace hbit := congrArg Bool.ofNat (hbit.trans (streamBit_eq_getLsbD ..))
  rw [Bool.ofNat_toNat, Bool.ofNat_toNat] at hbit
  rw [← unpackBits_bitString_range bytes hi, unpackBits, Nat.testBit_mod_two_pow, Nat.testBit_div_two_pow,
    decide_eq_true hb, Bool.true_and, Nat.add_comm, hbit]

/-- Two byte strings have the same 32·D bytes exactly when they have the same 256 fields of D bits. -/
theorem forall_streamField_eq_iff (hd : 1 ≤ d) : (∀ i, i < 256 → streamField bytes d i = streamField bytes' d i) ↔
    ∀ k, k < 32 * d → bytes k = bytes' k := by
  refine ⟨fun h k hk => BitVec.eq_of_getLsbD_eq fun j hj => ?_, fun h i hi => ?_⟩
  · have hfield : (8 * k + j) / d < 256 := (Nat.div_lt_iff_lt_mul hd).2 (by omega)
    have hbyte : (8 * k + j) / 8 = k := by omega
    have hbit : (8 * k + j) % 8 = j := by omega
    have hbits : ∀ bytes : Nat → Byte, (bytes k).getLsbD j =
        (streamField bytes d ((8 * k + j) / d)).testBit ((8 * k + j) % d) := fun bytes => by
      rw [testBit_streamField bytes hfield (Nat.mod_lt _ hd), Nat.div_add_mod, hbyte, hbit]
    rw [hbits, hbits, h _ hfield]
  · rw [← unpackBits_bitString_range bytes hi, ← unpackBits_bitString_range bytes' hi,
      List.map_congr_left fun k hk => h k (List.mem_range.1 hk)]

/-- The fields of the bytes ENC writes are the coefficients it read (R141). -/
theorem streamField_encodeBytes (hd : 1 ≤ d) {a : Coeffs} (ha : Below (2 ^ d) a) (hi : i < 256) :
    streamField ((encodeBytes d a).getD · 0) d i = coeffAt a i := by
  refine Nat.eq_of_testBit_eq fun b => ?_
  rcases Nat.lt_or_ge b d with hb | hb
  · have hend := fieldEnd_le d hi
    have hdiv : (d * i + b) / d = i := by rw [Nat.mul_add_div hd, Nat.div_eq_of_lt hb, Nat.add_zero]
    rw [testBit_streamField _ hi hb, getLsbD_encodeBytes hd a (by omega) (by omega), Nat.div_add_mod, hdiv,
      Nat.mul_add_mod, Nat.mod_eq_of_lt hb]
  · have hpow : 2 ^ d ≤ 2 ^ b := Nat.pow_le_pow_right Nat.two_pos hb
    rw [Nat.testBit_lt_two_pow ((streamField_lt _ hi).trans_le hpow),
      Nat.testBit_lt_two_pow ((ha i hi).trans_le hpow)]

end

/-! #### The Completes of ENC and DEC -/

section
variable {s t : State} {w : Word} {p : Reg} {d : BitVec 4} {addr : BufAddr}

/-- The Complete of ENC writes the packed source over its range of BUF, and stops where there is no source or no such
range. -/
theorem exec_enc_next_iff (he : s.eng = .exec w) : exec (.enc p d addr) s = .next t ↔
    ∃ a, s.p[p].coeffs = some a ∧ addr.toNat + 32 * d.toNat ≤ Config.bufSize ∧
      t = retire { s with buf := Memory.writeBytes s.buf addr.toNat (encodeBytes d.toNat a) } := by
  simp only [exec, execEnc, twoPhase_exec he]
  constructor
  · intro h
    obtain ⟨a, ha, h⟩ := withSource_next h
    split at h
    · next hrange => cases h; exact ⟨a, ha, hrange, rfl⟩
    · cases h
  · rintro ⟨a, ha, hrange, rfl⟩
    rw [withSource_some ha, packedBytes, if_pos hrange]

/-- The Complete of DEC spreads the fields of its bytes over its destination. -/
theorem exec_dec_of_holds (he : s.eng = .exec w) {tag : Tag} {bytes : Nat → Byte}
    (hbytes : Holds s addr.toNat (32 * d.toNat) bytes) : exec (.dec p d tag addr) s =
      .next (retire (decodeInto p d tag ((List.range 256).map (streamField bytes d.toNat)) s)) := by
  have hfields : decodeFields d.toNat ((List.range (32 * d.toNat)).map bytes) =
      (List.range 256).map (streamField bytes d.toNat) :=
    List.map_congr_left fun i hi => unpackBits_bitString_range bytes (List.mem_range.1 hi)
  simp only [exec, execDec, twoPhase_exec he]
  rw [withBytes_some (n := packedBytes d) (Memory.readBytes_of_read hbytes), packedBytes, hfields]

end

/-- A byte that ENC wrote. -/
theorem Memory.read_writeBytes_encodeBytes (m : List Host.Cell) (a : Nat) {d k : Nat} (c : Coeffs) (hk : k < 32 * d) :
    Memory.read (Memory.writeBytes m a (encodeBytes d c)) (a + k) = some ((encodeBytes d c).getD k 0) := by
  have hlen : k < (encodeBytes d c).length := by rwa [encodeBytes_length]
  rw [Memory.read_writeBytes_inside _ _ _ _ hlen, List.getD_eq_getElem _ _ hlen]

/-- The bytes that ENC wrote are those whose fields are the coefficients it read. -/
theorem holds_encodeBytes_iff {s : State} {m : List Host.Cell} {a d : Nat} {c : Coeffs} {bytes : Nat → Byte}
    (hbuf : s.buf = Memory.writeBytes m a (encodeBytes d c)) (hd : 1 ≤ d) (hc : Below (2 ^ d) c) :
    Holds s a (32 * d) bytes ↔ ∀ i, i < 256 → coeffAt c i = streamField bytes d i := by
  calc Holds s a (32 * d) bytes
    _ ↔ ∀ k, k < 32 * d → (encodeBytes d c).getD k 0 = bytes k := forall₂_congr fun k hk => by
        rw [hbuf, Memory.read_writeBytes_encodeBytes _ _ _ hk, Option.some_inj]
    _ ↔ ∀ i, i < 256 → streamField ((encodeBytes d c).getD · 0) d i = streamField bytes d i :=
        (forall_streamField_eq_iff hd).symm
    _ ↔ ∀ i, i < 256 → coeffAt c i = streamField bytes d i := forall₂_congr fun i hi => by
        rw [streamField_encodeBytes hd hc hi]

theorem coeffAt_coeffsOfNats_range {f : Nat → Nat} {i : Nat} (hi : i < 256) (hf : f i < 2 ^ 12) :
    coeffAt (coeffsOfNats ((List.range 256).map f)) i = f i := by
  have hget : ((List.range 256).map f).getD i 0 = f i := by simp [List.getD, hi]
  rw [coeffAt_coeffsOfNats hi (hget ▸ hf), hget]

/-- Some field is at least Q (R140). -/
theorem someOutOfRange_range_iff (f : Nat → Nat) :
    someOutOfRange ((List.range 256).map f) = true ↔ ∃ i, i < 256 ∧ 3329 ≤ f i := by
  simp [someOutOfRange]

section
variable (p : Reg) (d : BitVec 4) (tag : Tag) (fields : List Nat) (s : State)

theorem decodeInto_of_lt (hd : d.toNat < 12) :
    decodeInto p d tag fields s = s.setP p (.cmpr d (coeffsOfNats fields)) :=
  if_neg hd.ne

theorem decodeInto_of_eq (hd : d.toNat = 12) : decodeInto p d tag fields s =
    { s.setP p (Poly.make tag 0 (coeffsOfNats (fields.map (· % Config.modulus)))) with
      rng := s.rng || someOutOfRange fields } :=
  if_pos hd

/-- DEC changes nothing but its destination, RNG and the bookkeeping (R161). -/
theorem retire_decodeInto_frame : OnlyWrites p s (retire (decodeInto p d tag fields s)) ∧
    SameBuf s (retire (decodeInto p d tag fields s)) ∧ (retire (decodeInto p d tag fields s)).xcnt = s.xcnt ∧
    (retire (decodeInto p d tag fields s)).xofIn = s.xofIn ∧
    Completed s (retire (decodeInto p d tag fields s)) := by
  rw [decodeInto_rest, decodeInto_p]
  exact ⟨fun r hr => setP_get_ne s _ hr, fun _ => rfl, rfl, rfl,
    ⟨rfl, rfl, rfl, rfl, rfl, rfl, rfl, rfl, rfl, rfl, rfl, rfl⟩⟩

end

/-- The legal D and T of a DEC (spec/30_encoding.md R77). -/
theorem wellFormed_dec_iff (p : Reg) (d : BitVec 4) (tag : Tag) (addr : BufAddr) :
    (Instr.dec p d tag addr).wellFormed = true ↔
      1 ≤ d.toNat ∧ (d.toNat = 12 ∧ (tag = .coef ∨ tag = .ntt) ∨ d.toNat < 12 ∧ tag = .cmpr) := by
  by_cases h12 : d.toNat = 12
  · simp [Instr.wellFormed, decTagLegal, h12]
  · have hmax : d.toNat ≤ 12 ↔ d.toNat < 12 := by omega
    simp [Instr.wellFormed, decTagLegal, h12, hmax, and_assoc]

/-- Settles O26: every byte of the range is read off the stream, and the writes end with the range. -/
theorem encCompletes : Obligations.EncCompletes := by
  intro s w p d addr a hd he ha hrange
  refine ⟨_, (exec_enc_next_iff he).2 ⟨a, ha, hrange, rfl⟩, fun k hk => ?inside, fun b hb => ?outside,
    rfl, rfl, rfl, rfl, ⟨rfl, rfl, rfl, rfl, rfl, rfl, rfl, rfl, rfl, rfl, rfl, rfl⟩⟩
  case inside =>
    exact ⟨_, Memory.read_writeBytes_encodeBytes _ _ a hk, fun j hj => getLsbD_encodeBytes hd a hk hj⟩
  case outside => exact Memory.read_writeBytes_outside _ _ (by rwa [encodeBytes_length])

/-- Settles O31, by the phases of a command: a Start and a wait keep all of it, and a Complete writes its range. -/
theorem encFrame : Obligations.EncFrame := by
  intro s t p d addr h
  cases exec_cases h with
  | refusedStart e _ _ ht => subst ht; simp
  | begins _ _ _ ht => subst ht; simp
  | samples rd _ hi => cases hi
  | chunk _ _ _ _ he =>
    rw [exec_sampling he (by simp)] at h
    cases h
    simp
  | waits _ ht => subst ht; simp
  | completes w he =>
    obtain ⟨a, -, -, rfl⟩ := (exec_enc_next_iff he).1 h
    refine ⟨rfl, fun b hb => ?_, rfl, rfl, rfl, rfl, rfl, rfl, rfl, rfl⟩
    refine Memory.read_writeBytes_outside _ _ ?_
    rw [encodeBytes_length]
    exact hb.resolve_left (by simp [he])

/-- Settles O27, by the two results that DEC has. -/
theorem decCompletes : Obligations.DecCompletes := by
  intro s w p d tag addr bytes hwf he hbytes
  have hexec := exec_dec_of_holds (p := p) (tag := tag) he hbytes
  have hframe := retire_decodeInto_frame p d tag ((List.range 256).map (streamField bytes d.toNat)) s
  obtain ⟨hd, ⟨h12, htag⟩ | ⟨h12, -⟩⟩ := (wellFormed_dec_iff p d tag addr).1 hwf
  · refine ⟨_, coeffsOfNats ((List.range 256).map fun i => streamField bytes 12 i % Config.modulus), hexec,
      fun hlt => absurd h12 hlt.ne, fun _ => ?reduced, hframe⟩
    rw [decodeInto_of_eq _ _ _ _ _ h12, h12, List.map_map]
    refine ⟨?_, ?_, fun i hi => coeffAt_coeffsOfNats_range hi ((Nat.mod_lt _ (by decide)).trans (by decide))⟩
    · refine (setP_get_same ..).trans ?_
      rcases htag with rfl | rfl <;> rfl
    · rw [← someOutOfRange_range_iff]
      exact Bool.or_eq_true_iff
  · refine ⟨_, coeffsOfNats ((List.range 256).map (streamField bytes d.toNat)), hexec, fun _ => ?kept,
      fun heq => absurd heq h12.ne, hframe⟩
    have hpow : 2 ^ d.toNat ≤ 2 ^ 12 := Nat.pow_le_pow_right Nat.two_pos h12.le
    rw [decodeInto_of_lt _ _ _ _ _ h12]
    exact ⟨setP_get_same .., rfl, fun i hi =>
      coeffAt_coeffsOfNats_range hi ((streamField_lt bytes hi).trans_le hpow)⟩

/-! #### The round trips (R141) -/

/-- The fields of the bytes that ENC writes, in order. -/
theorem map_streamField_encodeBytes {d : Nat} {a : Coeffs} (hd : 1 ≤ d) (ha : Below (2 ^ d) a) :
    (List.range 256).map (streamField ((encodeBytes d a).getD · 0) d) = coeffNats a := by
  refine List.ext_getElem (by simp) fun i hi hi' => ?_
  rw [← List.getD_eq_getElem _ 0 hi', coeffNats_getD a (by simpa using hi)]
  simpa using streamField_encodeBytes hd ha (by simpa using hi)

/-- Coefficients below Q are not reduced, and none is out of range (R139, R140). -/
theorem coeffNats_reduced {a : Coeffs} (ha : Below Config.modulus a) :
    (coeffNats a).map (· % Config.modulus) = coeffNats a ∧ someOutOfRange (coeffNats a) = false := by
  have hlt := coeffNats_lt ha
  refine ⟨?_, List.any_eq_false.2 fun x hx => by simpa using hlt x hx⟩
  exact (List.map_congr_left fun x hx => Nat.mod_eq_of_lt (hlt x hx)).trans (List.map_id' _)

/-- DEC with D = 12 of coefficients below Q. -/
theorem decodeInto_coeffNats_of_eq {a : Coeffs} {d : BitVec 4} (h12 : d.toNat = 12) (ha : Below Config.modulus a)
    (q : Reg) (tag : Tag) (u : State) : decodeInto q d tag (coeffNats a) u = u.setP q (.make tag 0 a) := by
  obtain ⟨hmod, hrange⟩ := coeffNats_reduced ha
  rw [decodeInto_of_eq _ _ _ _ _ h12, hmod, hrange, coeffsOfNats_coeffNats, Bool.or_false]
  rfl

/-- A register that passes ENC's checks has coefficients of D bits, and DEC of its own tag on these restores it. -/
theorem Poly.Valid.encodable {x : Poly} {d : BitVec 4} (hx : x.Valid)
    (hpass : d.toNat = 12 ∧ (x.tag = .coef ∨ x.tag = .ntt) ∨ d.toNat < 12 ∧ x.tag = .cmpr ∧ x.cw = d) :
    1 ≤ d.toNat ∧ ∃ a, x.coeffs = some a ∧ Below (2 ^ d.toNat) a ∧
      ∀ q u, decodeInto q d x.tag (coeffNats a) u = u.setP q x := by
  rcases hpass with ⟨h12, htag⟩ | ⟨h12, htag, rfl⟩
  · cases x with
    | empty | cmpr => simp [Poly.tag] at htag
    | coef a | ntt a =>
      exact ⟨by omega, a, rfl, fun i _ => h12 ▸ coeffAt_lt a i, fun q u => decodeInto_coeffNats_of_eq h12 hx q _ u⟩
  · cases x with
    | empty | coef | ntt => cases htag
    | cmpr cw a =>
      obtain ⟨hcw, -, ha⟩ := hx
      exact ⟨hcw, a, rfl, ha, fun q u => by rw [decodeInto_of_lt _ _ _ _ _ h12, coeffsOfNats_coeffNats]; rfl⟩

/-- Settles O60: the bytes of a range and their fields determine each other. -/
theorem encodeDecodeRoundTrips : Obligations.EncodeDecodeRoundTrips := by
  refine ⟨fun s u w w' p q d addr he hx hrange hpass => ?decOfEnc,
    fun s u w w' p d tag addr addr' bytes hwf he hbytes hrange => ?encOfDec⟩
  case decOfEnc =>
    obtain ⟨hd, a, ha, hbelow, hrestores⟩ := hx.encodable hpass
    refine ⟨_, (exec_enc_next_iff he).2 ⟨a, ha, hrange, rfl⟩, fun hu hbuf => ?_⟩
    have hholds := (holds_encodeBytes_iff hbuf hd hbelow).2 fun i hi => (streamField_encodeBytes hd hbelow hi).symm
    refine ⟨_, exec_dec_of_holds hu hholds, ?_⟩
    rw [map_streamField_encodeBytes hd hbelow, hrestores]
    exact ⟨setP_get_same .., rfl⟩
  case encOfDec =>
    obtain ⟨hd, hpair⟩ := (wellFormed_dec_iff ..).1 hwf
    obtain ⟨t, c, hexec, hlt, heq, -⟩ := decCompletes s w p d tag addr bytes hwf he hbytes
    have hsource : t.p[p].coeffs = some c ∧ Below (2 ^ d.toNat) c := by
      rcases hpair with ⟨h12, -⟩ | ⟨h12, -⟩
      · obtain ⟨hp, -⟩ := heq h12
        refine ⟨?_, fun i _ => h12 ▸ coeffAt_lt c i⟩
        rw [hp]
        split <;> rfl
      · obtain ⟨hp, -, hc⟩ := hlt h12
        exact ⟨by rw [hp]; rfl, fun i hi => hc i hi ▸ streamField_lt bytes hi⟩
    obtain ⟨hread, hbelow⟩ := hsource
    refine ⟨t, hexec, fun h12 hs => ?rng, fun hu hreg => ?enc⟩
    case rng =>
      obtain ⟨-, hrng, -⟩ := heq h12
      rw [← Bool.not_eq_true, hrng, hs]
      simp
    case enc =>
      refine ⟨_, (exec_enc_next_iff hu).2 ⟨c, hreg ▸ hread, hrange, rfl⟩, fun h12 => ?_, fun h12 => ?_⟩
      · obtain ⟨-, -, hc⟩ := hlt h12
        exact (holds_encodeBytes_iff rfl hd hbelow).2 hc
      · obtain ⟨-, -, hc⟩ := heq h12
        refine (holds_encodeBytes_iff rfl hd hbelow).trans (forall₂_congr fun i hi => ?_)
        rw [hc i hi, h12, Nat.mod_eq_iff_lt (by decide)]

end Sys2Proof.Machine

/-! ### Start, and the raising of exceptions (spec/60_exceptions.md R150 to R160)

The outcome of a Start as a function of the state: which exception it takes, read off the head word and the registers'
kinds alone, or what it begins. -/

namespace Sys2Proof.Machine

/-- The exception the Start of the head takes, if any: the decoder's error, then the first check that fails. -/
def startExc (s : State) : Option Exc :=
  match decode s.head with
  | .error e => some (decodeExc e)
  | .ok i => firstFailing (startChecks i s.kinds)

/-- What a Start of the head that takes no exception begins. -/
def beginHead (s : State) : State :=
  match decode s.head with
  | .ok (.sampu rd) => beginSampling rd s
  | _ => beginExec s

section
variable {s t : State}

theorem startExc_of_error {e : DecodeError} (hd : decode s.head = .error e) : startExc s = some (decodeExc e) := by
  rw [startExc, hd]

theorem startExc_of_ok {i : Instr} (hd : decode s.head = .ok i) :
    startExc s = firstFailing (startChecks i s.kinds) := by
  rw [startExc, hd]

theorem beginHead_sampu {rd : Reg} (hd : decode s.head = .ok (.sampu rd)) : beginHead s = beginSampling rd s := by
  rw [beginHead, hd]

theorem beginHead_of_ne_sampu (hd : ∀ rd, decode s.head ≠ .ok (.sampu rd)) : beginHead s = beginExec s := by
  unfold beginHead
  split
  · exact absurd ‹_› (hd _)
  · rfl

/-- A Start takes the exception of its first failing check, or else begins. -/
theorem startStep_eq_elim (checks : List (Bool × Exc)) (begins : State → State) (s : State) :
    startStep checks begins s = .next ((firstFailing checks).elim (begins s) fun e => takeExc e s) := by
  rcases startStep_cases checks begins s with ⟨hc, h⟩ | ⟨e, hc, h⟩ <;> rw [h, hc] <;> rfl

/-- A Start takes its exception, or else begins the head command. -/
theorem ReadyToStart.step_eq_elim (h : ReadyToStart s) :
    step s = .next ((startExc s).elim (beginHead s) fun e => takeExc e s) := by
  cases hd : decode s.head with
  | error e => rw [h.step_of_decode_error hd, startExc_of_error hd]; rfl
  | ok i =>
    rw [h.step_eq, engineTurn_start h.canStart hd, startExc_of_ok hd]
    by_cases hi : ∃ rd, i = .sampu rd
    · obtain ⟨rd, rfl⟩ := hi
      rw [exec_sampu_idle h.eng, beginHead_sampu hd]
      rfl
    · have hi := not_exists.1 hi
      have hhead : ∀ rd, decode s.head ≠ .ok (.sampu rd) := by simpa [hd] using hi
      rw [exec_idle h.eng hi, startCommand, startStep_eq_elim, beginHead_of_ne_sampu hhead]

/-- The state after a Start. -/
theorem ReadyToStart.eq_elim_of_next (hready : ReadyToStart s) (h : step s = .next t) :
    t = (startExc s).elim (beginHead s) fun e => takeExc e s :=
  (Host.Outcome.next.inj (hready.step_eq_elim.symm.trans h)).symm

end

section
variable (s : State)

/-- A Start that takes no exception is the Start of SAMPU or begins to execute the head. -/
theorem beginHead_cases : beginHead s = begun s ∨
    ∃ rd, decode s.head = .ok (.sampu rd) ∧ beginHead s = beginSampling rd s := by
  by_cases hd : ∃ rd, decode s.head = .ok (.sampu rd)
  · obtain ⟨rd, hd⟩ := hd
    exact .inr ⟨rd, hd, beginHead_sampu hd⟩
  · exact .inl (beginHead_of_ne_sampu (not_exists.1 hd))

/-! What a Start reads (R151): of the registers their tags and cw values, of BUF nothing. -/

/-- With other coefficients and another BUF a Start takes the same exception. -/
theorem startExc_withData {p : Vector Poly 16} (buf : List Host.Cell)
    (hsame : ∀ r : Reg, p[r].tag = s.p[r].tag ∧ p[r].cw = s.p[r].cw) :
    startExc { s with p := p, buf := buf } = startExc s := by
  have hkinds : State.kinds { s with p := p, buf := buf } = s.kinds :=
    funext fun r => congrArg₂ RegKind.mk (hsame r).1 (hsame r).2
  unfold startExc
  rw [hkinds]
  rfl

/-- With other registers and another BUF a Start begins the same, those alone being other after it. -/
theorem beginHead_withData (p : Vector Poly 16) (buf : List Host.Cell) :
    ∃ p', beginHead { s with p := p, buf := buf } = { beginHead s with p := p', buf := buf } := by
  by_cases hd : ∃ rd, decode s.head = .ok (.sampu rd)
  · obtain ⟨rd, hd⟩ := hd
    rw [beginHead_sampu hd, beginHead_sampu (s := { s with p := p, buf := buf }) hd]
    exact ⟨_, rfl⟩
  · have hd := not_exists.1 hd
    rw [beginHead_of_ne_sampu hd, beginHead_of_ne_sampu (s := { s with p := p, buf := buf }) hd]
    exact ⟨_, rfl⟩

end

/-- Settles O11: the state after a Start, with the exception it takes an error or a fault. -/
theorem startIsPrecise : Obligations.StartIsPrecise := by
  intro s t hready h
  rw [hready.eq_elim_of_next h]
  cases startExc s with
  | none =>
    rcases beginHead_cases s with h | ⟨rd, hd, h⟩
    · exact .inl h
    · exact .inr (.inl ⟨rd, hd, h⟩)
  | some e =>
    cases e with
    | error code => exact .inr (.inr (.inl ⟨code, rfl⟩))
    | fault cause => exact .inr (.inr (.inr ⟨cause, rfl⟩))

/-- Settles O12: both states have the same head and the same kinds, and so take the same exception or begin the same
command. -/
theorem startIgnoresData : Obligations.StartIgnoresData := by
  intro s t t' p buf hready hsame h h'
  have hready' : ReadyToStart { s with p := p, buf := buf } :=
    ⟨hready.turn, hready.eng, hready.queue, hready.err, hready.flt⟩
  rw [hready.eq_elim_of_next h, hready'.eq_elim_of_next h', startExc_withData s buf hsame]
  cases startExc s with
  | none =>
    obtain ⟨p', hbegins⟩ := beginHead_withData s p buf
    rw [Option.elim_none, Option.elim_none, hbegins]
    exact ⟨rfl, rfl, rfl, rfl, rfl, rfl, rfl⟩
  | some e => cases e <;> exact ⟨rfl, rfl, rfl, rfl, rfl, rfl, rfl⟩

/-! ### Which steps raise an exception (R150) -/

/-- An error or a fault stands in `t` that did not stand in `s`. -/
def Raises (s t : State) : Prop :=
  t.err ≠ s.err ∧ t.err ≠ none ∨ t.flt ≠ s.flt ∧ t.flt ≠ none

section
variable {s t : State}

theorem not_raises (herr : t.err = s.err ∨ t.err = none) (hflt : t.flt = s.flt ∨ t.flt = none) : ¬Raises s t := by
  unfold Raises
  tauto

theorem not_raises_of_eq (herr : t.err = s.err) (hflt : t.flt = s.flt) : ¬Raises s t :=
  not_raises (.inl herr) (.inl hflt)

@[simp] theorem chunkStep_err (rd : Reg) (acc : List Coeff) (w : Word) (c : Chunk) (s : State) :
    (chunkStep rd acc w c s).err = s.err := by
  rcases chunkStep_cases rd acc w c s with ⟨-, h⟩ | ⟨-, h⟩ <;> simp [h]

/-- A command's own step raises an exception only as its Start. -/
theorem Raises.of_exec {i : Instr} (hr : Raises s t) (h : exec i s = .next t) :
    s.eng = .idle ∧ ∃ e, t = takeExc e s := by
  cases exec_cases h with
  | refusedStart e he _ ht => exact ⟨he, e, ht⟩
  | begins _ _ _ ht | samples _ _ _ ht | waits _ ht => subst ht; exact absurd hr (not_raises_of_eq rfl rfl)
  | completes _ _ _ ht =>
    obtain ⟨p, buf, rng, rfl⟩ := ht
    exact absurd hr (not_raises_of_eq rfl rfl)
  | chunk _ _ _ _ _ _ ht => subst ht; exact absurd hr (not_raises_of_eq (by simp) (by simp))

/-- The engine's turn raises an exception only at the Start of the head. -/
theorem Raises.of_engineTurn (hr : Raises s t) (h : engineTurn s = .next t) :
    canStart s = true ∧ ∃ e, t = takeExc e s := by
  cases engineTurn_cases h with
  | idles ht => subst ht; exact absurd hr (not_raises_of_eq rfl rfl)
  | notACommand e hs _ ht => exact ⟨hs, _, ht⟩
  | starts _ hs _ h => exact ⟨hs, (hr.of_exec h).2⟩
  | completes _ _ he _ h | samples _ _ _ he h =>
    have hidle := (hr.of_exec h).1
    rw [he] at hidle
    cases hidle

/-- A chunk given to the sampling command raises no exception. -/
theorem not_raises_of_offered {rd : Reg} {acc : List Coeff} {w : Word} {c : Chunk} (he : s.eng = .sampling rd acc w)
    (h : exec (.sampu rd) (offerChunk c s) = .next t) : ¬Raises s t := fun hr => by
  obtain ⟨hidle, -⟩ := Raises.of_exec (s := offerChunk c s) hr h
  rw [offerChunk_eng, he] at hidle
  cases hidle

theorem not_raises_writeCtrl (v : Word) (s : State) : ¬Raises s (writeCtrl v s) := by
  cases hv : v.getLsbD 0 with
  | true => rw [writeCtrl_reset hv]; exact not_raises (.inr rfl) (.inr rfl)
  | false => rw [writeCtrl_enables hv]; exact not_raises_of_eq rfl rfl

theorem not_raises_writeStatus (v : Word) (s : State) : ¬Raises s (writeStatus v s) := by
  refine not_raises ?_ (.inl (writeStatus_flt v s))
  rw [writeStatus_eq]
  dsimp only
  split
  · exact .inr rfl
  · exact .inl rfl

/-- A host write to CMD raises CQ_OVERFLOW only (R157). -/
theorem Raises.of_writeCmd {v : Word} (hr : Raises s (writeCmd v s)) :
    writeCmd v s = { s with err := some .cqOverflow, errinfo := v } := by
  rcases writeCmd_cases v s with h | ⟨-, h⟩ | ⟨-, h⟩
  · rw [h] at hr; exact absurd hr (not_raises_of_eq rfl rfl)
  · exact h
  · rw [h] at hr; exact absurd hr (not_raises_of_eq rfl rfl)

/-- A host write raises an exception only at CMD. -/
theorem Raises.of_hostWrite {off : Offset} {v : Word} (hr : Raises s t) (h : hostWrite off v s = .next t) :
    off.toNat / 4 = 3 ∧ t = { s with err := some .cqOverflow, errinfo := v } := by
  cases hostWrite_cases h with
  | ctrl _ ht => subst ht; exact absurd hr (not_raises_writeCtrl v s)
  | status _ ht => subst ht; exact absurd hr (not_raises_writeStatus v s)
  | cmd ho ht =>
    subst ht
    exact ⟨by unfold wordOffset at ho; omega, hr.of_writeCmd⟩
  | xdataAnswer _ _ _ _ he h => exact absurd hr (not_raises_of_offered he h)
  | xdataSpurious _ _ ht | ignored _ _ ht | window _ _ ht =>
    subst ht; exact absurd hr (not_raises_of_eq rfl rfl)

end

/-- Settles O13, by the turns of the agents. -/
theorem exceptionsRaisedAtTwoPoints : Obligations.ExceptionsRaisedAtTwoPoints := by
  intro s t h hr
  cases step_cases h with
  | engine s₀ hs h =>
    obtain ⟨rest, hturn, rfl⟩ : ∃ rest, (s.schedule = [] ∨ ∃ rest, s.schedule = .engine :: rest) ∧
        s₀ = withTurns rest s := by
      rcases hs with ⟨hs, hself⟩ | ⟨rest, hs, hrest⟩
      · exact ⟨s.schedule, .inl hs, hself⟩
      · exact ⟨rest, .inr ⟨rest, hs⟩, hrest⟩
    obtain ⟨hstart, e, rfl⟩ := Raises.of_engineTurn (s := withTurns rest s) hr h
    obtain ⟨heng, hqueue, -, -⟩ := (canStart_iff _).1 hstart
    exact .inl ⟨heng, (takeExc_eng ..).trans heng, hqueue, takeExc_queue .., takeExc_errinfo .., hturn⟩
  | hostRead off rest hs h =>
    obtain ⟨v, rfl⟩ := hostRead_cases h
    exact absurd hr (not_raises_of_eq rfl rfl)
  | hostWrite off v rest hs h =>
    obtain ⟨hoff, rfl⟩ := Raises.of_hostWrite (s := withTurns rest s) hr h
    exact .inr ⟨off, v, rest, hs, hoff, rfl, rfl, rfl, rfl, rfl⟩
  | xof c rest hs h =>
    rcases answerXof_cases h with ⟨rd, acc, w, he, h⟩ | ⟨-, rfl⟩
    · exact absurd hr (not_raises_of_offered (s := withTurns rest s) he h)
    · exact absurd hr (not_raises_of_eq rfl rfl)
  | powerOn rest hs ht => subst ht; exact absurd hr (not_raises (.inr rfl) (.inr rfl))

end Sys2Proof.Machine

/-! ### Power-on reset (spec/70_reset_and_hazards.md R170, R171)

`State.reset` is itself a power-on reset, so what power-on leaves is said once, of `powerOnReset`. -/

namespace Sys2Proof.Machine

/-- A word whose fields are all 0 is 0. -/
theorem packFields_eq_zero (width : Nat) {value : Nat → Nat} (hv : ∀ i, value i = 0) (n : Nat) :
    packFields width value n = 0 := by
  induction n with
  | zero => rfl
  | succ n ih => simp [packFields, ih, hv]

section
variable (s : State)

@[simp] theorem polyAt_powerOnReset (n : Nat) : (powerOnReset s).polyAt n = .empty := by
  simp [State.polyAt]

/-! An EMPTY register has tag code 0 and width 0 (spec/10_state.md R14, R15). -/

@[simp] theorem tagsWord_powerOnReset : tagsWord (powerOnReset s) = 0 := by
  rw [tagsWord, packFields_eq_zero _ fun i => by rw [polyAt_powerOnReset]; rfl]
  rfl

@[simp] theorem cwloWord_powerOnReset : cwloWord (powerOnReset s) = 0 := by
  rw [cwloWord, packFields_eq_zero _ fun i => by rw [polyAt_powerOnReset]; rfl]
  rfl

@[simp] theorem cwhiWord_powerOnReset : cwhiWord (powerOnReset s) = 0 := by
  rw [cwhiWord, packFields_eq_zero _ fun i => by rw [polyAt_powerOnReset]; rfl]
  rfl

end

theorem powerOnReset_reset : powerOnReset State.reset = State.reset := rfl

/-- A scheduled power-on turn leaves a power-on reset, and so is `State.reset` one. -/
theorem eq_powerOnReset {s t : State} {rest : List Turn}
    (h : (s.schedule = .powerOn :: rest ∧ step s = .next t) ∨ t = State.reset) : ∃ u, t = powerOnReset u := by
  rcases h with ⟨hs, hstep⟩ | rfl
  · rw [step_of_schedule_cons hs] at hstep
    cases hstep
    exact ⟨_, rfl⟩
  · exact ⟨_, powerOnReset_reset.symm⟩

/-- Settles O47, field by field of a power-on reset; STATUS and CTRL are those of the soft reset it includes (R170). -/
theorem powerOnEffects : Obligations.PowerOnEffects := by
  intro s t rest h
  obtain ⟨u, rfl⟩ := eq_powerOnReset h
  exact ⟨fun _ => rfl, rfl, rfl, replicate_empty_get, rfl, statusWord_softReset u, ctrlWord_softReset u, rfl,
    tagsWord_powerOnReset u, cwloWord_powerOnReset u, cwhiWord_powerOnReset u, rfl, rfl, rfl, rfl⟩

end Sys2Proof.Machine
